-- ==== Sys2Proof/Word.lean ====
section
/-! DEFINITION. The words of HLC-1 and the plain types of its fields (00_scope.md R9, R12).

All quantities are unsigned (R12).  A width that the spec fixes is the width of the type here. -/

namespace Sys2Proof

/-- A command word or a response word, CMDW = RSPW = 32 bits (R9). -/
abbrev Word := BitVec 32

/-- A character code point, SYMW = 16 bits (R9). -/
abbrev Symbol := BitVec 16

/-- The `freq` field of a node, FREQW = 24 bits (R9, R25). -/
abbrev Freq := BitVec 24

/-- A node index field, NIDXW = 13 bits (R9, R25). -/
abbrev NodeIdx := BitVec 13

/-- The `len` field of a code record, 12 bits (R26). -/
abbrev CodeLen := BitVec 12

/-- A Bit is 0 (`false`) or 1 (`true`) (R12). -/
abbrev Bit := Bool

/-- The data field of a response word, 28 bits (R73). -/
abbrev Data := BitVec 28

/-- `zext_28(v)` of a counted quantity (R12, R30). -/
abbrev dataOfNat (v : Nat) : Data := BitVec.ofNat 28 v

/-- The number a Bit stands for. -/
abbrev bitNat (b : Bit) : Nat := if b then 1 else 0

end Sys2Proof
end

