-- ==== Sys2Proof/Config.lean ====
section
/-! DEFINITION. What an implementation of HLC-1 fixes: the constants of 00_scope.md R10, the open parameters of
R9 and R11 with their defaults, and the free value that unwritten storage holds (10_state.md R37). -/

namespace Sys2Proof.Config

/-- SPACE, the space character of comparator rule 2 (R10). -/
abbrev space : Symbol := 0x0020#16

/-- CH0, the character '0' of a decoder input bitstring (R10). -/
abbrev ch0 : Symbol := 0x0030#16

/-- CH1, the character '1' of a decoder input bitstring (R10). -/
abbrev ch1 : Symbol := 0x0031#16

/-- NIL, the child index of a node that has no child: 13 bits, all ones (R10). -/
abbrev nil : NodeIdx := 0x1FFF#13

/-- The open parameters of R9 and R11.  The operations that depend on one take a `Params`, so that a claim can be made
for every admissible value; the machine itself runs with `Config.defaults`. -/
structure Params where
  /-- NSYM_MAX, the largest number of distinct symbols in one phrase. -/
  nsymMax : Nat
  /-- PMAX, the capacity of PB in characters. -/
  pmax : Nat
  /-- IMAX, the capacity of IB, and of TB, in characters. -/
  imax : Nat
  /-- OMAX, the capacity of OB in bits. -/
  omax : Nat
  /-- WS, which characters are whitespace (R11). -/
  ws : Symbol → Bool

/-- The constraints that R9 and R11 put on the parameters. -/
def Params.Admissible (P : Params) : Prop :=
  (1 ≤ P.nsymMax ∧ P.nsymMax ≤ 4096) ∧ (1 ≤ P.pmax ∧ P.pmax ≤ 2 ^ 24 - 1) ∧
  (1 ≤ P.imax ∧ P.imax ≤ 2 ^ 24 - 1) ∧ (1 ≤ P.omax ∧ P.omax ≤ 2 ^ 24 - 1) ∧ P.ws space = true

/-- NNODE_MAX, the capacity of the node arena (R9). -/
def Params.nnodeMax (P : Params) : Nat := 2 * P.nsymMax - 1

/-- CODE_MAX, the largest code length in bits (R9). -/
def Params.codeMax (P : Params) : Nat := max 1 (P.nsymMax - 1)

/-- The default of WS: the code points at or below SPACE, unsigned (R11). -/
def defaultWs (c : Symbol) : Bool := decide (c ≤ space)

/-- The defaults of R9 and R11, with which the machine runs.
DESIGN CHOICE (log entry 5): unsafe for an implementation with other capacities or another WS. -/
def defaults : Params where
  nsymMax := 256
  pmax := 4096
  imax := 65536
  omax := 65536
  ws := defaultWs

/-- The six element-addressed spaces (20_memory.md R50). -/
inductive Space where
  | pb | ib | node | ct | ob | tb
  deriving DecidableEq, Repr

/-- What field `field` of element `index` of a space holds when nothing has written it: any value (R37; 93 U8, U9).
A free value: no body, so no proof can see it (DESIGN CHOICE, safe, log entry 6). -/
opaque unwritten (sp : Space) (index field width : Nat) : BitVec width

end Sys2Proof.Config
end

