-- ==== Sys2Proof/Syntax.lean ====
section
/-! DEFINITION. The 18 commands of HLC-1, one constructor per row of 30_encoding.md R75.

A character operand is a Symbol (R72: `c = w[15:0]`).  An index operand is a number (`x`, `i`, `k`); the range its field
gives it is checked in WellFormed.lean (DESIGN CHOICE, safe, log entry 13). -/

namespace Sys2Proof

/-- The command set (R75). -/
inductive Instr where
  /-- 0x00, do nothing (R170). -/
  | nop
  /-- 0x01, read control register `x` (R171). -/
  | rdcr (x : Nat)
  /-- 0x10, empty the phrase buffer (R93). -/
  | pclr
  /-- 0x11, append `c` to the phrase buffer (R94). -/
  | pput (c : Symbol)
  /-- 0x12, buildAndEncode on the phrase buffer (R137). -/
  | build
  /-- 0x20, empty the decode input buffer (R159). -/
  | bclr
  /-- 0x21, append `c` to the decode input buffer (R160). -/
  | bput (c : Symbol)
  /-- 0x22, decode the input buffer (R161). -/
  | decode
  /-- 0x30, read kind and symbol of node `x` (R112). -/
  | rdnk (x : Nat)
  /-- 0x31, read frequency of node `x` (R113). -/
  | rdnf (x : Nat)
  /-- 0x32, read left child of node `x` (R114). -/
  | rdnl (x : Nat)
  /-- 0x33, read right child of node `x` (R115). -/
  | rdnr (x : Nat)
  /-- 0x40, read symbol of code entry `x` (R125). -/
  | rdcs (x : Nat)
  /-- 0x41, read length of code entry `x` (R126). -/
  | rdcl (x : Nat)
  /-- 0x42, read bit `k` of code entry `e` (R127; the spec's `i`). -/
  | rdcb (e k : Nat)
  /-- 0x43, find the code entry of symbol `c` (R128). -/
  | lkup (c : Symbol)
  /-- 0x50, read bit `x` of the encoded output (R140). -/
  | rdob (x : Nat)
  /-- 0x51, read character `x` of the decoded text (R162). -/
  | rdtx (x : Nat)
  deriving DecidableEq, Repr

/-- The mnemonic of a command, as R75 spells it. -/
def Instr.mnemonic : Instr → String
  | .nop => "NOP"
  | .rdcr _ => "RDCR"
  | .pclr => "PCLR"
  | .pput _ => "PPUT"
  | .build => "BUILD"
  | .bclr => "BCLR"
  | .bput _ => "BPUT"
  | .decode => "DECODE"
  | .rdnk _ => "RDNK"
  | .rdnf _ => "RDNF"
  | .rdnl _ => "RDNL"
  | .rdnr _ => "RDNR"
  | .rdcs _ => "RDCS"
  | .rdcl _ => "RDCL"
  | .rdcb _ _ => "RDCB"
  | .lkup _ => "LKUP"
  | .rdob _ => "RDOB"
  | .rdtx _ => "RDTX"

end Sys2Proof
end

