-- ==== Sys2Proof/WellFormed.lean ====
section
/-! DEFINITION. Which commands a 32-bit word can express (30_encoding.md R71, R72): an index `x` fills 24 bits, an entry
index and a bit position 12 bits each; a Symbol fills its field by its type. -/

namespace Sys2Proof

/-- An index operand of format X fits bits 23:0 (R72). -/
def indexFits (x : Nat) : Bool := decide (x < 2 ^ 24)

/-- An entry index of format K fits bits 23:12 (R72). -/
def entryFits (e : Nat) : Bool := decide (e < 2 ^ 12)

/-- A bit position of format K fits bits 11:0 (R72). -/
def bitPosFits (k : Nat) : Bool := decide (k < 2 ^ 12)

/-- Every operand fits the field its format gives it (R71, R72). -/
def Instr.wellFormed : Instr → Bool
  | .nop => true
  | .rdcr x => indexFits x
  | .pclr => true
  | .pput _ => true
  | .build => true
  | .bclr => true
  | .bput _ => true
  | .decode => true
  | .rdnk x => indexFits x
  | .rdnf x => indexFits x
  | .rdnl x => indexFits x
  | .rdnr x => indexFits x
  | .rdcs x => indexFits x
  | .rdcl x => indexFits x
  | .rdcb e k => entryFits e && bitPosFits k
  | .lkup _ => true
  | .rdob x => indexFits x
  | .rdtx x => indexFits x

end Sys2Proof
end

