-- ==== Sys2Proof/Decode.lean ====
section
/-! DEFINITION. Command words to commands and back (30_encoding.md R70 to R78).

The decoder is total on the 2^32 words: a word is exactly one command or illegal, with the reason by name (R76).  The
encoder is written from the format tables of R71. -/

namespace Sys2Proof

/-- Why a word is no command (R76). -/
inductive Illegal where
  /-- `op` is not one of the 18 values of R75. -/
  | unknownOpcode
  /-- A format Z opcode with `w[23:0] ≠ 0`. -/
  | operandNotZero
  /-- A format C opcode with `w[23:16] ≠ 0`. -/
  | upperByteNotZero
  deriving DecidableEq, Repr

/-- What the command decoder makes of a word (R76). -/
inductive Decoded where
  | command (i : Instr)
  | illegal (r : Illegal)
  deriving DecidableEq, Repr

/-- `op = w[31:24]` (R70). -/
def opField (w : Word) : BitVec 8 := w.extractLsb' 24 8

/-- `c = w[15:0]` (R72). -/
def cField (w : Word) : Symbol := w.extractLsb' 0 16

/-- `x = w[23:0]` (R72). -/
def xField (w : Word) : Nat := (w.extractLsb' 0 24).toNat

/-- `i = w[23:12]` (R72). -/
def iField (w : Word) : Nat := (w.extractLsb' 12 12).toNat

/-- `k = w[11:0]` (R72). -/
def kField (w : Word) : Nat := (w.extractLsb' 0 12).toNat

/-- Format Z: bits 23:0 must be 0 (R71). -/
def formatZ (w : Word) (i : Instr) : Decoded :=
  if w.extractLsb' 0 24 = 0#24 then .command i else .illegal .operandNotZero

/-- Format C: bits 23:16 must be 0, one character (R71). -/
def formatC (w : Word) (f : Symbol → Instr) : Decoded :=
  if w.extractLsb' 16 8 = 0#8 then .command (f (cField w)) else .illegal .upperByteNotZero

/-- Format X: one index (R71). -/
def formatX (w : Word) (f : Nat → Instr) : Decoded := .command (f (xField w))

/-- Format K: entry index and bit position (R71). -/
def formatK (w : Word) (f : Nat → Nat → Instr) : Decoded := .command (f (iField w) (kField w))

/-- The command decoder: the opcode map of R75, and R76 for every other word. -/
def decode (w : Word) : Decoded :=
  match (opField w).toNat with
  | 0x00 => formatZ w .nop
  | 0x01 => formatX w .rdcr
  | 0x10 => formatZ w .pclr
  | 0x11 => formatC w .pput
  | 0x12 => formatZ w .build
  | 0x20 => formatZ w .bclr
  | 0x21 => formatC w .bput
  | 0x22 => formatZ w .decode
  | 0x30 => formatX w .rdnk
  | 0x31 => formatX w .rdnf
  | 0x32 => formatX w .rdnl
  | 0x33 => formatX w .rdnr
  | 0x40 => formatX w .rdcs
  | 0x41 => formatX w .rdcl
  | 0x42 => formatK w .rdcb
  | 0x43 => formatC w .lkup
  | 0x50 => formatX w .rdob
  | 0x51 => formatX w .rdtx
  | _ => .illegal .unknownOpcode

/-- The command in a decoder's answer, if there is one. -/
def Decoded.toOption : Decoded → Option Instr
  | .command i => some i
  | .illegal _ => none

/-- A word of format Z (R71). -/
def wordZ (op : BitVec 8) : Word := op ++ 0#24

/-- A word of format C (R71). -/
def wordC (op : BitVec 8) (c : Symbol) : Word := op ++ (0#8 ++ c : BitVec 24)

/-- A word of format X (R71). -/
def wordX (op : BitVec 8) (x : Nat) : Word := op ++ BitVec.ofNat 24 x

/-- A word of format K (R71). -/
def wordK (op : BitVec 8) (e k : Nat) : Word := op ++ (BitVec.ofNat 12 e ++ BitVec.ofNat 12 k : BitVec 24)

/-- The command word of a command (R71, R75). -/
def encode : Instr → Word
  | .nop => wordZ 0x00#8
  | .rdcr x => wordX 0x01#8 x
  | .pclr => wordZ 0x10#8
  | .pput c => wordC 0x11#8 c
  | .build => wordZ 0x12#8
  | .bclr => wordZ 0x20#8
  | .bput c => wordC 0x21#8 c
  | .decode => wordZ 0x22#8
  | .rdnk x => wordX 0x30#8 x
  | .rdnf x => wordX 0x31#8 x
  | .rdnl x => wordX 0x32#8 x
  | .rdnr x => wordX 0x33#8 x
  | .rdcs x => wordX 0x40#8 x
  | .rdcl x => wordX 0x41#8 x
  | .rdcb e k => wordK 0x42#8 e k
  | .lkup c => wordC 0x43#8 c
  | .rdob x => wordX 0x50#8 x
  | .rdtx x => wordX 0x51#8 x

/-- One row of the opcode map: a word `w` is the command when `w & mask = pat` (R75; `pat` is the column `match`). -/
structure OpcodeRow where
  mnemonic : String
  pat : Word
  mask : Word
  deriving DecidableEq, Repr

/-- The opcode map as R75 prints it. -/
def opcodeMap : List OpcodeRow :=
  [⟨"NOP", 0x00000000#32, 0xFFFFFFFF#32⟩, ⟨"RDCR", 0x01000000#32, 0xFF000000#32⟩,
   ⟨"PCLR", 0x10000000#32, 0xFFFFFFFF#32⟩, ⟨"PPUT", 0x11000000#32, 0xFFFF0000#32⟩,
   ⟨"BUILD", 0x12000000#32, 0xFFFFFFFF#32⟩, ⟨"BCLR", 0x20000000#32, 0xFFFFFFFF#32⟩] ++
  [⟨"BPUT", 0x21000000#32, 0xFFFF0000#32⟩, ⟨"DECODE", 0x22000000#32, 0xFFFFFFFF#32⟩,
   ⟨"RDNK", 0x30000000#32, 0xFF000000#32⟩, ⟨"RDNF", 0x31000000#32, 0xFF000000#32⟩,
   ⟨"RDNL", 0x32000000#32, 0xFF000000#32⟩, ⟨"RDNR", 0x33000000#32, 0xFF000000#32⟩] ++
  [⟨"RDCS", 0x40000000#32, 0xFF000000#32⟩, ⟨"RDCL", 0x41000000#32, 0xFF000000#32⟩,
   ⟨"RDCB", 0x42000000#32, 0xFF000000#32⟩, ⟨"LKUP", 0x43000000#32, 0xFFFF0000#32⟩,
   ⟨"RDOB", 0x50000000#32, 0xFF000000#32⟩, ⟨"RDTX", 0x51000000#32, 0xFF000000#32⟩]

/-- The command the decoder reads from the bits `w` of an opcode-table row, bit 0 the least significant bit of the one
32-bit command word (R12, R70); bits at and above `nbits` are 0. -/
def decodeTableWord (nbits w : Nat) : Option Instr :=
  (decode (BitVec.ofNat 32 (w % 2 ^ nbits))).toOption

end Sys2Proof
end

