-- ==== Sys2Proof/Machine/State.lean ====
section
/-! DEFINITION. The state of the core as plain data: one field per row of 10_state.md R20, and the host's side of the
two channels of 30_encoding.md R81; the fault and refusal reasons; the state after reset (R37). -/

namespace Sys2Proof.Machine

/-- The `kind` bit of a node: 0 a Leaf, 1 an Internal node (R25). -/
inductive Kind where
  | leaf
  | internal
  deriving DecidableEq, Repr

/-- A node record of the arena NODE (R25). -/
structure Node where
  kind : Kind
  freq : Freq
  sym : Symbol
  left : NodeIdx
  right : NodeIdx
  deriving DecidableEq, Repr

/-- A code record of the table CT (R26); `bits[0]` is the step taken at the root. -/
structure Code where
  sym : Symbol
  len : CodeLen
  bits : List Bit
  deriving DecidableEq, Repr

/-- What the host can do between two commands: send a command word, or assert reset (R8, R195, R197); the signals of one
transfer are left out (DESIGN CHOICE, safe, log entry 12). -/
inductive HostEvent where
  | command (w : Word)
  | reset
  deriving DecidableEq, Repr

/-- The state.  The first fifteen fields are the rows of R20, and all of them; `cmds` and `rsps` are the host's two word
streams, the model's own fields (DESIGN CHOICE, safe, log entries 1 and 2).  A buffer or table is the list of its elements
from index 0; elements that no command can read are not kept (DESIGN CHOICE, safe, log entry 7).  Lengths are natural
numbers (DESIGN CHOICE, safe, log entry 8). -/
structure State where
  /-- PB, the phrase buffer (R21). -/
  pb : List Symbol
  /-- PLEN, the number of characters in PB (R21). -/
  plen : Nat
  /-- IB, the decode input buffer (R22). -/
  ib : List Symbol
  /-- ILEN, the number of characters in IB (R22). -/
  ilen : Nat
  /-- TVALID, a tree and code table are held (R23). -/
  tvalid : Bool
  /-- NSYM, the number of leaves of the held tree (R24). -/
  nsym : Nat
  /-- NNODE, the number of nodes of the held tree (R24). -/
  nnode : Nat
  /-- ROOT, the index of the root of the held tree (R24). -/
  root : NodeIdx
  /-- NODE, the node arena (R25). -/
  node : List Node
  /-- CT, the code table (R26). -/
  ct : List Code
  /-- OB, the encoded output buffer (R27). -/
  ob : List Bit
  /-- OLEN, the number of bits in OB (R27). -/
  olen : Nat
  /-- TB, the decoded text buffer (R28). -/
  tb : List Symbol
  /-- TLEN, the number of characters in TB (R28). -/
  tlen : Nat
  /-- DTRUNC, the last successful DECODE ended in mid-code (R29). -/
  dtrunc : Bool
  /-- The model's own: what the host is still to send, next first (R33, R81). -/
  cmds : List HostEvent
  /-- The model's own: the response words given so far, oldest first (R73, R207). -/
  rsps : List Word
  deriving DecidableEq, Repr

/-- Why the machine would stop. -/
inductive Fault where
  /-- Raised by BUILD where the encoder meets a character with no entry in the code table (43_encoder.md R136; 93 U1 asks
  for a fault there, never a value).  DESIGN CHOICE, safe (log entry 11), and never reached: FC counted the same phrase. -/
  | encoderNoEntry
  deriving DecidableEq, Repr

/-- Why the model would give a command no meaning. -/
inductive Refusal where
  /-- Raised by `exec` for a command that has no meaning yet; no arm raises it now.  Safe: no claim about that command
  could be proved. -/
  | notModelled (mnemonic : String)
  deriving DecidableEq, Repr

/-- The state right after reset (R37, R196): all nine scalars and flags are 0.  The six memories start empty, as R37
lets a model do; the host has sent nothing and been given nothing (DESIGN CHOICE, safe, log entries 7, 1 and 2). -/
def State.reset : State where
  pb := []
  plen := 0
  ib := []
  ilen := 0
  tvalid := false
  nsym := 0
  nnode := 0
  root := 0#13
  node := []
  ct := []
  ob := []
  olen := 0
  tb := []
  tlen := 0
  dtrunc := false
  cmds := []
  rsps := []

end Sys2Proof.Machine
end

