-- ==== Sys2Proof/Machine/Flags.lean ====
section
/-! DEFINITION. The two flags, TVALID and DTRUNC, and the STATUS register that shows them (10_state.md R31, R34). -/

namespace Sys2Proof.Machine

/-- STATUS: bit 0 is TVALID, bit 1 is DTRUNC, bits 27:2 read as 0 (R31). -/
def statusData (s : State) : Data :=
  (dataOfNat (bitNat s.dtrunc) <<< 1) ||| dataOfNat (bitNat s.tvalid)

/-- TVALID ← 1; nothing but a successful BUILD does this, and no command clears it (R23). -/
def setTvalid (s : State) : State := { s with tvalid := true }

/-- DTRUNC ← v (44_decoder.md R157). -/
def setDtrunc (v : Bool) (s : State) : State := { s with dtrunc := v }

end Sys2Proof.Machine
end

