-- ==== Sys2Proof/Machine/Ops.lean ====
section
/-! DEFINITION. The named operations over the state: responses and errors (30_encoding.md R73, 60_exceptions.md R175),
the six element-addressed spaces (20_memory.md R50, R51), the host's streams and reset (70_reset_and_hazards.md R195). -/

namespace Sys2Proof.Machine

/-- What a command ends in. -/
abbrev Result := Host.Outcome State Fault Refusal

/-! ### Responses and errors -/

/-- The nine statuses (R176). -/
inductive Status where
  | ok | eempty | enotree | einvbin | enomatch | ecap | eidx | eill | enosym
  deriving DecidableEq, Repr

/-- The status code, bits 31:28 of the response (R176). -/
def statusCode : Status → BitVec 4
  | .ok => 0#4
  | .eempty => 1#4
  | .enotree => 2#4
  | .einvbin => 3#4
  | .enomatch => 4#4
  | .ecap => 5#4
  | .eidx => 6#4
  | .eill => 7#4
  | .enosym => 8#4

/-- The response word: status in bits 31:28, data in bits 27:0 (R73). -/
def responseWord (st : Status) (d : Data) : Word := statusCode st ++ d

/-- Give the host one response word (R73, R81). -/
def respond (st : Status) (d : Data) (s : State) : State :=
  { s with rsps := s.rsps ++ [responseWord st d] }

/-- `respond(status, data)`: the command ends here, with one response (00_scope.md R13). -/
def answer (st : Status) (d : Data) (s : State) : Result := .next (respond st d s)

/-- `fail(E)`: take the error E.  In this block that is the response `(E, 0)` and nothing more: no mode, vector or saved
context (R175, R187), and no return from it (R188).  The state effects of R185 are in the state `s` given. -/
def fail (e : Status) (s : State) : Result := answer e 0#28 s

/-! ### Storage -/

/-- Element `j` of a space held as the list `l`; an element that nothing has written is free (R37). -/
def cell {α : Type} (free : Nat → α) (l : List α) (j : Nat) : α := l.getD j (free j)

/-- Elements 0 to n − 1 of a space held as the list `l`. -/
def cells {α : Type} (free : Nat → α) (l : List α) (n : Nat) : List α :=
  l.take n ++ (List.range' l.length (n - l.length)).map free

/-- What element `j` of a Symbol buffer holds when nothing has written it. -/
def freeSymbol (sp : Config.Space) (j : Nat) : Symbol := Config.unwritten sp j 0 16

/-- What OB[j] holds when nothing has written it. -/
def freeObBit (j : Nat) : Bit := (Config.unwritten .ob j 0 1).getLsbD 0

/-- What NODE[j] holds when nothing has written it. -/
def freeNode (j : Nat) : Node where
  kind := if (Config.unwritten .node j 0 1).getLsbD 0 then .internal else .leaf
  freq := Config.unwritten .node j 1 24
  sym := Config.unwritten .node j 2 16
  left := Config.unwritten .node j 3 13
  right := Config.unwritten .node j 4 13

/-- What bit `k` of CT[j].bits holds when nothing has written it (93 U9). -/
def freeCodeBit (j k : Nat) : Bit := (Config.unwritten .ct j (k + 2) 1).getLsbD 0

/-- What CT[j] holds when nothing has written it. -/
def freeCode (j : Nat) : Code where
  sym := Config.unwritten .ct j 0 16
  len := Config.unwritten .ct j 1 12
  bits := []

/-- PB[j]. -/
def pbAt (s : State) (j : Nat) : Symbol := cell (freeSymbol .pb) s.pb j

/-- IB[j]. -/
def ibAt (s : State) (j : Nat) : Symbol := cell (freeSymbol .ib) s.ib j

/-- TB[j]. -/
def tbAt (s : State) (j : Nat) : Symbol := cell (freeSymbol .tb) s.tb j

/-- OB[j]. -/
def obAt (s : State) (j : Nat) : Bit := cell freeObBit s.ob j

/-- NODE[i] of an arena, the retained one or the working copy of BUILD. -/
def nodeOf (a : List Node) (i : Nat) : Node := cell freeNode a i

/-- NODE[i]. -/
def nodeAt (s : State) (i : Nat) : Node := nodeOf s.node i

/-- CT[i]. -/
def ctAt (s : State) (i : Nat) : Code := cell freeCode s.ct i

/-- Bit `k` of the code that entry `i` holds, `bits[k]` (R26). -/
def codeBit (i : Nat) (r : Code) (k : Nat) : Bit := cell (freeCodeBit i) r.bits k

/-- The code of entry `i`: bits 0 to len − 1 (R26). -/
def codeBits (i : Nat) (r : Code) : List Bit := cells (freeCodeBit i) r.bits r.len.toNat

/-- The phrase, PB[0 .. PLEN − 1] (R21). -/
def phraseOf (s : State) : List Symbol := cells (freeSymbol .pb) s.pb s.plen

/-- The decoder's input, IB[0 .. ILEN − 1] (R22). -/
def inputOf (s : State) : List Symbol := cells (freeSymbol .ib) s.ib s.ilen

/-- PB[PLEN] ← c; PLEN ← PLEN + 1 (40_frequency_counter.md R94). -/
def appendPb (c : Symbol) (s : State) : State :=
  { s with pb := phraseOf s ++ [c], plen := s.plen + 1 }

/-- PLEN ← 0; the old contents become unreadable (R93). -/
def clearPb (s : State) : State := { s with pb := [], plen := 0 }

/-- IB[ILEN] ← c; ILEN ← ILEN + 1 (44_decoder.md R160). -/
def appendIb (c : Symbol) (s : State) : State :=
  { s with ib := inputOf s ++ [c], ilen := s.ilen + 1 }

/-- ILEN ← 0 (R159). -/
def clearIb (s : State) : State := { s with ib := [], ilen := 0 }

/-- What a successful BUILD leaves for a phrase with `n` distinct symbols (43_encoder.md R137, step 7). -/
structure Built where
  n : Nat
  nodes : List Node
  root : NodeIdx
  codes : List Code
  bits : List Bit
  deriving DecidableEq, Repr

/-- Step 7 of BUILD: the retained state is written all at once (R137, R138); NSYM ← n and NNODE ← 2n − 1. -/
def commitBuild (b : Built) (s : State) : State :=
  setTvalid
    { s with
      node := b.nodes
      ct := b.codes
      ob := b.bits
      nsym := b.n
      nnode := 2 * b.n - 1
      root := b.root
      olen := b.bits.length }

/-- TB[0 .. len(T) − 1] ← T; TLEN ← len(T); DTRUNC ← v (44_decoder.md R161). -/
def setDecoded (t : List Symbol) (v : Bool) (s : State) : State :=
  setDtrunc v { s with tb := t, tlen := t.length }

/-- TLEN ← 0; DTRUNC ← 0: what EINVBIN and ENOMATCH write (R185). -/
def clearDecoded (s : State) : State := setDecoded [] false s

/-- The canonical form of the six spaces: exactly the elements that a command can read are held, so that equal contents
are equal data (20_memory.md R50; DESIGN CHOICE, safe, log entry 7). -/
def Memory.wf (s : State) : Bool :=
  s.pb.length == s.plen && s.ib.length == s.ilen && s.node.length == s.nnode && s.ct.length == s.nsym &&
  s.ob.length == s.olen && s.tb.length == s.tlen && s.ct.all (fun r => r.bits.length == r.len.toNat)

/-! ### The host's streams and reset -/

/-- The next thing the host does, and the state once it is taken off the host's stream (R33, R58). -/
def nextEvent (s : State) : Option (HostEvent × State) :=
  match s.cmds with
  | [] => none
  | e :: rest => some (e, { s with cmds := rest })

/-- Reset: the state of R37 whatever it was before, and no response (R195, R196).  What the host is still to send and
what it was given before are the host's and stay (DESIGN CHOICE, safe, log entry 2). -/
def applyReset (s : State) : State := { State.reset with cmds := s.cmds, rsps := s.rsps }

/-- A word that is no command answers EILL and changes no state (30_encoding.md R76, R183). -/
def illegalCommand (s : State) : Result := fail .eill s

end Sys2Proof.Machine
end

