-- ==== Sys2Proof/Machine/Operands.lean ====
section
/-! DEFINITION. What an index operand selects, and the checks a command makes before it looks (20_memory.md R56,
60_exceptions.md R182, R186): first TVALID for a command that needs a tree, then the index against its bound. -/

namespace Sys2Proof.Machine

/-- `if TVALID = 0: respond(ENOTREE, 0)`; the check comes before every other of its command (R178, R186). -/
def withTree (s : State) (k : Result) : Result :=
  if s.tvalid then k else fail .enotree s

/-- `if x ≥ bound: respond(EIDX, 0)` (R182). -/
def withIndex (x bound : Nat) (s : State) (k : Result) : Result :=
  if x < bound then k else fail .eidx s

/-- A read of one field of node `x` (41_tree_builder.md R112 to R115). -/
def readNode (x : Nat) (field : Node → Data) (s : State) : Result :=
  withTree s (withIndex x s.nnode s (answer .ok (field (nodeAt s x)) s))

/-- A read of code entry `x` (42_code_table_generator.md R125, R126). -/
def readEntry (x : Nat) (field : Code → Data) (s : State) : Result :=
  withTree s (withIndex x s.nsym s (answer .ok (field (ctAt s x)) s))

end Sys2Proof.Machine
end

