-- ==== Sys2Proof/Machine/FrequencyCounter.lean ====
section
/-! DEFINITION. The FrequencyCounter unit, FC, and the phrase-load commands PCLR and PPUT (40_frequency_counter.md). -/

namespace Sys2Proof.Machine

/-- An entry of the transient frequency table FT (R90). -/
structure FtEntry where
  sym : Symbol
  cnt : Nat
  deriving DecidableEq, Repr

/-- One character `c` of the phrase: add 1 to its entry, or append an entry (sym = c, cnt = 1) unless there are NSYM_MAX
already (`none` is CapacityExceeded) (R90). -/
def countChar (nsymMax : Nat) (ft : List FtEntry) (c : Symbol) : Option (List FtEntry) :=
  if ft.any (fun e => e.sym == c) then
    some (ft.map (fun e => if e.sym == c then { e with cnt := e.cnt + 1 } else e))
  else if ft.length = nsymMax then none
  else some (ft ++ [{ sym := c, cnt := 1 }])

/-- The loop of FC over the characters still to come, with the table so far (R90). -/
def countFrom (nsymMax : Nat) (ft : List FtEntry) : List Symbol → Option (List FtEntry)
  | [] => some ft
  | c :: cs =>
    match countChar nsymMax ft c with
    | none => none
    | some ft' => countFrom nsymMax ft' cs

/-- FC: the frequency table of a phrase in order of first occurrence, `none` for CapacityExceeded (R90). -/
def frequencyTable (nsymMax : Nat) (p : List Symbol) : Option (List FtEntry) := countFrom nsymMax [] p

/-- PCLR (R93). -/
def execPclr (s : State) : Result := answer .ok 0#28 (clearPb s)

/-- PPUT for any admissible capacity (R94). -/
def phrasePut (P : Config.Params) (c : Symbol) (s : State) : Result :=
  if s.plen = P.pmax then fail .ecap s
  else
    let t := appendPb c s
    answer .ok (dataOfNat t.plen) t

/-- PPUT c (R94). -/
def execPput (c : Symbol) (s : State) : Result := phrasePut Config.defaults c s

end Sys2Proof.Machine
end

