-- ==== Sys2Proof/Machine/TreeBuilder.lean ====
section
/-! DEFINITION. The HuffmanTreeBuilder unit, TB: comparator and merge loop, and the node-read commands
(41_tree_builder.md). -/

namespace Sys2Proof.Machine

/-- The Leaf of a frequency table entry (R101). -/
def leafOf (e : FtEntry) : Node where
  kind := .leaf
  freq := BitVec.ofNat 24 e.cnt
  sym := e.sym
  left := Config.nil
  right := Config.nil

/-- The key that decides priority (R102). -/
structure Key where
  freq : Nat
  cat : Nat
  tie : Nat
  deriving DecidableEq, Repr

/-- The key of node index `i` (R102): the space leaf before any other leaf before an internal node; between leaves the
code point, between internal nodes the order of creation (R103, R104). -/
def keyOf (a : List Node) (i : Nat) : Key :=
  let v := nodeOf a i
  match v.kind with
  | .leaf => { freq := v.freq.toNat, cat := if v.sym = Config.space then 0 else 1, tie := v.sym.toNat }
  | .internal => { freq := v.freq.toNat, cat := 2, tie := i }

/-- Keys are compared lexicographically, each component unsigned (R102). -/
def keyLt (x y : Key) : Bool :=
  decide (x.freq < y.freq) || (decide (x.freq = y.freq) &&
    (decide (x.cat < y.cat) || (decide (x.cat = y.cat) && decide (x.tie < y.tie))))

/-- `a ≺ b`: node `x` has higher priority than node `y` (R102). -/
def higherPriority (a : List Node) (x y : Nat) : Bool := keyLt (keyOf a x) (keyOf a y)

/-- The node of highest priority among `m` and the list (R102, R109). -/
def leastFrom (a : List Node) (m : Nat) : List Nat → Nat
  | [] => m
  | v :: vs => leastFrom a (if higherPriority a v m then v else m) vs

/-- Remove the node of highest priority from Q (R107). -/
def extractLeast (a : List Node) : List Nat → Option (Nat × List Nat)
  | [] => none
  | v :: vs => some (leastFrom a v vs, (v :: vs).erase (leastFrom a v vs))

/-- The new Internal node over `x` (first-removed, left) and `y` (second-removed, right) (R107). -/
def internalOf (a : List Node) (x y : Nat) : Node where
  kind := .internal
  freq := (nodeOf a x).freq + (nodeOf a y).freq
  sym := 0#16
  left := BitVec.ofNat 13 x
  right := BitVec.ofNat 13 y

/-- The merge loop with `k` passes to go: arena so far and Q (R107).  Q has two elements at every pass (R107), so the
second and third cases do not arise (DESIGN CHOICE, safe, log entry 10). -/
def mergeLoop : Nat → List Node → List Nat → List Node
  | 0, a, _ => a
  | k + 1, a, q =>
    match extractLeast a q with
    | none => a
    | some (x, q₁) =>
      match extractLeast a q₁ with
      | none => a
      | some (y, q₂) => mergeLoop k (a ++ [internalOf a x y]) (q₂ ++ [a.length])

/-- TB: the arena of a frequency table (R101, R106, R107); with one entry no merge is made (R106). -/
def buildTree (ft : List FtEntry) : List Node :=
  mergeLoop (ft.length - 1) (ft.map leafOf) (List.range ft.length)

/-- ROOT of a tree with `n` leaves (R106, R107). -/
def rootOf (n : Nat) : Nat := 2 * n - 2

/-- The number of the kind bit (R25). -/
def kindNat : Kind → Nat
  | .leaf => 0
  | .internal => 1

/-- `(kind << 16) | sym` (R112). -/
def kindSymData (v : Node) : Data := (dataOfNat (kindNat v.kind) <<< 16) ||| v.sym.setWidth 28

/-- RDNK x (R112). -/
def execRdnk (x : Nat) (s : State) : Result := readNode x kindSymData s

/-- RDNF x (R113). -/
def execRdnf (x : Nat) (s : State) : Result := readNode x (fun v => v.freq.setWidth 28) s

/-- RDNL x (R114). -/
def execRdnl (x : Nat) (s : State) : Result := readNode x (fun v => v.left.setWidth 28) s

/-- RDNR x (R115). -/
def execRdnr (x : Nat) (s : State) : Result := readNode x (fun v => v.right.setWidth 28) s

end Sys2Proof.Machine
end

