-- ==== Sys2Proof/Machine/CodeTable.lean ====
section
/-! DEFINITION. The CodeTableGenerator unit, CG, and the code-table commands (42_code_table_generator.md).

The table is defined by the paths of R124, as R121 lets a model do; the order of the traversal of R121 cannot be observed
(DEDUCED, safe, log entry 9). -/

namespace Sys2Proof.Machine

/-- `par(v)` and `step(v)` among the nodes from index `i` on: the Internal node that has `v` as its left child (step 0)
or its right child (step 1) (R124). -/
def parentFrom (v : Nat) (i : Nat) : List Node → Option (Nat × Bit)
  | [] => none
  | d :: rest =>
    match d.kind with
    | .leaf => parentFrom v (i + 1) rest
    | .internal =>
      if d.left.toNat = v then some (i, false)
      else if d.right.toNat = v then some (i, true)
      else parentFrom v (i + 1) rest

/-- The steps from the root to `v`, first step first (R124).  The first argument bounds the climb; a parent has a larger
index than its child (41_tree_builder.md R111 (d)), so the number of nodes is enough. -/
def pathTo (a : List Node) (root : Nat) : Nat → Nat → List Bit
  | 0, _ => []
  | f + 1, v =>
    if v = root then []
    else
      match parentFrom v 0 a with
      | none => []
      | some (u, b) => pathTo a root f u ++ [b]

/-- The code record of a symbol with the code `p`. -/
def codeRecord (c : Symbol) (p : List Bit) : Code := { sym := c, len := BitVec.ofNat 12 p.length, bits := p }

/-- CG: one record per Leaf, CT[i] being the code of Leaf i (R120, R124); the single leaf has the code "0" (R122). -/
def codeTable (a : List Node) (root n : Nat) : List Code :=
  if n = 1 then [codeRecord (nodeOf a 0).sym [false]]
  else (List.range n).map (fun i => codeRecord (nodeOf a i).sym (pathTo a root a.length i))

/-- The entry of symbol `c` among the entries from index `i` on (R128, R135); it is unique in a table that BUILD made. -/
def entryFrom (c : Symbol) (i : Nat) : List Code → Option Nat
  | [] => none
  | r :: rest => if r.sym = c then some i else entryFrom c (i + 1) rest

/-- The entry i < NSYM with CT[i].sym = c (R128). -/
def entryOf (s : State) (c : Symbol) : Option Nat := entryFrom c 0 (cells freeCode s.ct s.nsym)

/-- RDCS x (R125). -/
def execRdcs (x : Nat) (s : State) : Result := readEntry x (fun r => r.sym.setWidth 28) s

/-- RDCL x (R126). -/
def execRdcl (x : Nat) (s : State) : Result := readEntry x (fun r => r.len.setWidth 28) s

/-- RDCB e, k: the spec's `i` and `k` (R127). -/
def execRdcb (e k : Nat) (s : State) : Result :=
  withTree s (withIndex e s.nsym s (withIndex k (ctAt s e).len.toNat s
    (answer .ok (dataOfNat (bitNat (codeBit e (ctAt s e) k))) s)))

/-- LKUP c (R128). -/
def execLkup (c : Symbol) (s : State) : Result :=
  withTree s
    (match entryOf s c with
     | some i => answer .ok (dataOfNat i) s
     | none => fail .enosym s)

end Sys2Proof.Machine
end

