-- ==== Sys2Proof/Machine/Encoder.lean ====
section
/-! DEFINITION. The Encoder unit, ENC, the command BUILD that runs FC, TB, CG and ENC in a row, and RDOB (43_encoder.md). -/

namespace Sys2Proof.Machine

/-- ENC: the codes of the characters, concatenated in order; `none` where a character has no entry (R135, R136). -/
def encodeText (ct : List Code) : List Symbol → Option (List Bit)
  | [] => some []
  | c :: cs =>
    match entryFrom c 0 ct with
    | none => none
    | some i =>
      match encodeText ct cs with
      | none => none
      | some e => some (codeBits i (cell freeCode ct i) ++ e)

/-- The phrase has no content to build a tree from: PLEN = 0, or every character is whitespace (R137 step 1, R177). -/
def blankPhrase (P : Config.Params) (s : State) : Bool :=
  decide (s.plen = 0) || (phraseOf s).all P.ws

/-- BUILD for any admissible parameters (R137): the checks in the order of R139 and R186, the working copies, and the
commit all at once (R138). -/
def buildAndEncode (P : Config.Params) (s : State) : Result :=
  if blankPhrase P s then fail .eempty s
  else
    match frequencyTable P.nsymMax (phraseOf s) with
    | none => fail .ecap s
    | some ft =>
      let nodes := buildTree ft
      let root := rootOf ft.length
      let codes := codeTable nodes root ft.length
      match encodeText codes (phraseOf s) with
      | none => .fault .encoderNoEntry
      | some bits =>
        if P.omax < bits.length then fail .ecap s
        else
          let b : Built := { n := ft.length, nodes := nodes, root := BitVec.ofNat 13 root, codes := codes, bits := bits }
          let t := commitBuild b s
          answer .ok (dataOfNat t.olen) t

/-- BUILD (R137). -/
def execBuild (s : State) : Result := buildAndEncode Config.defaults s

/-- RDOB x (R140): no check of TVALID, since OLEN = 0 says the same. -/
def execRdob (x : Nat) (s : State) : Result :=
  withIndex x s.olen s (answer .ok (dataOfNat (bitNat (obAt s x))) s)

/-- `chr(b) = CH0 + b`, the character of a Bit (R141). -/
def chr (b : Bit) : Symbol := if b then Config.ch1 else Config.ch0

end Sys2Proof.Machine
end

