-- ==== Sys2Proof/Machine/Decoder.lean ====
section
/-! DEFINITION. The Decoder unit, DEC, and its commands BCLR, BPUT, DECODE and RDTX (44_decoder.md). -/

namespace Sys2Proof.Machine

/-- A character of the input is valid exactly when it is CH0 or CH1 (R152). -/
def validBitChar (c : Symbol) : Bool := c == Config.ch0 || c == Config.ch1

/-- `bit(ch)`, the bit value of a valid character, which is `ch[0]` (R152). -/
def bitOf (c : Symbol) : Bit := c.getLsbD 0

/-- The child the cursor moves to: left on 0, right on 1 (R154). -/
def childOf (v : Node) (b : Bit) : NodeIdx := if b then v.right else v.left

/-- WALK from the cursor `cur`: the symbols emitted and the final cursor, `none` for UnmatchedPath (R154). -/
def walk (a : List Node) (root : NodeIdx) (cur : NodeIdx) : List Symbol → Option (List Symbol × NodeIdx)
  | [] => some ([], cur)
  | c :: cs =>
    let nxt := childOf (nodeOf a cur.toNat) (bitOf c)
    if nxt = Config.nil then none
    else
      match (nodeOf a nxt.toNat).kind with
      | .leaf => (walk a root root cs).map (fun r => ((nodeOf a nxt.toNat).sym :: r.1, r.2))
      | .internal => walk a root nxt cs

/-- BCLR (R159). -/
def execBclr (s : State) : Result := answer .ok 0#28 (clearIb s)

/-- BPUT for any admissible capacity (R160). -/
def inputPut (P : Config.Params) (c : Symbol) (s : State) : Result :=
  if s.ilen = P.imax then fail .ecap s
  else
    let t := appendIb c s
    answer .ok (dataOfNat t.ilen) t

/-- BPUT c (R160). -/
def execBput (c : Symbol) (s : State) : Result := inputPut Config.defaults c s

/-- The decoded text is stored and its length answered (R161). -/
def answerDecoded (t : List Symbol) (trunc : Bool) (s : State) : Result :=
  answer .ok (dataOfNat t.length) (setDecoded t trunc s)

/-- DECODE (R161): the checks in the order of R151, the single-leaf case (R153), the walk (R154), DTRUNC (R157). -/
def execDecode (s : State) : Result :=
  withTree s
    (if !(inputOf s).all validBitChar then fail .einvbin (clearDecoded s)
     else
       match (nodeAt s s.root.toNat).kind with
       | .leaf => answerDecoded (List.replicate s.ilen (nodeAt s s.root.toNat).sym) false s
       | .internal =>
         match walk s.node s.root s.root (inputOf s) with
         | none => fail .enomatch (clearDecoded s)
         | some (t, cur) => answerDecoded t (decide (cur ≠ s.root)) s)

/-- RDTX x (R162): TB is not tied to the tree, so no check of TVALID. -/
def execRdtx (x : Nat) (s : State) : Result :=
  withIndex x s.tlen s (answer .ok ((tbAt s x).setWidth 28) s)

end Sys2Proof.Machine
end

