-- ==== Sys2Proof/Machine/System.lean ====
section
/-! DEFINITION. The system commands NOP and RDCR (45_system.md). -/

namespace Sys2Proof.Machine

/-- NOP (R170). -/
def execNop (s : State) : Result := answer .ok 0#28 s

/-- The eight control registers; no other number exists (10_state.md R30, 45_system.md R171). -/
def controlRegister (s : State) (x : Nat) : Option Data :=
  match x with
  | 0 => some (statusData s)
  | 1 => some (dataOfNat s.plen)
  | 2 => some (dataOfNat s.ilen)
  | 3 => some (dataOfNat s.nsym)
  | 4 => some (dataOfNat s.nnode)
  | 5 => some (s.root.setWidth 28)
  | 6 => some (dataOfNat s.olen)
  | 7 => some (dataOfNat s.tlen)
  | _ => none

/-- RDCR x (R171). -/
def execRdcr (x : Nat) (s : State) : Result :=
  match controlRegister s x with
  | some v => answer .ok v s
  | none => fail .eidx s

end Sys2Proof.Machine
end

