-- ==== Sys2Proof/Machine/Dispatch.lean ====
section
/-! DEFINITION. One arm per command of HLC-1, in the order of 30_encoding.md R75. -/

namespace Sys2Proof.Machine

def exec (i : Instr) (s : State) : Host.Outcome State Fault Refusal :=
  match i with
  | .nop => Sys2Proof.Machine.execNop s
  | .rdcr x => Sys2Proof.Machine.execRdcr x s
  | .pclr => Sys2Proof.Machine.execPclr s
  | .pput c => Sys2Proof.Machine.execPput c s
  | .build => Sys2Proof.Machine.execBuild s
  | .bclr => Sys2Proof.Machine.execBclr s
  | .bput c => Sys2Proof.Machine.execBput c s
  | .decode => Sys2Proof.Machine.execDecode s
  | .rdnk x => Sys2Proof.Machine.execRdnk x s
  | .rdnf x => Sys2Proof.Machine.execRdnf x s
  | .rdnl x => Sys2Proof.Machine.execRdnl x s
  | .rdnr x => Sys2Proof.Machine.execRdnr x s
  | .rdcs x => Sys2Proof.Machine.execRdcs x s
  | .rdcl x => Sys2Proof.Machine.execRdcl x s
  | .rdcb e k => Sys2Proof.Machine.execRdcb e k s
  | .lkup c => Sys2Proof.Machine.execLkup c s
  | .rdob x => Sys2Proof.Machine.execRdob x s
  | .rdtx x => Sys2Proof.Machine.execRdtx x s

end Sys2Proof.Machine
end

