-- ==== Sys2Proof/Machine/Step.lean ====
section
/-! DEFINITION. One step of the machine: the core takes what the host sends next and runs it to completion
(00_scope.md R7, 20_memory.md R58). -/

namespace Sys2Proof.Machine

/-- One atomic step.  With nothing from the host the core waits, unchanged (DESIGN CHOICE, safe, log entry 3); on reset it enters the reset
state (R195); a command word is decoded before anything else (R186) and runs, or is illegal (R76). -/
def step (s : State) : Host.Outcome State Fault Refusal :=
  match nextEvent s with
  | none => .next s
  | some (.reset, t) => .next (applyReset t)
  | some (.command w, t) =>
    match decode w with
    | .command i => exec i t
    | .illegal _ => illegalCommand t

/-- `s` with the command word of the bits `w` (bits at and above `nbits` zero) as what the host sends next
(DESIGN CHOICE, safe, log entry 4). -/
def State.withFetchWord (s : State) (nbits w : Nat) : State :=
  { s with cmds := .command (BitVec.ofNat 32 (w % 2 ^ nbits)) :: s.cmds }

end Sys2Proof.Machine
end

