-- ==== Sys2Proof/Safety.lean ====
section
/-! DEFINITION. The terms claims are made in: what a good state is (10_state.md R36 and the ranges of R20), and what BUILD
computes, said without saying how (40_frequency_counter.md R90, R91; 41_tree_builder.md R101 to R107;
42_code_table_generator.md R122, R124; 43_encoder.md R135). -/

namespace Sys2Proof.Safety

open Sys2Proof.Machine

/-- The children of one node: none of a Leaf, two of an Internal node (R25). -/
def childrenOf (d : Node) : List Nat :=
  match d.kind with
  | .leaf => []
  | .internal => [d.left.toNat, d.right.toNat]

/-- All children of the nodes of an arena, with repeats. -/
def childList (a : List Node) : List Nat := a.flatMap childrenOf

/-- The node reached from `v` by a sequence of steps, 0 to the left child and 1 to the right; a Leaf and NIL lead nowhere. -/
def follow (a : List Node) (v : Nat) : List Bit → Option Nat
  | [] => some v
  | b :: bs =>
    match (nodeOf a v).kind with
    | .leaf => none
    | .internal =>
      if childOf (nodeOf a v) b = Config.nil then none
      else follow a (childOf (nodeOf a v) b).toNat bs

/-- The sum of `f i` over i < n. -/
def sumTo (n : Nat) (f : Nat → Nat) : Nat := ((List.range n).map f).sum

/-! ### Responses and sequences of commands -/

/-- `s` with one more response word given, and nothing else changed. -/
def given (r : Word) (s : State) : State := { s with rsps := s.rsps ++ [r] }

/-- Bits 31:28 of a response word, the status (30_encoding.md R73). -/
def statusOf (r : Word) : Nat := r.toNat / 2 ^ 28

/-- Bits 27:0 of a response word, the data (R73). -/
def dataOf (r : Word) : Nat := r.toNat % 2 ^ 28

/-- The state after a list of commands run in order; `none` where one does not end in a next state. -/
def execAll : List Instr → State → Option State
  | [], s => some s
  | i :: is, s =>
    match exec i s with
    | .next t => execAll is t
    | .fault _ => none
    | .refused _ => none

/-! ### What BUILD computes -/

/-- Nodes 0 to n − 1 are the Leaves of the distinct symbols of `p`, in order of first occurrence, each with its count
(R90, R91, R101). -/
structure LeavesOf (p : List Symbol) (n : Nat) (a : List Node) : Prop where
  distinct : n = p.dedup.length
  leaf : ∀ i < n, (nodeOf a i).kind = .leaf ∧ (nodeOf a i).left = Config.nil ∧ (nodeOf a i).right = Config.nil
  occurs : ∀ i < n, (nodeOf a i).sym ∈ p
  count : ∀ i < n, (nodeOf a i).freq.toNat = p.count (nodeOf a i).sym
  order : ∀ i j, i < j → j < n → p.idxOf (nodeOf a i).sym < p.idxOf (nodeOf a j).sym

/-- `v` is in Q when the Internal node `i` is about to be made: it is there already and no Internal node before `i` has
taken it (R107). -/
def InQueue (a : List Node) (n i v : Nat) : Prop :=
  v < i ∧ ∀ j, n ≤ j → j < i → (nodeOf a j).left.toNat ≠ v ∧ (nodeOf a j).right.toNat ≠ v

/-- Every node from index n on is the Internal node of one merge: left is the node of highest priority in Q, right the
node of highest priority in the rest, and freq is the exact sum (R107, R110). -/
structure MergesOf (n : Nat) (a : List Node) : Prop where
  internal : ∀ i, n ≤ i → i < a.length → (nodeOf a i).kind = .internal ∧ (nodeOf a i).sym = 0#16
  freq : ∀ i, n ≤ i → i < a.length → (nodeOf a i).freq.toNat =
    (nodeOf a (nodeOf a i).left.toNat).freq.toNat + (nodeOf a (nodeOf a i).right.toNat).freq.toNat
  queued : ∀ i, n ≤ i → i < a.length →
    InQueue a n i (nodeOf a i).left.toNat ∧ InQueue a n i (nodeOf a i).right.toNat
  first : ∀ i, n ≤ i → i < a.length → ∀ v, InQueue a n i v → v ≠ (nodeOf a i).left.toNat →
    higherPriority a (nodeOf a i).left.toNat v = true
  second : ∀ i, n ≤ i → i < a.length → ∀ v, InQueue a n i v → v ≠ (nodeOf a i).left.toNat →
    v ≠ (nodeOf a i).right.toNat → higherPriority a (nodeOf a i).right.toNat v = true
  apart : ∀ i, n ≤ i → i < a.length → (nodeOf a i).left ≠ (nodeOf a i).right

/-- Entry i is the code of Leaf i: the path from the root, the last node, to it; or "0" for a single leaf (R122, R124). -/
structure CodesOf (n : Nat) (a : List Node) (ct : List Code) : Prop where
  length : ct.length = n
  sym : ∀ i < n, (cell freeCode ct i).sym = (nodeOf a i).sym
  len : ∀ i < n, (cell freeCode ct i).bits.length = (cell freeCode ct i).len.toNat
  path : n ≠ 1 → ∀ i < n, follow a (a.length - 1) (cell freeCode ct i).bits = some i
  single : n = 1 → (cell freeCode ct 0).bits = [false]

/-- The bits are the codes of the characters of `p`, concatenated in order (R135). -/
def EncodingOf (p : List Symbol) (ct : List Code) (e : List Bit) : Prop :=
  ∃ code : Symbol → List Bit, (∀ i < ct.length, code (cell freeCode ct i).sym = (cell freeCode ct i).bits) ∧
    e = p.flatMap code

/-- The tree, the code table and the encoding of a phrase. -/
structure Huffman (p : List Symbol) (a : List Node) (ct : List Code) (e : List Bit) : Prop where
  leaves : LeavesOf p ct.length a
  size : a.length = 2 * ct.length - 1
  merges : MergesOf ct.length a
  codes : CodesOf ct.length a ct
  encoding : EncodingOf p ct e

/-! ### Good states -/

/-- The code that entry `i` of the code table holds. -/
def codeAt (s : State) (i : Nat) : List Bit := codeBits i (ctAt s i)

/-- What holds of the retained tree and code table when TVALID = 1 (R36), with the fillers of R25. -/
structure TreeInv (P : Config.Params) (s : State) : Prop where
  /-- (a) -/
  nsym_pos : 1 ≤ s.nsym
  nsym_le : s.nsym ≤ P.nsymMax
  nnode_eq : s.nnode = 2 * s.nsym - 1
  root_eq : s.root.toNat = s.nnode - 1
  /-- (b) and the fillers of a Leaf -/
  leaf : ∀ i < s.nsym, (nodeAt s i).kind = .leaf ∧ (nodeAt s i).left = Config.nil ∧ (nodeAt s i).right = Config.nil
  internal : ∀ i, s.nsym ≤ i → i < s.nnode → (nodeAt s i).kind = .internal ∧ (nodeAt s i).sym = 0#16
  /-- (c) -/
  sym_ne : ∀ i j, i < j → j < s.nsym → (nodeAt s i).sym ≠ (nodeAt s j).sym
  /-- (d) -/
  child_lt : ∀ i, s.nsym ≤ i → i < s.nnode → (nodeAt s i).left.toNat < i ∧ (nodeAt s i).right.toNat < i
  child_ne : ∀ i, s.nsym ≤ i → i < s.nnode → (nodeAt s i).left ≠ (nodeAt s i).right ∧
    (nodeAt s i).left ≠ Config.nil ∧ (nodeAt s i).right ≠ Config.nil
  freq_sum : ∀ i, s.nsym ≤ i → i < s.nnode → (nodeAt s i).freq.toNat =
    (nodeAt s (nodeAt s i).left.toNat).freq.toNat + (nodeAt s (nodeAt s i).right.toNat).freq.toNat
  /-- (e) -/
  owned : ∀ v < s.nnode, (childList s.node).count v = if v = s.root.toNat then 0 else 1
  /-- (f), for the phrase that was built: its length is the sum of the counts -/
  root_freq : (nodeAt s s.root.toNat).freq.toNat = sumTo s.nsym (fun i => (nodeAt s i).freq.toNat)
  /-- (g) -/
  leaf_freq : ∀ i < s.nsym, 1 ≤ (nodeAt s i).freq.toNat
  /-- (h) -/
  code_sym : ∀ i < s.nsym, (ctAt s i).sym = (nodeAt s i).sym
  code_path : s.nsym ≠ 1 → ∀ i < s.nsym, follow s.node s.root.toNat (codeAt s i) = some i
  code_single : s.nsym = 1 → codeAt s 0 = [false]
  /-- (i) -/
  code_free : ∀ i < s.nsym, ∀ j < s.nsym, i ≠ j → ¬ codeAt s i <+: codeAt s j
  /-- (j) -/
  olen_eq : s.olen = sumTo s.nsym (fun i => (nodeAt s i).freq.toNat * (ctAt s i).len.toNat)

/-- What holds of the scalars when TVALID = 0 (R36, R158). -/
def NoTree (s : State) : Prop :=
  s.nsym = 0 ∧ s.nnode = 0 ∧ s.root = 0#13 ∧ s.olen = 0 ∧ s.tlen = 0 ∧ s.dtrunc = false

/-- A good state: canonical memories, lengths within the capacities (R20, R28), and R36. -/
structure Inv (P : Config.Params) (s : State) : Prop where
  wf : Memory.wf s = true
  plen_le : s.plen ≤ P.pmax
  ilen_le : s.ilen ≤ P.imax
  tlen_le : s.tlen ≤ P.imax
  olen_le : s.olen ≤ P.omax
  tree : s.tvalid = true → TreeInv P s
  noTree : s.tvalid = false → NoTree s

/-- A run is safe when it reaches a next state that is good: no fault, no refusal (R175). -/
def SafeOutcome (P : Config.Params) (r : Result) : Prop := ∃ t, r = .next t ∧ Inv P t

end Sys2Proof.Safety
end

