-- ==== Sys2Proof/Certificates/Slice0/Obligations.lean ====
section
/-! DEFINITION. The statements for the provers, each from the numbered rules of spec/.

`given r s` is `s` with the response word `r` given and nothing else changed; so a conclusion `exec i s = .next (given r s)`
says the whole next state: every element of every space, every scalar and every flag is as it was.  Response words are
written as the numbers 60_exceptions.md R176 gives them.  Where a statement names `cmds` or `rsps`, the host's two word
streams, it speaks of the model's own fields (log entries 1 and 2). -/

open Sys2Proof Sys2Proof.Machine Sys2Proof.Safety

/-! ### Command words -/

/-- Words of every family, written out from the tables of 30_encoding.md R71 and R75 (95_test_vectors.md V10, V11, V19). -/
def Obligations.SampleWordsDecode : Prop :=
  decode 0x00000000#32 = .command .nop ∧ decode 0x01FFFFFF#32 = .command (.rdcr 0xFFFFFF) ∧
  decode 0x10000000#32 = .command .pclr ∧ decode 0x11000061#32 = .command (.pput 0x0061#16) ∧
  decode 0x12000000#32 = .command .build ∧ decode 0x20000000#32 = .command .bclr ∧
  decode 0x21000031#32 = .command (.bput 0x0031#16) ∧ decode 0x22000000#32 = .command .decode ∧
  decode 0x30000004#32 = .command (.rdnk 4) ∧ decode 0x33000003#32 = .command (.rdnr 3) ∧
  decode 0x42001001#32 = .command (.rdcb 1 1) ∧ decode 0x42FFFFFF#32 = .command (.rdcb 4095 4095) ∧
  decode 0x4300007A#32 = .command (.lkup 0x007A#16) ∧ decode 0x50FFFFFF#32 = .command (.rdob 0xFFFFFF) ∧
  decode 0x51000001#32 = .command (.rdtx 1) ∧ decode 0x00000001#32 = .illegal .operandNotZero ∧
  decode 0x02000000#32 = .illegal .unknownOpcode ∧ decode 0x11010061#32 = .illegal .upperByteNotZero

/-- A step runs the decoded command: the word is taken off the host's stream, the command is well formed, and the step is
`exec` of it (00_scope.md R7, 20_memory.md R58). -/
def Obligations.StepRunsTheDecodedCommand : Prop :=
  ∀ (s : State) (w : Word) (rest : List HostEvent) (i : Instr), s.cmds = .command w :: rest → decode w = .command i →
    i.wellFormed = true ∧ step s = exec i { s with cmds := rest }

/-- 30_encoding.md R76, 60_exceptions.md R183: which words are illegal, that the rows of R75 are disjoint, and what an
illegal word does. -/
def Obligations.IllegalWordsAnswerEill : Prop :=
  (∀ w : Word, (∃ r, decode w = .illegal r) ↔
    (opField w).toNat ∉ [0x00, 0x01, 0x10, 0x11, 0x12, 0x20, 0x21, 0x22, 0x30, 0x31, 0x32, 0x33, 0x40, 0x41, 0x42, 0x43,
      0x50, 0x51] ∨
    ((opField w).toNat ∈ [0x00, 0x10, 0x12, 0x20, 0x22] ∧ w.extractLsb' 0 24 ≠ 0#24) ∨
    ((opField w).toNat ∈ [0x11, 0x21, 0x43] ∧ w.extractLsb' 16 8 ≠ 0#8)) ∧
  (∀ w : Word, (∃ r, decode w = .illegal r) ↔ ∀ row ∈ opcodeMap, w &&& row.mask ≠ row.pat) ∧
  (∀ w : Word, ∀ row ∈ opcodeMap, ∀ row' ∈ opcodeMap, w &&& row.mask = row.pat → w &&& row'.mask = row'.pat →
    row = row') ∧
  (∀ (s : State) (w : Word) (rest : List HostEvent) (r : Illegal), s.cmds = .command w :: rest →
    decode w = .illegal r → step s = .next (given 0x70000000#32 { s with cmds := rest }))

/-- The columns `match` and `mask` of R75 select the command. -/
def Obligations.OpcodeMapSelectsTheCommand : Prop :=
  ∀ (w : Word), ∀ row ∈ opcodeMap,
    (w &&& row.mask = row.pat ↔ ∃ i, decode w = .command i ∧ i.mnemonic = row.mnemonic)

/-- Decoding the word of a well-formed command gives the command, with every operand at every value its field admits. -/
def Obligations.DecodeOfEncode : Prop :=
  ∀ i : Instr, i.wellFormed = true → decode (encode i) = .command i

/-- A word that decodes is the word of the command it decodes to, and the command is well formed. -/
def Obligations.EncodeOfDecode : Prop :=
  ∀ (w : Word) (i : Instr), decode w = .command i → i.wellFormed = true ∧ encode i = w

/-! ### Responses -/

/-- 30_encoding.md R73: every command word, legal or not, produces exactly one response word; its status is one of the nine
codes, and its data is 0 when the status is not OK. -/
def Obligations.OneResponsePerCommand : Prop :=
  ∀ (s : State) (w : Word) (rest : List HostEvent), s.cmds = .command w :: rest →
    ∃ t r, step s = .next t ∧ t.cmds = rest ∧ t.rsps = s.rsps ++ [r] ∧ statusOf r ≤ 8 ∧
      (statusOf r ≠ 0 → dataOf r = 0)

/-- 60_exceptions.md R175: no error stops, hangs or resets the core; no event of the host does. -/
def Obligations.NothingStopsTheCore : Prop :=
  (∀ s : State, ∃ t, step s = .next t) ∧ (∀ (i : Instr) (s : State), ∃ t, exec i s = .next t)

/-- 60_exceptions.md R185: the state effects of each error, complete. -/
def Obligations.ErrorsWriteOnlyWhatIsListed : Prop :=
  (∀ (i : Instr) (s : State), ∃ t r, exec i s = .next t ∧ t.rsps = s.rsps ++ [r] ∧
    (statusOf r ≠ 0 → ¬ (i = .decode ∧ (statusOf r = 3 ∨ statusOf r = 4)) → t = given r s) ∧
    (i = .decode → (statusOf r = 3 ∨ statusOf r = 4) →
      t = given r { s with tb := t.tb, tlen := 0, dtrunc := false })) ∧
  (∀ (s : State) (w : Word) (rest : List HostEvent) (r : Illegal), s.cmds = .command w :: rest →
    decode w = .illegal r → step s = .next (given 0x70000000#32 { s with cmds := rest }))

/-- 60_exceptions.md R176, the column `raised by`: which commands answer which error. -/
def Obligations.ErrorsAreRaisedByTheirCommands : Prop :=
  ∀ (i : Instr) (s t : State) (r : Word), exec i s = .next t → t.rsps = s.rsps ++ [r] →
    (statusOf r = 1 → i.mnemonic = "BUILD") ∧
    (statusOf r = 2 → i.mnemonic ∈ ["DECODE", "RDNK", "RDNF", "RDNL", "RDNR", "RDCS", "RDCL", "RDCB", "LKUP"]) ∧
    (statusOf r = 3 → i.mnemonic = "DECODE") ∧ (statusOf r = 4 → i.mnemonic = "DECODE") ∧
    (statusOf r = 5 → i.mnemonic ∈ ["PPUT", "BPUT", "BUILD"]) ∧
    (statusOf r = 6 → i.mnemonic ∈ ["RDCR", "RDNK", "RDNF", "RDNL", "RDNR", "RDCS", "RDCL", "RDCB", "RDOB", "RDTX"]) ∧
    statusOf r ≠ 7 ∧ (statusOf r = 8 → i.mnemonic = "LKUP")

/-! ### System commands -/

/-- 45_system.md R170. -/
def Obligations.NopDoesNothing : Prop :=
  (∀ w : Word, decode w = .command .nop ↔ w = 0x00000000#32) ∧
  (∀ s : State, exec .nop s = .next (given 0x00000000#32 s))

/-- 45_system.md R171, with STATUS of 10_state.md R31.  The scalars are within the ranges R20 gives them. -/
def Obligations.RdcrReadsTheControlRegister : Prop :=
  (∀ (w : Word) (x : Nat), decode w = .command (.rdcr x) ↔ x < 2 ^ 24 ∧ w.toNat = 0x01000000 + x) ∧
  (∀ (s : State) (x : Nat), 7 < x → exec (.rdcr x) s = .next (given 0x60000000#32 s)) ∧
  (∀ s : State, Inv Config.defaults s →
    exec (.rdcr 0) s = .next (given (BitVec.ofNat 32 (bitNat s.dtrunc * 2 + bitNat s.tvalid)) s) ∧
    exec (.rdcr 1) s = .next (given (BitVec.ofNat 32 s.plen) s) ∧
    exec (.rdcr 2) s = .next (given (BitVec.ofNat 32 s.ilen) s) ∧
    exec (.rdcr 3) s = .next (given (BitVec.ofNat 32 s.nsym) s) ∧
    exec (.rdcr 4) s = .next (given (BitVec.ofNat 32 s.nnode) s) ∧
    exec (.rdcr 5) s = .next (given (BitVec.ofNat 32 s.root.toNat) s) ∧
    exec (.rdcr 6) s = .next (given (BitVec.ofNat 32 s.olen) s) ∧
    exec (.rdcr 7) s = .next (given (BitVec.ofNat 32 s.tlen) s)) ∧
  (∀ s : State, Inv Config.defaults s → s.tvalid = false →
    exec (.rdcr 3) s = .next (given 0x00000000#32 s) ∧ exec (.rdcr 4) s = .next (given 0x00000000#32 s) ∧
    exec (.rdcr 5) s = .next (given 0x00000000#32 s) ∧ exec (.rdcr 6) s = .next (given 0x00000000#32 s))

/-! ### The two input buffers -/

/-- 40_frequency_counter.md R93: PB has no readable element left. -/
def Obligations.PclrEmptiesThePhraseBuffer : Prop :=
  (∀ w : Word, decode w = .command .pclr ↔ w = 0x10000000#32) ∧
  (∀ s : State, ∃ t, exec .pclr s = .next t ∧ t = given 0x00000000#32 { s with pb := t.pb, plen := 0 } ∧
    phraseOf t = [])

/-- 40_frequency_counter.md R94. -/
def Obligations.PputAppendsOneCharacter : Prop :=
  (∀ (w : Word) (c : Symbol), decode w = .command (.pput c) ↔ w.toNat = 0x11000000 + c.toNat) ∧
  (∀ (s : State) (c : Symbol), s.plen = Config.defaults.pmax → exec (.pput c) s = .next (given 0x50000000#32 s)) ∧
  (∀ (s : State) (c : Symbol), s.plen < Config.defaults.pmax → ∃ t, exec (.pput c) s = .next t ∧
    t = given (BitVec.ofNat 32 (s.plen + 1)) { s with pb := t.pb, plen := s.plen + 1 } ∧
    pbAt t s.plen = c ∧ ∀ j < s.plen, pbAt t j = pbAt s j)

/-- 44_decoder.md R159: IB has no readable element left. -/
def Obligations.BclrEmptiesTheInputBuffer : Prop :=
  (∀ w : Word, decode w = .command .bclr ↔ w = 0x20000000#32) ∧
  (∀ s : State, ∃ t, exec .bclr s = .next t ∧ t = given 0x00000000#32 { s with ib := t.ib, ilen := 0 } ∧
    inputOf t = [])

/-- 44_decoder.md R160: any character is accepted, with or without a tree. -/
def Obligations.BputAppendsOneCharacter : Prop :=
  (∀ (w : Word) (c : Symbol), decode w = .command (.bput c) ↔ w.toNat = 0x21000000 + c.toNat) ∧
  (∀ (s : State) (c : Symbol), s.ilen = Config.defaults.imax → exec (.bput c) s = .next (given 0x50000000#32 s)) ∧
  (∀ (s : State) (c : Symbol), s.ilen < Config.defaults.imax → ∃ t, exec (.bput c) s = .next t ∧
    t = given (BitVec.ofNat 32 (s.ilen + 1)) { s with ib := t.ib, ilen := s.ilen + 1 } ∧
    ibAt t s.ilen = c ∧ ∀ j < s.ilen, ibAt t j = ibAt s j)

/-- PMAX and IMAX are open parameters (00_scope.md R9, 60_exceptions.md R181): for every admissible value PPUT and BPUT
answer ECAP with nothing changed at the capacity, and below it append.  That the machine runs PPUT, BPUT and BUILD with the
default parameters, the first clause, is the model's choice (DESIGN CHOICE, log entry 5).  The capacities that BUILD meets,
NSYM_MAX and OMAX, are in BuildWritesTheHuffmanCode and BuildCapacityBounds. -/
def Obligations.CapacitiesAreParameters : Prop :=
  (∀ (c : Symbol) (s : State), exec (.pput c) s = phrasePut Config.defaults c s ∧
    exec (.bput c) s = inputPut Config.defaults c s ∧ exec .build s = buildAndEncode Config.defaults s) ∧
  ∀ P : Config.Params, P.Admissible → ∀ (c : Symbol) (s : State),
    (s.plen = P.pmax → phrasePut P c s = .next (given 0x50000000#32 s)) ∧
    (s.plen < P.pmax → ∃ t, phrasePut P c s = .next t ∧
      t = given (BitVec.ofNat 32 (s.plen + 1)) { s with pb := t.pb, plen := s.plen + 1 } ∧
      phraseOf t = phraseOf s ++ [c]) ∧
    (s.ilen = P.imax → inputPut P c s = .next (given 0x50000000#32 s)) ∧
    (s.ilen < P.imax → ∃ t, inputPut P c s = .next t ∧
      t = given (BitVec.ofNat 32 (s.ilen + 1)) { s with ib := t.ib, ilen := s.ilen + 1 } ∧
      inputOf t = inputOf s ++ [c])

/-! ### The node arena -/

/-- 41_tree_builder.md R112. -/
def Obligations.RdnkReadsKindAndSymbol : Prop :=
  (∀ (w : Word) (x : Nat), decode w = .command (.rdnk x) ↔ x < 2 ^ 24 ∧ w.toNat = 0x30000000 + x) ∧
  (∀ (s : State) (x : Nat), s.tvalid = false → exec (.rdnk x) s = .next (given 0x20000000#32 s)) ∧
  (∀ (s : State) (x : Nat), s.tvalid = true → s.nnode ≤ x → exec (.rdnk x) s = .next (given 0x60000000#32 s)) ∧
  (∀ (s : State) (x : Nat), s.tvalid = true → x < s.nnode → exec (.rdnk x) s =
    .next (given (BitVec.ofNat 32 (kindNat (nodeAt s x).kind * 0x10000 + (nodeAt s x).sym.toNat)) s)) ∧
  (∀ (s : State) (x : Nat), Inv Config.defaults s → s.tvalid = true → s.nsym ≤ x → x < s.nnode →
    exec (.rdnk x) s = .next (given 0x00010000#32 s)) ∧
  (∀ (s : State) (x : Nat), Inv Config.defaults s → s.tvalid = true → x < s.nsym →
    exec (.rdnk x) s = .next (given (BitVec.ofNat 32 (nodeAt s x).sym.toNat) s))

/-- 41_tree_builder.md R113; at ROOT the answer is the length of the phrase that was built. -/
def Obligations.RdnfReadsTheFrequency : Prop :=
  (∀ (w : Word) (x : Nat), decode w = .command (.rdnf x) ↔ x < 2 ^ 24 ∧ w.toNat = 0x31000000 + x) ∧
  (∀ (s : State) (x : Nat), s.tvalid = false → exec (.rdnf x) s = .next (given 0x20000000#32 s)) ∧
  (∀ (s : State) (x : Nat), s.tvalid = true → s.nnode ≤ x → exec (.rdnf x) s = .next (given 0x60000000#32 s)) ∧
  (∀ (s : State) (x : Nat), s.tvalid = true → x < s.nnode →
    exec (.rdnf x) s = .next (given (BitVec.ofNat 32 (nodeAt s x).freq.toNat) s)) ∧
  (∀ (s t : State) (r : Word), Inv Config.defaults s → exec .build s = .next t → t.rsps = s.rsps ++ [r] → statusOf r = 0 →
    exec (.rdnf t.root.toNat) t = .next (given (BitVec.ofNat 32 s.plen) t))

/-- 41_tree_builder.md R114. -/
def Obligations.RdnlReadsTheLeftChild : Prop :=
  (∀ (w : Word) (x : Nat), decode w = .command (.rdnl x) ↔ x < 2 ^ 24 ∧ w.toNat = 0x32000000 + x) ∧
  (∀ (s : State) (x : Nat), s.tvalid = false → exec (.rdnl x) s = .next (given 0x20000000#32 s)) ∧
  (∀ (s : State) (x : Nat), s.tvalid = true → s.nnode ≤ x → exec (.rdnl x) s = .next (given 0x60000000#32 s)) ∧
  (∀ (s : State) (x : Nat), s.tvalid = true → x < s.nnode →
    exec (.rdnl x) s = .next (given (BitVec.ofNat 32 (nodeAt s x).left.toNat) s)) ∧
  (∀ (s : State) (x : Nat), Inv Config.defaults s → s.tvalid = true → x < s.nsym →
    exec (.rdnl x) s = .next (given 0x00001FFF#32 s))

/-- 41_tree_builder.md R115. -/
def Obligations.RdnrReadsTheRightChild : Prop :=
  (∀ (w : Word) (x : Nat), decode w = .command (.rdnr x) ↔ x < 2 ^ 24 ∧ w.toNat = 0x33000000 + x) ∧
  (∀ (s : State) (x : Nat), s.tvalid = false → exec (.rdnr x) s = .next (given 0x20000000#32 s)) ∧
  (∀ (s : State) (x : Nat), s.tvalid = true → s.nnode ≤ x → exec (.rdnr x) s = .next (given 0x60000000#32 s)) ∧
  (∀ (s : State) (x : Nat), s.tvalid = true → x < s.nnode →
    exec (.rdnr x) s = .next (given (BitVec.ofNat 32 (nodeAt s x).right.toNat) s)) ∧
  (∀ (s : State) (x : Nat), Inv Config.defaults s → s.tvalid = true → x < s.nsym →
    exec (.rdnr x) s = .next (given 0x00001FFF#32 s))

/-- 41_tree_builder.md R103 and R104: the five comparator rules, each on any two nodes of an arena. -/
def Obligations.ComparatorRules : Prop :=
  ∀ (a : List Node) (x y : Nat),
    ((nodeOf a x).freq.toNat < (nodeOf a y).freq.toNat → higherPriority a x y = true ∧ higherPriority a y x = false) ∧
    ((nodeOf a x).freq = (nodeOf a y).freq → (nodeOf a x).kind = .leaf → (nodeOf a x).sym = Config.space →
      ((nodeOf a y).kind = .internal ∨ (nodeOf a y).sym ≠ Config.space) →
      higherPriority a x y = true ∧ higherPriority a y x = false) ∧
    ((nodeOf a x).freq = (nodeOf a y).freq → (nodeOf a x).kind = .leaf → (nodeOf a y).kind = .leaf →
      (nodeOf a x).sym ≠ Config.space → (nodeOf a y).sym ≠ Config.space →
      (nodeOf a x).sym.toNat < (nodeOf a y).sym.toNat → higherPriority a x y = true ∧ higherPriority a y x = false) ∧
    ((nodeOf a x).freq = (nodeOf a y).freq → (nodeOf a x).kind = .leaf → (nodeOf a y).kind = .internal →
      higherPriority a x y = true ∧ higherPriority a y x = false) ∧
    ((nodeOf a x).freq = (nodeOf a y).freq → (nodeOf a x).kind = .internal → (nodeOf a y).kind = .internal → x < y →
      higherPriority a x y = true ∧ higherPriority a y x = false)

/-- 41_tree_builder.md R105: the comparator is a strict total order on the nodes of every arena of TB: Leaves first, with
symbols that differ, and then Internal nodes. -/
def Obligations.ComparatorIsAStrictTotalOrder : Prop :=
  ∀ (a : List Node) (n : Nat), (∀ i < n, (nodeOf a i).kind = .leaf) →
    (∀ i, n ≤ i → i < a.length → (nodeOf a i).kind = .internal) →
    (∀ i j, i < j → j < n → (nodeOf a i).sym ≠ (nodeOf a j).sym) →
    (∀ x < a.length, higherPriority a x x = false) ∧
    (∀ x < a.length, ∀ y < a.length, x ≠ y →
      (higherPriority a x y = true ∧ higherPriority a y x = false) ∨
      (higherPriority a y x = true ∧ higherPriority a x y = false)) ∧
    (∀ x < a.length, ∀ y < a.length, ∀ z < a.length, higherPriority a x y = true → higherPriority a y z = true →
      higherPriority a x z = true)

/-! ### The code table -/

/-- 42_code_table_generator.md R125. -/
def Obligations.RdcsReadsTheSymbol : Prop :=
  (∀ (w : Word) (x : Nat), decode w = .command (.rdcs x) ↔ x < 2 ^ 24 ∧ w.toNat = 0x40000000 + x) ∧
  (∀ (s : State) (x : Nat), s.tvalid = false → exec (.rdcs x) s = .next (given 0x20000000#32 s)) ∧
  (∀ (s : State) (x : Nat), s.tvalid = true → s.nsym ≤ x → exec (.rdcs x) s = .next (given 0x60000000#32 s)) ∧
  (∀ (s : State) (x : Nat), s.tvalid = true → x < s.nsym →
    exec (.rdcs x) s = .next (given (BitVec.ofNat 32 (ctAt s x).sym.toNat) s)) ∧
  (∀ (s : State) (x : Nat), Inv Config.defaults s → s.tvalid = true → x < s.nsym →
    exec (.rdcs x) s = .next (given (BitVec.ofNat 32 (nodeAt s x).sym.toNat) s))

/-- 42_code_table_generator.md R126; never OK, 0, and OK, 1 for a single-symbol tree (R123 (a)). -/
def Obligations.RdclReadsTheLength : Prop :=
  (∀ (w : Word) (x : Nat), decode w = .command (.rdcl x) ↔ x < 2 ^ 24 ∧ w.toNat = 0x41000000 + x) ∧
  (∀ (s : State) (x : Nat), s.tvalid = false → exec (.rdcl x) s = .next (given 0x20000000#32 s)) ∧
  (∀ (s : State) (x : Nat), s.tvalid = true → s.nsym ≤ x → exec (.rdcl x) s = .next (given 0x60000000#32 s)) ∧
  (∀ (s : State) (x : Nat), s.tvalid = true → x < s.nsym →
    exec (.rdcl x) s = .next (given (BitVec.ofNat 32 (ctAt s x).len.toNat) s)) ∧
  (∀ (s : State) (x : Nat), Inv Config.defaults s → s.tvalid = true → x < s.nsym →
    1 ≤ (ctAt s x).len.toNat ∧ (ctAt s x).len.toNat ≤ max 1 (s.nsym - 1)) ∧
  (∀ s : State, Inv Config.defaults s → s.tvalid = true → s.nsym = 1 →
    exec (.rdcl 0) s = .next (given 0x00000001#32 s))

/-- 42_code_table_generator.md R127 (`e` is the spec's `i`). -/
def Obligations.RdcbReadsOneBitOfACode : Prop :=
  (∀ (w : Word) (e k : Nat), decode w = .command (.rdcb e k) ↔
    e < 2 ^ 12 ∧ k < 2 ^ 12 ∧ w.toNat = 0x42000000 + e * 0x1000 + k) ∧
  (∀ (s : State) (e k : Nat), s.tvalid = false → exec (.rdcb e k) s = .next (given 0x20000000#32 s)) ∧
  (∀ (s : State) (e k : Nat), s.tvalid = true → (s.nsym ≤ e ∨ (ctAt s e).len.toNat ≤ k) →
    exec (.rdcb e k) s = .next (given 0x60000000#32 s)) ∧
  (∀ (s : State) (e k : Nat), s.tvalid = true → e < s.nsym → k < (ctAt s e).len.toNat → ∃ b,
    (codeAt s e)[k]? = some b ∧ exec (.rdcb e k) s = .next (given (BitVec.ofNat 32 (bitNat b)) s))

/-- 42_code_table_generator.md R128: on a good tree the entry is the unique one with the symbol. -/
def Obligations.LkupFindsTheEntry : Prop :=
  (∀ (w : Word) (c : Symbol), decode w = .command (.lkup c) ↔ w.toNat = 0x43000000 + c.toNat) ∧
  (∀ (s : State) (c : Symbol), s.tvalid = false → exec (.lkup c) s = .next (given 0x20000000#32 s)) ∧
  (∀ (s : State) (c : Symbol), s.tvalid = true → (∀ i < s.nsym, (ctAt s i).sym ≠ c) →
    exec (.lkup c) s = .next (given 0x80000000#32 s)) ∧
  (∀ (s : State) (c : Symbol) (i : Nat), Inv Config.defaults s → s.tvalid = true → i < s.nsym → (ctAt s i).sym = c →
    exec (.lkup c) s = .next (given (BitVec.ofNat 32 i) s) ∧ ∀ j < s.nsym, (ctAt s j).sym = c → j = i)

/-! ### BUILD and the encoded output -/

/-- 60_exceptions.md R177: EEMPTY exactly for a phrase that is empty or whitespace-only, for every WS, and before any other
check. -/
def Obligations.BuildRefusesBlankPhrases : Prop :=
  ∀ (P : Config.Params) (s : State),
    buildAndEncode P s = .next (given 0x10000000#32 s) ↔ s.plen = 0 ∨ ∀ j < s.plen, P.ws (pbAt s j) = true

/-- 43_encoder.md R137, for every admissible value of the parameters: on a phrase that is not blank and has at most NSYM_MAX
distinct symbols, BUILD makes the tree, the code table and the encoding of the phrase; it answers ECAP and writes nothing
where the encoding is longer than OMAX, and otherwise writes exactly the retained state and answers OLEN, which is at least
PLEN, and PLEN for one distinct symbol. -/
def Obligations.BuildWritesTheHuffmanCode : Prop :=
  (∀ w : Word, decode w = .command .build ↔ w = 0x12000000#32) ∧
  (∀ s : State, exec .build s = buildAndEncode Config.defaults s) ∧
  (∀ P : Config.Params, P.Admissible → ∀ s : State, s.plen ≤ P.pmax →
    ((s.plen = 0 ∨ ∀ j < s.plen, P.ws (pbAt s j) = true) → buildAndEncode P s = .next (given 0x10000000#32 s)) ∧
    ((∃ j < s.plen, P.ws (pbAt s j) = false) → P.nsymMax < (phraseOf s).dedup.length →
      buildAndEncode P s = .next (given 0x50000000#32 s)) ∧
    ((∃ j < s.plen, P.ws (pbAt s j) = false) → (phraseOf s).dedup.length ≤ P.nsymMax →
      ∃ a ct e, Huffman (phraseOf s) a ct e ∧ s.plen ≤ e.length ∧
        ((phraseOf s).dedup.length = 1 → e.length = s.plen) ∧
        (P.omax < e.length → buildAndEncode P s = .next (given 0x50000000#32 s)) ∧
        (e.length ≤ P.omax → buildAndEncode P s = .next (given (BitVec.ofNat 32 e.length)
          { s with
            node := a
            ct := ct
            ob := e
            nsym := (phraseOf s).dedup.length
            nnode := 2 * (phraseOf s).dedup.length - 1
            root := BitVec.ofNat 13 (2 * (phraseOf s).dedup.length - 2)
            olen := e.length
            tvalid := true }))))

/-- 43_encoder.md R138: a BUILD that fails writes nothing but its response; one that succeeds replaces the retained state and
touches neither the input buffers nor the decode results. -/
def Obligations.BuildIsAllOrNothing : Prop :=
  ∀ s : State, ∃ t r, exec .build s = .next t ∧ t.rsps = s.rsps ++ [r] ∧
    (((r = 0x10000000#32 ∨ r = 0x50000000#32) ∧ t = given r s) ∨
     (statusOf r = 0 ∧ t.tvalid = true ∧
      t = given r { s with
        node := t.node
        ct := t.ct
        ob := t.ob
        nsym := t.nsym
        nnode := t.nnode
        root := t.root
        olen := t.olen
        tvalid := true }))

/-- 43_encoder.md R139, for every admissible value of the parameters: the checks of BUILD in their order, and the two bounds
within which ECAP cannot happen. -/
def Obligations.BuildCapacityBounds : Prop :=
  ∀ P : Config.Params, P.Admissible → ∀ s : State, s.plen ≤ P.pmax →
    ((s.plen = 0 ∨ ∀ j < s.plen, P.ws (pbAt s j) = true) → buildAndEncode P s = .next (given 0x10000000#32 s)) ∧
    ((∃ j < s.plen, P.ws (pbAt s j) = false) →
      (phraseOf s).dedup.length ≤ s.plen ∧
      (P.nsymMax < (phraseOf s).dedup.length → buildAndEncode P s = .next (given 0x50000000#32 s)) ∧
      ((phraseOf s).dedup.length ≤ P.nsymMax → ∃ a ct e, Huffman (phraseOf s) a ct e ∧
        e.length ≤ s.plen * max 1 ((phraseOf s).dedup.length - 1) ∧
        (P.omax < e.length → buildAndEncode P s = .next (given 0x50000000#32 s)) ∧
        (e.length ≤ P.omax → ∃ t, buildAndEncode P s = .next t ∧ t.rsps = s.rsps ++ [BitVec.ofNat 32 e.length])) ∧
      (s.plen ≤ P.nsymMax → s.plen * max 1 ((phraseOf s).dedup.length - 1) ≤ P.omax →
        ∃ t r, buildAndEncode P s = .next t ∧ t.rsps = s.rsps ++ [r] ∧ statusOf r = 0))

/-- BUILD completes on every state whose phrase the bounds of R139 cover: a good tree is held, it counts the whole phrase, and
the code table and the encoding are those of the phrase. -/
def Obligations.BuildCompletes : Prop :=
  ∀ s : State, Inv Config.defaults s → (∃ j < s.plen, Config.defaultWs (pbAt s j) = false) →
    (phraseOf s).dedup.length ≤ 256 → s.plen * max 1 ((phraseOf s).dedup.length - 1) ≤ 65536 →
    ∃ t, exec .build s = .next t ∧ t.tvalid = true ∧ t.rsps = s.rsps ++ [BitVec.ofNat 32 t.olen] ∧
      Huffman (phraseOf s) t.node t.ct t.ob ∧ t.nsym = (phraseOf s).dedup.length ∧ t.nnode = 2 * t.nsym - 1 ∧
      t.root.toNat = t.nnode - 1 ∧ (nodeAt t t.root.toNat).freq.toNat = s.plen ∧ s.plen ≤ t.olen

/-- 43_encoder.md R136: the encoder inside BUILD never meets a character with no entry, whatever the parameters and the
state, so BUILD has no fault. -/
def Obligations.EncoderAlwaysFindsAnEntry : Prop :=
  ∀ (P : Config.Params) (s : State), buildAndEncode P s ≠ .fault .encoderNoEntry ∧ ∃ t, buildAndEncode P s = .next t

/-- 41_tree_builder.md R107: at every Internal node of a tree BUILD made, the first-removed child has higher priority than the
second, so its frequency is not greater. -/
def Obligations.LeftChildHasHigherPriority : Prop :=
  ∀ (s t : State) (r : Word), Inv Config.defaults s → exec .build s = .next t → t.rsps = s.rsps ++ [r] → statusOf r = 0 →
    ∀ i, t.nsym ≤ i → i < t.nnode →
      higherPriority t.node (nodeAt t i).left.toNat (nodeAt t i).right.toNat = true ∧
      (nodeAt t (nodeAt t i).left.toNat).freq.toNat ≤ (nodeAt t (nodeAt t i).right.toNat).freq.toNat

/-- 41_tree_builder.md R111, for every admissible value of the parameters: the structure of the tree that a successful BUILD
leaves, for a phrase with n distinct symbols. -/
def Obligations.TheBuiltTree : Prop :=
  ∀ P : Config.Params, P.Admissible → ∀ (s t : State) (r : Word), s.plen ≤ P.pmax → buildAndEncode P s = .next t →
    t.rsps = s.rsps ++ [r] → statusOf r = 0 →
    t.nsym = (phraseOf s).dedup.length ∧ t.nnode = 2 * t.nsym - 1 ∧ t.node.length = t.nnode ∧
    (∀ i < t.nnode, ((nodeAt t i).kind = .leaf ↔ i < t.nsym)) ∧
    t.root.toNat = 2 * t.nsym - 2 ∧ (nodeAt t t.root.toNat).freq.toNat = s.plen ∧
    (∀ i, t.nsym ≤ i → i < t.nnode → (nodeAt t i).left.toNat < i ∧ (nodeAt t i).right.toNat < i) ∧
    (∀ v < t.nnode, (childList t.node).count v = if v = t.root.toNat then 0 else 1) ∧
    (∀ i, t.nsym ≤ i → i + 1 < t.nnode → (nodeAt t i).freq.toNat ≤ (nodeAt t (i + 1)).freq.toNat) ∧
    (∀ i < t.nsym, ∃ p, follow t.node t.root.toNat p = some i ∧ p.length ≤ t.nsym - 1 ∧
      ∀ q, follow t.node t.root.toNat q = some i → q = p)

/-- 42_code_table_generator.md R123, for every admissible value of the parameters: the codes that a successful BUILD leaves are
not empty, bounded, prefix-free and complete, and a more frequent symbol has no longer a code. -/
def Obligations.TheBuiltCodeTable : Prop :=
  ∀ P : Config.Params, P.Admissible → ∀ (s t : State) (r : Word), s.plen ≤ P.pmax → buildAndEncode P s = .next t →
    t.rsps = s.rsps ++ [r] → statusOf r = 0 →
    (∀ i < t.nsym, (codeAt t i).length = (ctAt t i).len.toNat ∧ 1 ≤ (ctAt t i).len.toNat ∧
      (ctAt t i).len.toNat ≤ P.codeMax ∧ (2 ≤ t.nsym → (ctAt t i).len.toNat ≤ t.nsym - 1) ∧
      (t.nsym = 1 → (ctAt t i).len.toNat = 1)) ∧
    (∀ i < t.nsym, ∀ j < t.nsym, i ≠ j → ¬ codeAt t i <+: codeAt t j) ∧
    (2 ≤ t.nsym → ((List.range t.nsym).map (fun i => (1 / 2 : ℚ) ^ (ctAt t i).len.toNat)).sum = 1) ∧
    (t.nsym = 1 → ((List.range t.nsym).map (fun i => (1 / 2 : ℚ) ^ (ctAt t i).len.toNat)).sum = 1 / 2) ∧
    (∀ i < t.nsym, ∀ j < t.nsym, (nodeAt t j).freq.toNat < (nodeAt t i).freq.toNat →
      (ctAt t i).len.toNat ≤ (ctAt t j).len.toNat)

/-- 41_tree_builder.md R108: building the same phrase twice gives identical NODE, CT and OB. -/
def Obligations.BuildTwiceGivesTheSame : Prop :=
  ∀ s t : State, exec .build s = .next t → ∃ u, exec .build t = .next u ∧ u.node = t.node ∧ u.ct = t.ct ∧ u.ob = t.ob ∧
    u.nsym = t.nsym ∧ u.nnode = t.nnode ∧ u.root = t.root ∧ u.olen = t.olen ∧ u.tvalid = t.tvalid

/-- 41_tree_builder.md R108: two phrases that are permutations of each other give the same code for every symbol. -/
def Obligations.CodesDependOnTheCountsAlone : Prop :=
  ∀ s₁ s₂ t₁ t₂ : State, Inv Config.defaults s₁ → Inv Config.defaults s₂ → (phraseOf s₁).Perm (phraseOf s₂) →
    exec .build s₁ = .next t₁ → exec .build s₂ = .next t₂ → (∃ r, t₁.rsps = s₁.rsps ++ [r] ∧ statusOf r = 0) →
    (∃ r, t₂.rsps = s₂.rsps ++ [r] ∧ statusOf r = 0) →
    ∀ i < t₁.nsym, ∃ j < t₂.nsym, (ctAt t₂ j).sym = (ctAt t₁ i).sym ∧ codeAt t₂ j = codeAt t₁ i

/-- 43_encoder.md R140. -/
def Obligations.RdobReadsOneBitOfTheOutput : Prop :=
  (∀ (w : Word) (x : Nat), decode w = .command (.rdob x) ↔ x < 2 ^ 24 ∧ w.toNat = 0x50000000 + x) ∧
  (∀ (s : State) (x : Nat), s.olen ≤ x → exec (.rdob x) s = .next (given 0x60000000#32 s)) ∧
  (∀ (s : State) (x : Nat), x < s.olen → exec (.rdob x) s = .next (given (BitVec.ofNat 32 (bitNat (obAt s x))) s)) ∧
  (∀ (s : State) (x : Nat), Inv Config.defaults s → s.tvalid = false →
    exec (.rdob x) s = .next (given 0x60000000#32 s))

/-! ### DECODE and the decoded text -/

/-- 44_decoder.md R151, R158: the checks in their order, what each failure leaves, and the text otherwise, which on a tree with
an Internal root is that of the walk of R154. -/
def Obligations.DecodeChecksInOrder : Prop :=
  (∀ s : State, s.tvalid = false → exec .decode s = .next (given 0x20000000#32 s)) ∧
  (∀ s : State, Inv Config.defaults s → s.tvalid = false → s.tlen = 0 ∧ s.dtrunc = false) ∧
  (∀ s : State, s.tvalid = true → (∃ j < s.ilen, ibAt s j ≠ Config.ch0 ∧ ibAt s j ≠ Config.ch1) →
    ∃ t, exec .decode s = .next t ∧ t = given 0x30000000#32 { s with tb := t.tb, tlen := 0, dtrunc := false }) ∧
  (∀ s : State, s.tvalid = true → (∀ j < s.ilen, ibAt s j = Config.ch0 ∨ ibAt s j = Config.ch1) →
    (nodeAt s s.root.toNat).kind = .internal → walk s.node s.root s.root (inputOf s) = none →
    ∃ t, exec .decode s = .next t ∧ t = given 0x40000000#32 { s with tb := t.tb, tlen := 0, dtrunc := false }) ∧
  (∀ (s : State) (t : List Symbol) (cur : NodeIdx), s.tvalid = true → s.ilen ≤ Config.defaults.imax →
    (∀ j < s.ilen, ibAt s j = Config.ch0 ∨ ibAt s j = Config.ch1) →
    (nodeAt s s.root.toNat).kind = .internal → walk s.node s.root s.root (inputOf s) = some (t, cur) →
    exec .decode s = .next (given (BitVec.ofNat 32 t.length)
      { s with tb := t, tlen := t.length, dtrunc := decide (cur ≠ s.root) })) ∧
  (∀ s : State, s.tvalid = true → s.ilen ≤ Config.defaults.imax →
    (∀ j < s.ilen, ibAt s j = Config.ch0 ∨ ibAt s j = Config.ch1) → (nodeAt s s.root.toNat).kind = .leaf →
    exec .decode s = .next (given (BitVec.ofNat 32 s.ilen)
      { s with tb := List.replicate s.ilen (nodeAt s s.root.toNat).sym, tlen := s.ilen, dtrunc := false }))

/-- 44_decoder.md R153: on a single-leaf tree every bit decodes to the Leaf's character, whatever its value. -/
def Obligations.DecodeOnASingleLeaf : Prop :=
  ∀ s : State, s.tvalid = true → s.ilen ≤ Config.defaults.imax →
    (∀ j < s.ilen, ibAt s j = Config.ch0 ∨ ibAt s j = Config.ch1) → (nodeAt s s.root.toNat).kind = .leaf →
    exec .decode s = .next (given (BitVec.ofNat 32 s.ilen)
      { s with tb := List.replicate s.ilen (nodeAt s s.root.toNat).sym, tlen := s.ilen, dtrunc := false })

/-- 44_decoder.md R154, R156, R157: on a good tree with at least two Leaves the input is the codes of the decoded characters,
one after another, and then the bits of an unfinished code, which lead from the root to an Internal node; DTRUNC says
whether there are any. -/
def Obligations.DecodeWalksTheTree : Prop :=
  ∀ s : State, Inv Config.defaults s → s.tvalid = true → 2 ≤ s.nsym →
    (∀ j < s.ilen, ibAt s j = Config.ch0 ∨ ibAt s j = Config.ch1) →
    ∃ (t : List Symbol) (rest : List Bit) (code : Symbol → List Bit),
      (∀ i < s.nsym, code (ctAt s i).sym = codeAt s i) ∧ (∀ c ∈ t, ∃ i < s.nsym, (ctAt s i).sym = c) ∧
      (inputOf s).map (fun ch => decide (ch = Config.ch1)) = t.flatMap code ++ rest ∧
      (∃ v, follow s.node s.root.toNat rest = some v ∧ (nodeAt s v).kind = .internal) ∧
      exec .decode s = .next (given (BitVec.ofNat 32 t.length)
        { s with tb := t, tlen := t.length, dtrunc := decide (rest ≠ []) })

/-- 44_decoder.md R155: empty input gives empty output, whatever the tree. -/
def Obligations.DecodeOfEmptyInput : Prop :=
  (∀ s : State, s.tvalid = true → s.ilen = 0 →
    ∃ t, exec .decode s = .next t ∧ t = given 0x00000000#32 { s with tb := t.tb, tlen := 0, dtrunc := false }) ∧
  (∀ s : State, s.tvalid = false → s.ilen = 0 → exec .decode s = .next (given 0x20000000#32 s))

/-- 60_exceptions.md R180, 44_decoder.md R161: on a good state the walk never meets a missing child. -/
def Obligations.NoUnmatchedPathOnGoodStates : Prop :=
  ∀ (s t : State) (r : Word), Inv Config.defaults s → exec .decode s = .next t → t.rsps = s.rsps ++ [r] → statusOf r ≠ 4

/-- 44_decoder.md R150, R22, R28: DECODE writes TB, TLEN and DTRUNC and nothing else, and a successful one decodes at most one
character per input character. -/
def Obligations.DecodeFrame : Prop :=
  (∀ w : Word, decode w = .command .decode ↔ w = 0x22000000#32) ∧
  (∀ s : State, ∃ t r, exec .decode s = .next t ∧
    t = given r { s with tb := t.tb, tlen := t.tlen, dtrunc := t.dtrunc } ∧
    (statusOf r = 0 → t.tlen ≤ s.ilen ∧ t.tb.length = t.tlen ∧ (s.ilen ≤ Config.defaults.imax → dataOf r = t.tlen)))

/-- 44_decoder.md R163, the round-trip law: from any good state, load a phrase and BUILD it; if BUILD answers OK and its
output fits the input buffer, loading that output and running DECODE gives the phrase back. -/
def Obligations.RoundTripLaw : Prop :=
  ∀ (s : State) (p : List Symbol), Inv Config.defaults s → 1 ≤ p.length → p.length ≤ Config.defaults.pmax →
    (∃ c ∈ p, Config.defaultWs c = false) →
    ∃ t r, execAll (.pclr :: p.map .pput ++ [.build]) s = some t ∧ t.rsps.getLast? = some r ∧
      (r ≠ 0x50000000#32 → statusOf r = 0 ∧ dataOf r = t.olen ∧
        (t.olen ≤ Config.defaults.imax →
          ∃ v, execAll (.bclr :: t.ob.map (fun b => .bput (chr b)) ++ [.decode]) t = some v ∧
            v.rsps.getLast? = some (BitVec.ofNat 32 p.length) ∧ v.tlen = p.length ∧ v.tb = p ∧ v.dtrunc = false))

/-- 44_decoder.md R162; a failed DECODE leaves nothing to read, and a BUILD leaves TB as it was (R204). -/
def Obligations.RdtxReadsOneDecodedCharacter : Prop :=
  (∀ (w : Word) (x : Nat), decode w = .command (.rdtx x) ↔ x < 2 ^ 24 ∧ w.toNat = 0x51000000 + x) ∧
  (∀ (s : State) (x : Nat), s.tlen ≤ x → exec (.rdtx x) s = .next (given 0x60000000#32 s)) ∧
  (∀ (s : State) (x : Nat), x < s.tlen → exec (.rdtx x) s = .next (given (BitVec.ofNat 32 (tbAt s x).toNat) s)) ∧
  (∀ (s t : State) (r : Word), Inv Config.defaults s → exec .decode s = .next t → t.rsps = s.rsps ++ [r] →
    statusOf r ≠ 0 → ∀ x, exec (.rdtx x) t = .next (given 0x60000000#32 t)) ∧
  (∀ s t : State, exec .build s = .next t → t.tlen = s.tlen ∧ ∀ x, tbAt t x = tbAt s x)

/-! ### The whole machine -/

/-- Every step keeps a good state good: canonical memories, lengths within the capacities, and the ten invariants of
10_state.md R36. -/
def Obligations.EveryStepKeepsGoodStates : Prop :=
  ∀ s t : State, Inv Config.defaults s → step s = .next t → Inv Config.defaults t

/-- The reset state is good, and all nine scalars and flags are 0 in it (10_state.md R37). -/
def Obligations.ResetStateIsGood : Prop :=
  Inv Config.defaults State.reset ∧ State.reset.tvalid = false ∧ State.reset.dtrunc = false ∧ State.reset.plen = 0 ∧
  State.reset.ilen = 0 ∧ State.reset.nsym = 0 ∧ State.reset.nnode = 0 ∧ State.reset.root = 0#13 ∧
  State.reset.olen = 0 ∧ State.reset.tlen = 0

/-- For every admissible value of the parameters, the commands that depend on one keep good states good. -/
def Obligations.GoodStatesForEveryParameter : Prop :=
  ∀ P : Config.Params, P.Admissible → ∀ (s t : State) (c : Symbol), Inv P s →
    (buildAndEncode P s = .next t → Inv P t) ∧ (phrasePut P c s = .next t → Inv P t) ∧
    (inputPut P c s = .next t → Inv P t)

/-- 70_reset_and_hazards.md R196, R195: after reset all nine scalars and flags are 0, whatever the state was, and no command
shows what the six memories hold; no response is given for it.  The clauses `t.rsps = s.rsps` and `t.cmds = rest`, that the
host's two streams go on, are the model's choice (DESIGN CHOICE, log entry 2), so the basis is derived. -/
def Obligations.ResetClearsEverything : Prop :=
  ∀ (s : State) (rest : List HostEvent), s.cmds = .reset :: rest → ∃ t, step s = .next t ∧
    t.tvalid = false ∧ t.dtrunc = false ∧ t.plen = 0 ∧ t.ilen = 0 ∧ t.nsym = 0 ∧ t.nnode = 0 ∧ t.root = 0#13 ∧
    t.olen = 0 ∧ t.tlen = 0 ∧ t.rsps = s.rsps ∧ t.cmds = rest ∧
    exec .build t = .next (given 0x10000000#32 t) ∧ exec .decode t = .next (given 0x20000000#32 t) ∧
    (∀ c : Symbol, exec (.lkup c) t = .next (given 0x20000000#32 t)) ∧
    (∀ x : Nat, exec (.rdnk x) t = .next (given 0x20000000#32 t) ∧ exec (.rdnf x) t = .next (given 0x20000000#32 t) ∧
      exec (.rdnl x) t = .next (given 0x20000000#32 t) ∧ exec (.rdnr x) t = .next (given 0x20000000#32 t) ∧
      exec (.rdcs x) t = .next (given 0x20000000#32 t) ∧ exec (.rdcl x) t = .next (given 0x20000000#32 t) ∧
      (∀ k : Nat, exec (.rdcb x k) t = .next (given 0x20000000#32 t)) ∧
      exec (.rdob x) t = .next (given 0x60000000#32 t) ∧ exec (.rdtx x) t = .next (given 0x60000000#32 t))

/-- 10_state.md R23: TVALID is 0 after reset, a successful BUILD sets it, a failed one does not change it, and nothing but
reset clears it. -/
def Obligations.TvalidLifecycle : Prop :=
  State.reset.tvalid = false ∧
  (∀ s t : State, step s = .next t → s.tvalid = true → t.tvalid = false → s.cmds.head? = some .reset) ∧
  (∀ s t : State, step s = .next t → s.tvalid = false → t.tvalid = true →
    ∃ rest r, s.cmds = .command 0x12000000#32 :: rest ∧ t.rsps = s.rsps ++ [r] ∧ statusOf r = 0) ∧
  (∀ (s t : State) (r : Word), exec .build s = .next t → t.rsps = s.rsps ++ [r] →
    (statusOf r = 0 → t.tvalid = true) ∧ (statusOf r ≠ 0 → t.tvalid = s.tvalid)) ∧
  (∀ s : State, s.tvalid = false → exec .decode s = .next (given 0x20000000#32 s))

/-- 20_memory.md R54: no read has a side effect; the reads, LKUP, RDCR and NOP change nothing but the response stream. -/
def Obligations.ReadsHaveNoSideEffect : Prop :=
  ∀ (i : Instr) (s : State), i.mnemonic ∈ ["NOP", "RDCR", "RDNK", "RDNF", "RDNL", "RDNR", "RDCS", "RDCL", "RDCB", "LKUP",
    "RDOB", "RDTX"] → ∃ r, exec i s = .next (given r s) ∧ exec i (given r s) = .next (given r (given r s))

/-- 10_state.md R38, 20_memory.md R57: only a successful BUILD and reset change the retained tree, code table and encoded
output. -/
def Obligations.RetainedStateChangesOnlyByBuild : Prop :=
  ∀ s t : State, step s = .next t →
    (t.tvalid = s.tvalid ∧ t.nsym = s.nsym ∧ t.nnode = s.nnode ∧ t.root = s.root ∧ t.node = s.node ∧ t.ct = s.ct ∧
      t.ob = s.ob ∧ t.olen = s.olen) ∨
    s.cmds.head? = some .reset ∨
    (s.cmds.head? = some (.command 0x12000000#32) ∧ ∃ r, t.rsps = s.rsps ++ [r] ∧ statusOf r = 0)

/-- 70_reset_and_hazards.md R207: a run of a list of k command words gives exactly k response words, in order, and ends with
nothing left to send. -/
def Obligations.RunsAnswerEveryCommand : Prop :=
  ∀ (ws : List Word) (s : State), s.cmds = ws.map .command →
    ∃ t, Sys2Proof.core.run ws.length s = .next t ∧ t.cmds = [] ∧
      ∃ rs : List Word, t.rsps = s.rsps ++ rs ∧ rs.length = ws.length

/-- What the host was given before, and what it has still to send, do not influence what a command does (10_state.md R20:
they are no state of the core). -/
def Obligations.TheStreamsDoNotInfluenceCommands : Prop :=
  ∀ (i : Instr) (s t : State) (es : List HostEvent) (rs : List Word), exec i s = .next t →
    ∃ r, t.rsps = s.rsps ++ [r] ∧ t.cmds = s.cmds ∧
      exec i { s with cmds := es, rsps := rs } = .next { t with cmds := es, rsps := rs ++ [r] }

/-- The model's own choice (log entry 3): with nothing from the host the core waits, unchanged. -/
def Obligations.TheCoreWaitsUnchanged : Prop :=
  ∀ s : State, s.cmds = [] → step s = .next s
end

