-- ==== Sys2Proof/Laws/State.lean ====
section
/-! SUPPORT. What each update of the state does to each field: one lemma a field and update, true by unfolding, so that no
proof unfolds a record update. -/

namespace Sys2Proof.Machine

/-! ### respond -/

@[simp] theorem respond_pb (st : Status) (d : Data) (s : State) : (respond st d s).pb = s.pb := rfl
@[simp] theorem respond_plen (st : Status) (d : Data) (s : State) : (respond st d s).plen = s.plen := rfl
@[simp] theorem respond_ib (st : Status) (d : Data) (s : State) : (respond st d s).ib = s.ib := rfl
@[simp] theorem respond_ilen (st : Status) (d : Data) (s : State) : (respond st d s).ilen = s.ilen := rfl
@[simp] theorem respond_tvalid (st : Status) (d : Data) (s : State) : (respond st d s).tvalid = s.tvalid := rfl
@[simp] theorem respond_nsym (st : Status) (d : Data) (s : State) : (respond st d s).nsym = s.nsym := rfl
@[simp] theorem respond_nnode (st : Status) (d : Data) (s : State) : (respond st d s).nnode = s.nnode := rfl
@[simp] theorem respond_root (st : Status) (d : Data) (s : State) : (respond st d s).root = s.root := rfl
@[simp] theorem respond_node (st : Status) (d : Data) (s : State) : (respond st d s).node = s.node := rfl
@[simp] theorem respond_ct (st : Status) (d : Data) (s : State) : (respond st d s).ct = s.ct := rfl
@[simp] theorem respond_ob (st : Status) (d : Data) (s : State) : (respond st d s).ob = s.ob := rfl
@[simp] theorem respond_olen (st : Status) (d : Data) (s : State) : (respond st d s).olen = s.olen := rfl
@[simp] theorem respond_tb (st : Status) (d : Data) (s : State) : (respond st d s).tb = s.tb := rfl
@[simp] theorem respond_tlen (st : Status) (d : Data) (s : State) : (respond st d s).tlen = s.tlen := rfl
@[simp] theorem respond_dtrunc (st : Status) (d : Data) (s : State) : (respond st d s).dtrunc = s.dtrunc := rfl
@[simp] theorem respond_cmds (st : Status) (d : Data) (s : State) : (respond st d s).cmds = s.cmds := rfl
@[simp] theorem respond_rsps (st : Status) (d : Data) (s : State) :
    (respond st d s).rsps = s.rsps ++ [responseWord st d] := rfl

/-! ### setTvalid -/

@[simp] theorem setTvalid_pb (s : State) : (setTvalid s).pb = s.pb := rfl
@[simp] theorem setTvalid_plen (s : State) : (setTvalid s).plen = s.plen := rfl
@[simp] theorem setTvalid_ib (s : State) : (setTvalid s).ib = s.ib := rfl
@[simp] theorem setTvalid_ilen (s : State) : (setTvalid s).ilen = s.ilen := rfl
@[simp] theorem setTvalid_tvalid (s : State) : (setTvalid s).tvalid = true := rfl
@[simp] theorem setTvalid_nsym (s : State) : (setTvalid s).nsym = s.nsym := rfl
@[simp] theorem setTvalid_nnode (s : State) : (setTvalid s).nnode = s.nnode := rfl
@[simp] theorem setTvalid_root (s : State) : (setTvalid s).root = s.root := rfl
@[simp] theorem setTvalid_node (s : State) : (setTvalid s).node = s.node := rfl
@[simp] theorem setTvalid_ct (s : State) : (setTvalid s).ct = s.ct := rfl
@[simp] theorem setTvalid_ob (s : State) : (setTvalid s).ob = s.ob := rfl
@[simp] theorem setTvalid_olen (s : State) : (setTvalid s).olen = s.olen := rfl
@[simp] theorem setTvalid_tb (s : State) : (setTvalid s).tb = s.tb := rfl
@[simp] theorem setTvalid_tlen (s : State) : (setTvalid s).tlen = s.tlen := rfl
@[simp] theorem setTvalid_dtrunc (s : State) : (setTvalid s).dtrunc = s.dtrunc := rfl
@[simp] theorem setTvalid_cmds (s : State) : (setTvalid s).cmds = s.cmds := rfl
@[simp] theorem setTvalid_rsps (s : State) : (setTvalid s).rsps = s.rsps := rfl

/-! ### setDtrunc -/

@[simp] theorem setDtrunc_pb (v : Bool) (s : State) : (setDtrunc v s).pb = s.pb := rfl
@[simp] theorem setDtrunc_plen (v : Bool) (s : State) : (setDtrunc v s).plen = s.plen := rfl
@[simp] theorem setDtrunc_ib (v : Bool) (s : State) : (setDtrunc v s).ib = s.ib := rfl
@[simp] theorem setDtrunc_ilen (v : Bool) (s : State) : (setDtrunc v s).ilen = s.ilen := rfl
@[simp] theorem setDtrunc_tvalid (v : Bool) (s : State) : (setDtrunc v s).tvalid = s.tvalid := rfl
@[simp] theorem setDtrunc_nsym (v : Bool) (s : State) : (setDtrunc v s).nsym = s.nsym := rfl
@[simp] theorem setDtrunc_nnode (v : Bool) (s : State) : (setDtrunc v s).nnode = s.nnode := rfl
@[simp] theorem setDtrunc_root (v : Bool) (s : State) : (setDtrunc v s).root = s.root := rfl
@[simp] theorem setDtrunc_node (v : Bool) (s : State) : (setDtrunc v s).node = s.node := rfl
@[simp] theorem setDtrunc_ct (v : Bool) (s : State) : (setDtrunc v s).ct = s.ct := rfl
@[simp] theorem setDtrunc_ob (v : Bool) (s : State) : (setDtrunc v s).ob = s.ob := rfl
@[simp] theorem setDtrunc_olen (v : Bool) (s : State) : (setDtrunc v s).olen = s.olen := rfl
@[simp] theorem setDtrunc_tb (v : Bool) (s : State) : (setDtrunc v s).tb = s.tb := rfl
@[simp] theorem setDtrunc_tlen (v : Bool) (s : State) : (setDtrunc v s).tlen = s.tlen := rfl
@[simp] theorem setDtrunc_dtrunc (v : Bool) (s : State) : (setDtrunc v s).dtrunc = v := rfl
@[simp] theorem setDtrunc_cmds (v : Bool) (s : State) : (setDtrunc v s).cmds = s.cmds := rfl
@[simp] theorem setDtrunc_rsps (v : Bool) (s : State) : (setDtrunc v s).rsps = s.rsps := rfl

/-! ### appendPb -/

@[simp] theorem appendPb_pb (c : Symbol) (s : State) : (appendPb c s).pb = phraseOf s ++ [c] := rfl
@[simp] theorem appendPb_plen (c : Symbol) (s : State) : (appendPb c s).plen = s.plen + 1 := rfl
@[simp] theorem appendPb_ib (c : Symbol) (s : State) : (appendPb c s).ib = s.ib := rfl
@[simp] theorem appendPb_ilen (c : Symbol) (s : State) : (appendPb c s).ilen = s.ilen := rfl
@[simp] theorem appendPb_tvalid (c : Symbol) (s : State) : (appendPb c s).tvalid = s.tvalid := rfl
@[simp] theorem appendPb_nsym (c : Symbol) (s : State) : (appendPb c s).nsym = s.nsym := rfl
@[simp] theorem appendPb_nnode (c : Symbol) (s : State) : (appendPb c s).nnode = s.nnode := rfl
@[simp] theorem appendPb_root (c : Symbol) (s : State) : (appendPb c s).root = s.root := rfl
@[simp] theorem appendPb_node (c : Symbol) (s : State) : (appendPb c s).node = s.node := rfl
@[simp] theorem appendPb_ct (c : Symbol) (s : State) : (appendPb c s).ct = s.ct := rfl
@[simp] theorem appendPb_ob (c : Symbol) (s : State) : (appendPb c s).ob = s.ob := rfl
@[simp] theorem appendPb_olen (c : Symbol) (s : State) : (appendPb c s).olen = s.olen := rfl
@[simp] theorem appendPb_tb (c : Symbol) (s : State) : (appendPb c s).tb = s.tb := rfl
@[simp] theorem appendPb_tlen (c : Symbol) (s : State) : (appendPb c s).tlen = s.tlen := rfl
@[simp] theorem appendPb_dtrunc (c : Symbol) (s : State) : (appendPb c s).dtrunc = s.dtrunc := rfl
@[simp] theorem appendPb_cmds (c : Symbol) (s : State) : (appendPb c s).cmds = s.cmds := rfl
@[simp] theorem appendPb_rsps (c : Symbol) (s : State) : (appendPb c s).rsps = s.rsps := rfl

/-! ### clearPb -/

@[simp] theorem clearPb_pb (s : State) : (clearPb s).pb = [] := rfl
@[simp] theorem clearPb_plen (s : State) : (clearPb s).plen = 0 := rfl
@[simp] theorem clearPb_ib (s : State) : (clearPb s).ib = s.ib := rfl
@[simp] theorem clearPb_ilen (s : State) : (clearPb s).ilen = s.ilen := rfl
@[simp] theorem clearPb_tvalid (s : State) : (clearPb s).tvalid = s.tvalid := rfl
@[simp] theorem clearPb_nsym (s : State) : (clearPb s).nsym = s.nsym := rfl
@[simp] theorem clearPb_nnode (s : State) : (clearPb s).nnode = s.nnode := rfl
@[simp] theorem clearPb_root (s : State) : (clearPb s).root = s.root := rfl
@[simp] theorem clearPb_node (s : State) : (clearPb s).node = s.node := rfl
@[simp] theorem clearPb_ct (s : State) : (clearPb s).ct = s.ct := rfl
@[simp] theorem clearPb_ob (s : State) : (clearPb s).ob = s.ob := rfl
@[simp] theorem clearPb_olen (s : State) : (clearPb s).olen = s.olen := rfl
@[simp] theorem clearPb_tb (s : State) : (clearPb s).tb = s.tb := rfl
@[simp] theorem clearPb_tlen (s : State) : (clearPb s).tlen = s.tlen := rfl
@[simp] theorem clearPb_dtrunc (s : State) : (clearPb s).dtrunc = s.dtrunc := rfl
@[simp] theorem clearPb_cmds (s : State) : (clearPb s).cmds = s.cmds := rfl
@[simp] theorem clearPb_rsps (s : State) : (clearPb s).rsps = s.rsps := rfl

/-! ### appendIb -/

@[simp] theorem appendIb_pb (c : Symbol) (s : State) : (appendIb c s).pb = s.pb := rfl
@[simp] theorem appendIb_plen (c : Symbol) (s : State) : (appendIb c s).plen = s.plen := rfl
@[simp] theorem appendIb_ib (c : Symbol) (s : State) : (appendIb c s).ib = inputOf s ++ [c] := rfl
@[simp] theorem appendIb_ilen (c : Symbol) (s : State) : (appendIb c s).ilen = s.ilen + 1 := rfl
@[simp] theorem appendIb_tvalid (c : Symbol) (s : State) : (appendIb c s).tvalid = s.tvalid := rfl
@[simp] theorem appendIb_nsym (c : Symbol) (s : State) : (appendIb c s).nsym = s.nsym := rfl
@[simp] theorem appendIb_nnode (c : Symbol) (s : State) : (appendIb c s).nnode = s.nnode := rfl
@[simp] theorem appendIb_root (c : Symbol) (s : State) : (appendIb c s).root = s.root := rfl
@[simp] theorem appendIb_node (c : Symbol) (s : State) : (appendIb c s).node = s.node := rfl
@[simp] theorem appendIb_ct (c : Symbol) (s : State) : (appendIb c s).ct = s.ct := rfl
@[simp] theorem appendIb_ob (c : Symbol) (s : State) : (appendIb c s).ob = s.ob := rfl
@[simp] theorem appendIb_olen (c : Symbol) (s : State) : (appendIb c s).olen = s.olen := rfl
@[simp] theorem appendIb_tb (c : Symbol) (s : State) : (appendIb c s).tb = s.tb := rfl
@[simp] theorem appendIb_tlen (c : Symbol) (s : State) : (appendIb c s).tlen = s.tlen := rfl
@[simp] theorem appendIb_dtrunc (c : Symbol) (s : State) : (appendIb c s).dtrunc = s.dtrunc := rfl
@[simp] theorem appendIb_cmds (c : Symbol) (s : State) : (appendIb c s).cmds = s.cmds := rfl
@[simp] theorem appendIb_rsps (c : Symbol) (s : State) : (appendIb c s).rsps = s.rsps := rfl

/-! ### clearIb -/

@[simp] theorem clearIb_pb (s : State) : (clearIb s).pb = s.pb := rfl
@[simp] theorem clearIb_plen (s : State) : (clearIb s).plen = s.plen := rfl
@[simp] theorem clearIb_ib (s : State) : (clearIb s).ib = [] := rfl
@[simp] theorem clearIb_ilen (s : State) : (clearIb s).ilen = 0 := rfl
@[simp] theorem clearIb_tvalid (s : State) : (clearIb s).tvalid = s.tvalid := rfl
@[simp] theorem clearIb_nsym (s : State) : (clearIb s).nsym = s.nsym := rfl
@[simp] theorem clearIb_nnode (s : State) : (clearIb s).nnode = s.nnode := rfl
@[simp] theorem clearIb_root (s : State) : (clearIb s).root = s.root := rfl
@[simp] theorem clearIb_node (s : State) : (clearIb s).node = s.node := rfl
@[simp] theorem clearIb_ct (s : State) : (clearIb s).ct = s.ct := rfl
@[simp] theorem clearIb_ob (s : State) : (clearIb s).ob = s.ob := rfl
@[simp] theorem clearIb_olen (s : State) : (clearIb s).olen = s.olen := rfl
@[simp] theorem clearIb_tb (s : State) : (clearIb s).tb = s.tb := rfl
@[simp] theorem clearIb_tlen (s : State) : (clearIb s).tlen = s.tlen := rfl
@[simp] theorem clearIb_dtrunc (s : State) : (clearIb s).dtrunc = s.dtrunc := rfl
@[simp] theorem clearIb_cmds (s : State) : (clearIb s).cmds = s.cmds := rfl
@[simp] theorem clearIb_rsps (s : State) : (clearIb s).rsps = s.rsps := rfl

/-! ### commitBuild -/

@[simp] theorem commitBuild_pb (b : Built) (s : State) : (commitBuild b s).pb = s.pb := rfl
@[simp] theorem commitBuild_plen (b : Built) (s : State) : (commitBuild b s).plen = s.plen := rfl
@[simp] theorem commitBuild_ib (b : Built) (s : State) : (commitBuild b s).ib = s.ib := rfl
@[simp] theorem commitBuild_ilen (b : Built) (s : State) : (commitBuild b s).ilen = s.ilen := rfl
@[simp] theorem commitBuild_tvalid (b : Built) (s : State) : (commitBuild b s).tvalid = true := rfl
@[simp] theorem commitBuild_nsym (b : Built) (s : State) : (commitBuild b s).nsym = b.n := rfl
@[simp] theorem commitBuild_nnode (b : Built) (s : State) : (commitBuild b s).nnode = 2 * b.n - 1 := rfl
@[simp] theorem commitBuild_root (b : Built) (s : State) : (commitBuild b s).root = b.root := rfl
@[simp] theorem commitBuild_node (b : Built) (s : State) : (commitBuild b s).node = b.nodes := rfl
@[simp] theorem commitBuild_ct (b : Built) (s : State) : (commitBuild b s).ct = b.codes := rfl
@[simp] theorem commitBuild_ob (b : Built) (s : State) : (commitBuild b s).ob = b.bits := rfl
@[simp] theorem commitBuild_olen (b : Built) (s : State) : (commitBuild b s).olen = b.bits.length := rfl
@[simp] theorem commitBuild_tb (b : Built) (s : State) : (commitBuild b s).tb = s.tb := rfl
@[simp] theorem commitBuild_tlen (b : Built) (s : State) : (commitBuild b s).tlen = s.tlen := rfl
@[simp] theorem commitBuild_dtrunc (b : Built) (s : State) : (commitBuild b s).dtrunc = s.dtrunc := rfl
@[simp] theorem commitBuild_cmds (b : Built) (s : State) : (commitBuild b s).cmds = s.cmds := rfl
@[simp] theorem commitBuild_rsps (b : Built) (s : State) : (commitBuild b s).rsps = s.rsps := rfl

/-! ### setDecoded -/

@[simp] theorem setDecoded_pb (t : List Symbol) (v : Bool) (s : State) : (setDecoded t v s).pb = s.pb := rfl
@[simp] theorem setDecoded_plen (t : List Symbol) (v : Bool) (s : State) : (setDecoded t v s).plen = s.plen := rfl
@[simp] theorem setDecoded_ib (t : List Symbol) (v : Bool) (s : State) : (setDecoded t v s).ib = s.ib := rfl
@[simp] theorem setDecoded_ilen (t : List Symbol) (v : Bool) (s : State) : (setDecoded t v s).ilen = s.ilen := rfl
@[simp] theorem setDecoded_tvalid (t : List Symbol) (v : Bool) (s : State) :
    (setDecoded t v s).tvalid = s.tvalid := rfl
@[simp] theorem setDecoded_nsym (t : List Symbol) (v : Bool) (s : State) : (setDecoded t v s).nsym = s.nsym := rfl
@[simp] theorem setDecoded_nnode (t : List Symbol) (v : Bool) (s : State) : (setDecoded t v s).nnode = s.nnode := rfl
@[simp] theorem setDecoded_root (t : List Symbol) (v : Bool) (s : State) : (setDecoded t v s).root = s.root := rfl
@[simp] theorem setDecoded_node (t : List Symbol) (v : Bool) (s : State) : (setDecoded t v s).node = s.node := rfl
@[simp] theorem setDecoded_ct (t : List Symbol) (v : Bool) (s : State) : (setDecoded t v s).ct = s.ct := rfl
@[simp] theorem setDecoded_ob (t : List Symbol) (v : Bool) (s : State) : (setDecoded t v s).ob = s.ob := rfl
@[simp] theorem setDecoded_olen (t : List Symbol) (v : Bool) (s : State) : (setDecoded t v s).olen = s.olen := rfl
@[simp] theorem setDecoded_tb (t : List Symbol) (v : Bool) (s : State) : (setDecoded t v s).tb = t := rfl
@[simp] theorem setDecoded_tlen (t : List Symbol) (v : Bool) (s : State) : (setDecoded t v s).tlen = t.length := rfl
@[simp] theorem setDecoded_dtrunc (t : List Symbol) (v : Bool) (s : State) : (setDecoded t v s).dtrunc = v := rfl
@[simp] theorem setDecoded_cmds (t : List Symbol) (v : Bool) (s : State) : (setDecoded t v s).cmds = s.cmds := rfl
@[simp] theorem setDecoded_rsps (t : List Symbol) (v : Bool) (s : State) : (setDecoded t v s).rsps = s.rsps := rfl

/-! ### clearDecoded -/

@[simp] theorem clearDecoded_pb (s : State) : (clearDecoded s).pb = s.pb := rfl
@[simp] theorem clearDecoded_plen (s : State) : (clearDecoded s).plen = s.plen := rfl
@[simp] theorem clearDecoded_ib (s : State) : (clearDecoded s).ib = s.ib := rfl
@[simp] theorem clearDecoded_ilen (s : State) : (clearDecoded s).ilen = s.ilen := rfl
@[simp] theorem clearDecoded_tvalid (s : State) : (clearDecoded s).tvalid = s.tvalid := rfl
@[simp] theorem clearDecoded_nsym (s : State) : (clearDecoded s).nsym = s.nsym := rfl
@[simp] theorem clearDecoded_nnode (s : State) : (clearDecoded s).nnode = s.nnode := rfl
@[simp] theorem clearDecoded_root (s : State) : (clearDecoded s).root = s.root := rfl
@[simp] theorem clearDecoded_node (s : State) : (clearDecoded s).node = s.node := rfl
@[simp] theorem clearDecoded_ct (s : State) : (clearDecoded s).ct = s.ct := rfl
@[simp] theorem clearDecoded_ob (s : State) : (clearDecoded s).ob = s.ob := rfl
@[simp] theorem clearDecoded_olen (s : State) : (clearDecoded s).olen = s.olen := rfl
@[simp] theorem clearDecoded_tb (s : State) : (clearDecoded s).tb = [] := rfl
@[simp] theorem clearDecoded_tlen (s : State) : (clearDecoded s).tlen = 0 := rfl
@[simp] theorem clearDecoded_dtrunc (s : State) : (clearDecoded s).dtrunc = false := rfl
@[simp] theorem clearDecoded_cmds (s : State) : (clearDecoded s).cmds = s.cmds := rfl
@[simp] theorem clearDecoded_rsps (s : State) : (clearDecoded s).rsps = s.rsps := rfl

/-! ### applyReset -/

@[simp] theorem applyReset_pb (s : State) : (applyReset s).pb = State.reset.pb := rfl
@[simp] theorem applyReset_plen (s : State) : (applyReset s).plen = State.reset.plen := rfl
@[simp] theorem applyReset_ib (s : State) : (applyReset s).ib = State.reset.ib := rfl
@[simp] theorem applyReset_ilen (s : State) : (applyReset s).ilen = State.reset.ilen := rfl
@[simp] theorem applyReset_tvalid (s : State) : (applyReset s).tvalid = State.reset.tvalid := rfl
@[simp] theorem applyReset_nsym (s : State) : (applyReset s).nsym = State.reset.nsym := rfl
@[simp] theorem applyReset_nnode (s : State) : (applyReset s).nnode = State.reset.nnode := rfl
@[simp] theorem applyReset_root (s : State) : (applyReset s).root = State.reset.root := rfl
@[simp] theorem applyReset_node (s : State) : (applyReset s).node = State.reset.node := rfl
@[simp] theorem applyReset_ct (s : State) : (applyReset s).ct = State.reset.ct := rfl
@[simp] theorem applyReset_ob (s : State) : (applyReset s).ob = State.reset.ob := rfl
@[simp] theorem applyReset_olen (s : State) : (applyReset s).olen = State.reset.olen := rfl
@[simp] theorem applyReset_tb (s : State) : (applyReset s).tb = State.reset.tb := rfl
@[simp] theorem applyReset_tlen (s : State) : (applyReset s).tlen = State.reset.tlen := rfl
@[simp] theorem applyReset_dtrunc (s : State) : (applyReset s).dtrunc = State.reset.dtrunc := rfl
@[simp] theorem applyReset_cmds (s : State) : (applyReset s).cmds = s.cmds := rfl
@[simp] theorem applyReset_rsps (s : State) : (applyReset s).rsps = s.rsps := rfl

/-! ### The reset state -/

@[simp] theorem reset_pb : State.reset.pb = [] := rfl
@[simp] theorem reset_plen : State.reset.plen = 0 := rfl
@[simp] theorem reset_ib : State.reset.ib = [] := rfl
@[simp] theorem reset_ilen : State.reset.ilen = 0 := rfl
@[simp] theorem reset_tvalid : State.reset.tvalid = false := rfl
@[simp] theorem reset_nsym : State.reset.nsym = 0 := rfl
@[simp] theorem reset_nnode : State.reset.nnode = 0 := rfl
@[simp] theorem reset_root : State.reset.root = 0#13 := rfl
@[simp] theorem reset_node : State.reset.node = [] := rfl
@[simp] theorem reset_ct : State.reset.ct = [] := rfl
@[simp] theorem reset_ob : State.reset.ob = [] := rfl
@[simp] theorem reset_olen : State.reset.olen = 0 := rfl
@[simp] theorem reset_tb : State.reset.tb = [] := rfl
@[simp] theorem reset_tlen : State.reset.tlen = 0 := rfl
@[simp] theorem reset_dtrunc : State.reset.dtrunc = false := rfl
@[simp] theorem reset_cmds : State.reset.cmds = [] := rfl
@[simp] theorem reset_rsps : State.reset.rsps = [] := rfl

/-! ### What the host sends next -/

theorem nextEvent_nil (s : State) (h : s.cmds = []) : nextEvent s = none := by simp [nextEvent, h]

theorem nextEvent_cons (s : State) (e : HostEvent) (rest : List HostEvent) (h : s.cmds = e :: rest) :
    nextEvent s = some (e, { s with cmds := rest }) := by simp [nextEvent, h]

end Sys2Proof.Machine
end

