-- ==== Sys2Proof/Laws/Storage.lean ====
section
/-! SUPPORT. What reading the spaces gives: an element that is held is read as it stands, and in canonical form nothing
else is ever read. -/

namespace Sys2Proof.Machine

variable {α : Type}

theorem cell_of_lt (free : Nat → α) (l : List α) {j : Nat} (h : j < l.length) : cell free l j = l[j] := by
  simp [cell, List.getD_eq_getElem?_getD, h]

theorem cell_append_left (free : Nat → α) (l m : List α) {j : Nat} (h : j < l.length) :
    cell free (l ++ m) j = cell free l j := by
  have h' : j < (l ++ m).length := by simp; omega
  rw [cell_of_lt free _ h', cell_of_lt free _ h, List.getElem_append_left h]

theorem cell_append_length (free : Nat → α) (l : List α) (x : α) : cell free (l ++ [x]) l.length = x := by
  simp [cell]

@[simp] theorem cells_length (free : Nat → α) (l : List α) (n : Nat) : (cells free l n).length = n := by
  simp [cells]; omega

theorem cells_self (free : Nat → α) (l : List α) {n : Nat} (h : l.length = n) : cells free l n = l := by
  subst h; simp [cells]

/-- Element `j` of the elements 0 to n − 1 is element `j` of the space. -/
theorem cells_getElem (free : Nat → α) (l : List α) {n j : Nat} (h : j < n) :
    (cells free l n)[j]'(by simpa using h) = cell free l j := by
  by_cases hj : j < l.length
  · rw [cell_of_lt free l hj]
    simp only [cells]
    rw [List.getElem_append_left (by simp; omega)]
    simp
  · simp only [cells]
    rw [List.getElem_append_right (by simp; omega)]
    simp [cell, List.getD_eq_getElem?_getD, List.getElem?_eq_none (by omega : l.length ≤ j)]
    congr 1; omega

/-- Reading the space `elements 0 to n − 1, then x`, which is what an append leaves. -/
theorem cell_append_cells (free : Nat → α) (l : List α) (n : Nat) (x : α) {j : Nat} (h : j < n) :
    cell free (cells free l n ++ [x]) j = cell free l j := by
  rw [cell_append_left free _ _ (by simpa using h), cell_of_lt free _ (by simpa using h), cells_getElem free l h]

@[simp] theorem phraseOf_length (s : State) : (phraseOf s).length = s.plen := by simp [phraseOf]

@[simp] theorem inputOf_length (s : State) : (inputOf s).length = s.ilen := by simp [inputOf]

/-- The canonical form, one space at a time. -/
theorem memory_wf_iff (s : State) : Memory.wf s = true ↔
    s.pb.length = s.plen ∧ s.ib.length = s.ilen ∧ s.node.length = s.nnode ∧ s.ct.length = s.nsym ∧
    s.ob.length = s.olen ∧ s.tb.length = s.tlen ∧ ∀ r ∈ s.ct, r.bits.length = r.len.toNat := by
  simp [Memory.wf, and_assoc]

theorem phraseOf_of_wf {s : State} (h : Memory.wf s = true) : phraseOf s = s.pb :=
  cells_self _ _ ((memory_wf_iff s).1 h).1

theorem inputOf_of_wf {s : State} (h : Memory.wf s = true) : inputOf s = s.ib :=
  cells_self _ _ ((memory_wf_iff s).1 h).2.1

/-! ### Every memory operation keeps the canonical form -/

theorem reset_wf : Memory.wf State.reset = true := by decide

theorem respond_wf {s : State} (st : Status) (d : Data) (h : Memory.wf s = true) : Memory.wf (respond st d s) = true := h

theorem appendPb_wf {s : State} (c : Symbol) (h : Memory.wf s = true) : Memory.wf (appendPb c s) = true := by
  rw [memory_wf_iff] at h ⊢; simpa using h.2

theorem clearPb_wf {s : State} (h : Memory.wf s = true) : Memory.wf (clearPb s) = true := by
  rw [memory_wf_iff] at h ⊢; simpa using h.2

theorem appendIb_wf {s : State} (c : Symbol) (h : Memory.wf s = true) : Memory.wf (appendIb c s) = true := by
  rw [memory_wf_iff] at h ⊢; simpa using ⟨h.1, h.2.2⟩

theorem clearIb_wf {s : State} (h : Memory.wf s = true) : Memory.wf (clearIb s) = true := by
  rw [memory_wf_iff] at h ⊢; simpa using ⟨h.1, h.2.2⟩

theorem setDecoded_wf {s : State} (t : List Symbol) (v : Bool) (h : Memory.wf s = true) :
    Memory.wf (setDecoded t v s) = true := by
  rw [memory_wf_iff] at h ⊢
  obtain ⟨h1, h2, h3, h4, h5, -, h7⟩ := h
  exact ⟨h1, h2, h3, h4, h5, rfl, h7⟩

theorem clearDecoded_wf {s : State} (h : Memory.wf s = true) : Memory.wf (clearDecoded s) = true :=
  setDecoded_wf [] false h

theorem commitBuild_wf {s : State} {b : Built} (h : Memory.wf s = true) (hn : b.nodes.length = 2 * b.n - 1)
    (hc : b.codes.length = b.n) (hl : ∀ r ∈ b.codes, r.bits.length = r.len.toNat) :
    Memory.wf (commitBuild b s) = true := by
  rw [memory_wf_iff] at h ⊢
  obtain ⟨h1, h2, -, -, -, h6, -⟩ := h
  exact ⟨h1, h2, hn, hc, rfl, h6, hl⟩

theorem applyReset_wf (s : State) : Memory.wf (applyReset s) = true := by
  rw [memory_wf_iff]; simp

end Sys2Proof.Machine
end

