-- ==== Sys2Proof/Laws/FrequencyCounter.lean ====
section
/-! SUPPORT. What FC computes (40_frequency_counter.md R90, R91). -/

namespace Sys2Proof.Machine

/-- The symbols of a frequency table, in its order. -/
def ftSyms (ft : List FtEntry) : List Symbol := ft.map (·.sym)

/-- `ft` is the frequency table of `p`: its distinct characters in order of first occurrence, each with its count. -/
structure CountedBy (p : List Symbol) (ft : List FtEntry) : Prop where
  nodup : (ftSyms ft).Nodup
  mem : ∀ c, c ∈ ftSyms ft ↔ c ∈ p
  cnt : ∀ e ∈ ft, e.cnt = p.count e.sym
  order : (ftSyms ft).Pairwise (fun x y => p.idxOf x < p.idxOf y)

theorem countedBy_nil : CountedBy [] [] :=
  ⟨List.nodup_nil, by simp [ftSyms], by simp, List.Pairwise.nil⟩

theorem CountedBy.length {p : List Symbol} {ft : List FtEntry} (h : CountedBy p ft) : ft.length = p.dedup.length := by
  have hp : (ftSyms ft).Perm p.dedup :=
    (List.perm_ext_iff_of_nodup h.nodup (List.nodup_dedup p)).2 (fun c => by rw [h.mem, List.mem_dedup])
  simpa [ftSyms] using hp.length_eq

theorem CountedBy.length_le {p : List Symbol} {ft : List FtEntry} (h : CountedBy p ft) : ft.length ≤ p.length := by
  rw [h.length]; exact (List.dedup_sublist p).length_le

theorem any_sym_iff (ft : List FtEntry) (c : Symbol) : ft.any (fun e => e.sym == c) = true ↔ c ∈ ftSyms ft := by
  simp [ftSyms]

/-- Counting one more character: some table where there is room, `none` where the character is new and there is not. -/
theorem countChar_spec {p : List Symbol} {ft : List FtEntry} (m : Nat) (c : Symbol) (h : CountedBy p ft)
    (hm : ft.length ≤ m) :
    (∃ ft', countChar m ft c = some ft' ∧ CountedBy (p ++ [c]) ft' ∧ ft'.length ≤ m) ∨
    (countChar m ft c = none ∧ m < (p ++ [c]).dedup.length) := by
  have hidx : ∀ x ∈ p, (p ++ [c]).idxOf x = p.idxOf x := fun x hx => List.idxOf_append_of_mem hx
  by_cases hc : c ∈ ftSyms ft
  · left
    have hs : ftSyms (ft.map (fun e => if e.sym == c then { e with cnt := e.cnt + 1 } else e)) = ftSyms ft := by
      simp only [ftSyms, List.map_map]
      apply List.map_congr_left
      intro e _
      simp only [Function.comp]
      split <;> rfl
    refine ⟨_, if_pos ((any_sym_iff ft c).2 hc), ⟨hs ▸ h.nodup, fun x => ?_, ?_, ?_⟩, by simpa using hm⟩
    · rw [hs, h.mem]
      have := (h.mem c).1 hc
      simp only [List.mem_append, List.mem_singleton]
      constructor
      · exact Or.inl
      · rintro (hx | rfl) <;> assumption
    · intro e he
      obtain ⟨e', he', rfl⟩ := List.mem_map.1 he
      have hcnt := h.cnt e' he'
      by_cases hec : e'.sym = c
      · subst hec; simp [hcnt]
      · simp [hec, hcnt, List.count_append, Ne.symm hec]
    · rw [hs]
      refine h.order.imp_of_mem (fun {x y} hx hy hxy => ?_)
      rw [hidx x ((h.mem x).1 hx), hidx y ((h.mem y).1 hy)]; exact hxy
  · have hcp : c ∉ p := fun hp => hc ((h.mem c).2 hp)
    have hany : ft.any (fun e => e.sym == c) ≠ true := fun ha => hc ((any_sym_iff ft c).1 ha)
    have hnew : CountedBy (p ++ [c]) (ft ++ [{ sym := c, cnt := 1 }]) := by
      have hs : ftSyms (ft ++ [{ sym := c, cnt := 1 }]) = ftSyms ft ++ [c] := by simp [ftSyms]
      refine ⟨?_, fun x => ?_, ?_, ?_⟩
      · rw [hs]
        exact List.nodup_append.2 ⟨h.nodup, by simp, by
          intro x hx y hy; simp only [List.mem_singleton] at hy; subst hy; intro e; subst e; exact hc hx⟩
      · rw [hs]; simp [h.mem]
      · intro e he
        rcases List.mem_append.1 he with he | he
        · have hne : e.sym ≠ c := fun hh => hc (hh ▸ List.mem_map.2 ⟨e, he, rfl⟩)
          simp [h.cnt e he, List.count_append, Ne.symm hne]
        · simp only [List.mem_singleton] at he
          subst he
          simp [List.count_append, List.count_eq_zero.2 hcp]
      · rw [hs, List.pairwise_append]
        refine ⟨h.order.imp_of_mem (fun {x y} hx hy hxy => ?_), by simp, ?_⟩
        · rw [hidx x ((h.mem x).1 hx), hidx y ((h.mem y).1 hy)]; exact hxy
        · intro x hx y hy
          simp only [List.mem_singleton] at hy
          subst hy
          rw [hidx x ((h.mem x).1 hx), List.idxOf_append_of_notMem hcp]
          have := List.idxOf_lt_length_of_mem ((h.mem x).1 hx)
          simp; omega
    by_cases hfull : ft.length = m
    · right
      refine ⟨by simp [countChar, hany, hfull], ?_⟩
      rw [← hnew.length]; simp; omega
    · left
      exact ⟨_, by simp [countChar, hany, hfull], hnew, by simp; omega⟩

theorem countFrom_spec (m : Nat) : ∀ (cs p : List Symbol) (ft : List FtEntry), CountedBy p ft → ft.length ≤ m →
    (∃ ft', countFrom m ft cs = some ft' ∧ CountedBy (p ++ cs) ft' ∧ ft'.length ≤ m) ∨
    (countFrom m ft cs = none ∧ m < (p ++ cs).dedup.length)
  | [], p, ft, h, hm => Or.inl ⟨ft, rfl, by simpa using h, hm⟩
  | c :: cs, p, ft, h, hm => by
    rcases countChar_spec m c h hm with ⟨ft', he, h', hm'⟩ | ⟨he, hlt⟩
    · have := countFrom_spec m cs (p ++ [c]) ft' h' hm'
      simpa [countFrom, he] using this
    · right
      refine ⟨by simp [countFrom, he], lt_of_lt_of_le hlt ?_⟩
      have hsub : (p ++ [c]).dedup ⊆ (p ++ c :: cs).dedup := by
        intro x hx
        rw [List.mem_dedup] at hx ⊢
        simp only [List.mem_append, List.mem_cons] at hx ⊢
        tauto
      exact ((List.nodup_dedup _).subperm hsub).length_le

/-- FC gives the frequency table of the phrase, or `none` exactly when it has more than NSYM_MAX distinct symbols. -/
theorem frequencyTable_spec (m : Nat) (p : List Symbol) :
    (∃ ft, frequencyTable m p = some ft ∧ CountedBy p ft ∧ ft.length ≤ m) ∨
    (frequencyTable m p = none ∧ m < p.dedup.length) :=
  countFrom_spec m p [] [] countedBy_nil (Nat.zero_le _)

theorem frequencyTable_some {m : Nat} {p : List Symbol} {ft : List FtEntry} (h : frequencyTable m p = some ft) :
    CountedBy p ft ∧ ft.length ≤ m := by
  rcases frequencyTable_spec m p with ⟨ft', he, h'⟩ | ⟨he, -⟩
  · rw [h] at he; cases he; exact h'
  · rw [h] at he; cases he

end Sys2Proof.Machine
end

