-- ==== Sys2Proof/Laws/TreeBuilder.lean ====
section
/-! SUPPORT. What TB computes: the comparator is a strict total order on the nodes in Q (41_tree_builder.md R105), and the
merge loop makes the tree of R107 and R111. -/

namespace Sys2Proof.Machine

open Sys2Proof.Safety

/-! ### The comparator -/

theorem keyLt_iff (x y : Key) : keyLt x y = true ↔
    x.freq < y.freq ∨ (x.freq = y.freq ∧ (x.cat < y.cat ∨ (x.cat = y.cat ∧ x.tie < y.tie))) := by
  simp [keyLt]

theorem keyLt_irrefl (x : Key) : keyLt x x = false := by
  rw [Bool.eq_false_iff, Ne, keyLt_iff]; omega

theorem keyLt_trans {x y z : Key} (h : keyLt x y = true) (h' : keyLt y z = true) : keyLt x z = true := by
  rw [keyLt_iff] at *; omega

theorem keyLt_of_lt_of_not_lt {x y z : Key} (h : keyLt x z = true) (h' : keyLt y z = false) : keyLt x y = true := by
  rw [Bool.eq_false_iff, Ne, keyLt_iff] at h'
  rw [keyLt_iff] at *; omega

theorem keyLt_total {x y : Key} (h : x ≠ y) : keyLt x y = true ∨ keyLt y x = true := by
  rw [keyLt_iff, keyLt_iff]
  by_contra hc
  apply h
  cases x; cases y
  simp only [Key.mk.injEq] at *
  omega

/-- Two different nodes of an arena whose Leaves have different symbols have different keys (R105). -/
theorem keyOf_ne {a : List Node} {n x y : Nat} (hk : ∀ i < n, (nodeOf a i).kind = .leaf)
    (hi : ∀ i, n ≤ i → i < a.length → (nodeOf a i).kind = .internal)
    (hs : ∀ i j, i < j → j < n → (nodeOf a i).sym ≠ (nodeOf a j).sym)
    (hx : x < a.length) (hy : y < a.length) (hne : x ≠ y) : keyOf a x ≠ keyOf a y := by
  intro he
  by_cases hxn : x < n <;> by_cases hyn : y < n
  · have hsym : (nodeOf a x).sym = (nodeOf a y).sym := by
      simp only [keyOf, hk x hxn, hk y hyn, Key.mk.injEq] at he
      exact BitVec.eq_of_toNat_eq he.2.2
    rcases Nat.lt_or_gt_of_ne hne with h | h
    · exact hs x y h hyn hsym
    · exact hs y x h hxn hsym.symm
  · simp only [keyOf, hk x hxn, hi y (by omega) hy, Key.mk.injEq] at he
    have := he.2.1
    split at this <;> omega
  · simp only [keyOf, hk y hyn, hi x (by omega) hx, Key.mk.injEq] at he
    have := he.2.1
    split at this <;> omega
  · simp only [keyOf, hi x (by omega) hx, hi y (by omega) hy, Key.mk.injEq] at he
    omega

/-! ### The node of highest priority -/

theorem leastFrom_mem (a : List Node) : ∀ (vs : List Nat) (m : Nat), leastFrom a m vs ∈ m :: vs
  | [], m => by simp [leastFrom]
  | v :: vs, m => by
    have := leastFrom_mem a vs (if higherPriority a v m then v else m)
    simp only [leastFrom, List.mem_cons] at this ⊢
    rcases this with h | h
    · rw [h]; split <;> simp
    · exact Or.inr (Or.inr h)

theorem leastFrom_least (a : List Node) : ∀ (vs : List Nat) (m : Nat), ∀ u ∈ m :: vs,
    higherPriority a u (leastFrom a m vs) = false
  | [], m, u, hu => by
    simp only [List.mem_singleton] at hu
    subst hu
    exact keyLt_irrefl _
  | v :: vs, m, u, hu => by
    have ih := leastFrom_least a vs (if higherPriority a v m then v else m)
    have hm := ih _ (List.mem_cons_self)
    simp only [leastFrom]
    have hmid : ∀ w, (w = m ∨ w = v) →
        higherPriority a w (if higherPriority a v m = true then v else m) = false := by
      rintro w (rfl | rfl) <;> split <;> rename_i hvm
      · rw [Bool.eq_false_iff]; intro hc
        have := keyLt_trans hvm hc
        rw [keyLt_irrefl] at this; cases this
      · exact keyLt_irrefl _
      · exact keyLt_irrefl _
      · simpa using hvm
    have hchain : ∀ w, (w = m ∨ w = v) → higherPriority a w
        (leastFrom a (if higherPriority a v m = true then v else m) vs) = false := by
      intro w hw
      rw [Bool.eq_false_iff]; intro hc
      exact absurd (keyLt_of_lt_of_not_lt hc hm) (by rw [← higherPriority, hmid w hw]; simp)
    rcases List.mem_cons.1 hu with rfl | hu
    · exact hchain _ (Or.inl rfl)
    · rcases List.mem_cons.1 hu with rfl | hu
      · exact hchain _ (Or.inr rfl)
      · exact ih u (List.mem_cons_of_mem _ hu)

/-- What one extraction does, on a Q whose nodes have different keys: it removes the node of highest priority. -/
theorem extractLeast_spec {a : List Node} {q : List Nat} (hq : q ≠ [])
    (hne : ∀ x ∈ q, ∀ y ∈ q, x ≠ y → keyOf a x ≠ keyOf a y) :
    ∃ x q', extractLeast a q = some (x, q') ∧ q.Perm (x :: q') ∧
      ∀ v ∈ q, v ≠ x → higherPriority a x v = true := by
  obtain _ | ⟨w, ws⟩ := q
  · exact absurd rfl hq
  · have hmem := leastFrom_mem a ws w
    refine ⟨_, _, rfl, List.perm_cons_erase hmem, fun v hv hvx => ?_⟩
    rcases keyLt_total (hne _ hmem v hv (Ne.symm hvx)) with h | h
    · exact h
    · have := leastFrom_least a ws w v hv
      simp only [higherPriority] at this
      rw [h] at this; cases this

/-! ### Reading an arena that grows -/

theorem nodeOf_append_left {a b : List Node} {i : Nat} (h : i < a.length) : nodeOf (a ++ b) i = nodeOf a i :=
  cell_append_left _ _ _ h

theorem nodeOf_append_length (a : List Node) (d : Node) : nodeOf (a ++ [d]) a.length = d :=
  cell_append_length _ _ _

theorem nodeOf_eq_getElem {a : List Node} {i : Nat} (h : i < a.length) : nodeOf a i = a[i] := cell_of_lt _ _ h

theorem keyOf_append_left {a b : List Node} {i : Nat} (h : i < a.length) : keyOf (a ++ b) i = keyOf a i := by
  simp only [keyOf, nodeOf_append_left h]

theorem higherPriority_append_left {a b : List Node} {x y : Nat} (hx : x < a.length) (hy : y < a.length) :
    higherPriority (a ++ b) x y = higherPriority a x y := by
  simp only [higherPriority, keyOf_append_left hx, keyOf_append_left hy]

theorem childList_append (a b : List Node) : childList (a ++ b) = childList a ++ childList b := by
  simp [childList]

theorem mem_childList {a : List Node} {v : Nat} : v ∈ childList a ↔
    ∃ i, i < a.length ∧ (nodeOf a i).kind = .internal ∧ ((nodeOf a i).left.toNat = v ∨ (nodeOf a i).right.toNat = v) := by
  simp only [childList, List.mem_flatMap]
  constructor
  · rintro ⟨d, hd, hv⟩
    obtain ⟨i, hi, rfl⟩ := List.getElem_of_mem hd
    refine ⟨i, hi, ?_⟩
    rw [nodeOf_eq_getElem hi]
    unfold childrenOf at hv
    split at hv
    · cases hv
    · rename_i hk
      simp only [List.mem_cons, List.not_mem_nil, or_false] at hv
      exact ⟨hk, by tauto⟩
  · rintro ⟨i, hi, hk, hv⟩
    rw [nodeOf_eq_getElem hi] at hk hv
    refine ⟨a[i], List.getElem_mem hi, ?_⟩
    simp only [childrenOf, hk, List.mem_cons, List.not_mem_nil, or_false]
    tauto

/-! ### The merge loop -/

/-- What holds before every pass of the merge loop, with `n` leaves, `a` the arena so far and `q` the collection:
the loop invariant of R107. -/
structure MergeInv (n total : Nat) (a : List Node) (q : List Nat) : Prop where
  le : n ≤ a.length
  leaf : ∀ i < n, (nodeOf a i).kind = .leaf
  sym_ne : ∀ i j, i < j → j < n → (nodeOf a i).sym ≠ (nodeOf a j).sym
  perm : (childList a ++ q).Perm (List.range a.length)
  merges : MergesOf n a
  sum : (q.map (fun v => (nodeOf a v).freq.toNat)).sum = total

namespace MergeInv

variable {n total : Nat} {a : List Node} {q : List Nat}

theorem mem_q (h : MergeInv n total a q) (v : Nat) : v ∈ q ↔ v < a.length ∧ v ∉ childList a := by
  have hmem := h.perm.mem_iff (a := v)
  have hnd : (childList a ++ q).Nodup := h.perm.nodup_iff.2 List.nodup_range
  have hdis := List.disjoint_of_nodup_append hnd
  simp only [List.mem_append, List.mem_range] at hmem
  constructor
  · intro hv; exact ⟨hmem.1 (Or.inr hv), fun hc => hdis hc hv⟩
  · rintro ⟨hv, hc⟩; rcases hmem.2 hv with h' | h'
    · exact absurd h' hc
    · exact h'

theorem q_nodup (h : MergeInv n total a q) : q.Nodup :=
  (List.nodup_append.1 (h.perm.nodup_iff.2 List.nodup_range)).2.1

/-- Q of the invariant is Q of the declarative description. -/
theorem mem_q_iff (h : MergeInv n total a q) (v : Nat) : v ∈ q ↔ InQueue a n a.length v := by
  rw [h.mem_q, InQueue, and_congr_right_iff]
  intro _
  rw [mem_childList]
  constructor
  · intro hc j hnj hj
    have hk := (h.merges.internal j hnj hj).1
    exact ⟨fun e => hc ⟨j, hj, hk, Or.inl e⟩, fun e => hc ⟨j, hj, hk, Or.inr e⟩⟩
  · rintro hc ⟨j, hj, hk, hv⟩
    by_cases hjn : j < n
    · rw [h.leaf j hjn] at hk; cases hk
    · have := hc j (by omega) hj
      tauto

theorem key_ne (h : MergeInv n total a q) : ∀ x ∈ q, ∀ y ∈ q, x ≠ y → keyOf a x ≠ keyOf a y := by
  intro x hx y hy hxy
  exact keyOf_ne h.leaf (fun i hi hl => (h.merges.internal i hi hl).1) h.sym_ne ((h.mem_q x).1 hx).1
    ((h.mem_q y).1 hy).1 hxy

end MergeInv

theorem inQueue_append {a b : List Node} {n i v : Nat} (h : i ≤ a.length) :
    InQueue (a ++ b) n i v ↔ InQueue a n i v := by
  unfold InQueue
  refine and_congr_right fun _ => ?_
  constructor
  · intro hc j hj hji
    have := hc j hj hji
    rwa [nodeOf_append_left (by omega)] at this
  · intro hc j hj hji
    rw [nodeOf_append_left (by omega)]
    exact hc j hj hji

/-- One pass of the merge loop keeps the invariant. -/
theorem MergeInv.pass {n total : Nat} {a : List Node} {q q₁ q₂ : List Nat} {x y : Nat} (h : MergeInv n total a q)
    (hcap : a.length < 8191) (htot : total < 2 ^ 24)
    (hq₁ : q.Perm (x :: q₁)) (hx : ∀ v ∈ q, v ≠ x → higherPriority a x v = true)
    (hq₂ : q₁.Perm (y :: q₂)) (hy : ∀ v ∈ q₁, v ≠ y → higherPriority a y v = true) :
    MergeInv n total (a ++ [internalOf a x y]) (q₂ ++ [a.length]) := by
  have hqq : q.Perm (x :: y :: q₂) := hq₁.trans (hq₂.cons x)
  have hnd : (x :: y :: q₂).Nodup := hqq.nodup_iff.1 h.q_nodup
  have hxq : x ∈ q := hqq.mem_iff.2 (by simp)
  have hyq : y ∈ q := hqq.mem_iff.2 (by simp)
  have hxy : x ≠ y := by
    intro e; subst e; simp at hnd
  have hxl := ((h.mem_q x).1 hxq).1
  have hyl := ((h.mem_q y).1 hyq).1
  have hleft : (internalOf a x y).left.toNat = x := by
    simp only [internalOf, BitVec.toNat_ofNat]; omega
  have hright : (internalOf a x y).right.toNat = y := by
    simp only [internalOf, BitVec.toNat_ofNat]; omega
  have hchild : childList [internalOf a x y] = [x, y] := by
    simp only [childList, List.flatMap_cons, List.flatMap_nil, List.append_nil, childrenOf, hleft, hright]
    simp [internalOf]
  have hsum2 : (nodeOf a x).freq.toNat + ((nodeOf a y).freq.toNat +
      (q₂.map (fun v => (nodeOf a v).freq.toNat)).sum) = total := by
    have := (hqq.map (fun v => (nodeOf a v).freq.toNat)).sum_eq
    rw [h.sum] at this
    simpa using this.symm
  have hfreq : (internalOf a x y).freq.toNat = (nodeOf a x).freq.toNat + (nodeOf a y).freq.toNat := by
    simp only [internalOf, BitVec.toNat_add]
    exact Nat.mod_eq_of_lt (by omega)
  have hq₂l : ∀ v ∈ q₂, v < a.length := fun v hv => ((h.mem_q v).1 (hqq.mem_iff.2 (by simp [hv]))).1
  have hxfirst : higherPriority a x y = true := hx y hyq (Ne.symm hxy)
  have hin : ∀ v, InQueue a n a.length v ↔ v ∈ q := fun v => (h.mem_q_iff v).symm
  have hlen : (a ++ [internalOf a x y]).length = a.length + 1 := by simp
  refine ⟨by rw [hlen]; have := h.le; omega, ?_, ?_, ?_, ?_, ?_⟩
  · intro i hi
    rw [nodeOf_append_left (by have := h.le; omega)]; exact h.leaf i hi
  · intro i j hij hj
    have := h.le
    rw [nodeOf_append_left (by omega), nodeOf_append_left (by omega)]
    exact h.sym_ne i j hij hj
  · rw [childList_append, hchild, hlen, List.range_succ]
    have h1 : (childList a ++ [x, y] ++ (q₂ ++ [a.length])).Perm ((childList a ++ (x :: y :: q₂)) ++ [a.length]) := by
      simp
    exact h1.trans ((((hqq.symm.append_left (childList a))).trans h.perm).append_right [a.length])
  · -- the new node is the node of this merge; the earlier ones are as they were
    have hold : ∀ i, n ≤ i → i < a.length → nodeOf (a ++ [internalOf a x y]) i = nodeOf a i := fun i _ hi =>
      nodeOf_append_left hi
    have hnew := nodeOf_append_length a (internalOf a x y)
    have hcase : ∀ i, i < (a ++ [internalOf a x y]).length → i < a.length ∨ i = a.length := by
      intro i hi; rw [hlen] at hi; omega
    have hkids : ∀ i, n ≤ i → i < a.length →
        (nodeOf a i).left.toNat < a.length ∧ (nodeOf a i).right.toNat < a.length := fun i hn hi => by
      have := h.merges.queued i hn hi
      exact ⟨by have := this.1.1; omega, by have := this.2.1; omega⟩
    refine ⟨?_, ?_, ?_, ?_, ?_, ?_⟩
    · intro i hn hi
      rcases hcase i hi with hi | rfl
      · rw [hold i hn hi]; exact h.merges.internal i hn hi
      · rw [hnew]; exact ⟨rfl, rfl⟩
    · intro i hn hi
      rcases hcase i hi with hi | rfl
      · rw [hold i hn hi, nodeOf_append_left (hkids i hn hi).1, nodeOf_append_left (hkids i hn hi).2]
        exact h.merges.freq i hn hi
      · rw [hnew, hleft, hright, nodeOf_append_left hxl, nodeOf_append_left hyl, hfreq]
    · intro i hn hi
      rcases hcase i hi with hi | rfl
      · rw [hold i hn hi, inQueue_append hi.le, inQueue_append hi.le]
        exact h.merges.queued i hn hi
      · rw [hnew, hleft, hright, inQueue_append le_rfl, inQueue_append le_rfl, hin, hin]
        exact ⟨hxq, hyq⟩
    · intro i hn hi v hv hvl
      rcases hcase i hi with hi | rfl
      · rw [hold i hn hi] at hvl ⊢
        rw [inQueue_append hi.le] at hv
        rw [higherPriority_append_left (hkids i hn hi).1 (by have := hv.1; omega)]
        exact h.merges.first i hn hi v hv hvl
      · rw [hnew, hleft] at hvl ⊢
        rw [inQueue_append le_rfl] at hv
        rw [higherPriority_append_left hxl hv.1]
        exact hx v ((hin v).1 hv) hvl
    · intro i hn hi v hv hvl hvr
      rcases hcase i hi with hi | rfl
      · rw [hold i hn hi] at hvl hvr ⊢
        rw [inQueue_append hi.le] at hv
        rw [higherPriority_append_left (hkids i hn hi).2 (by have := hv.1; omega)]
        exact h.merges.second i hn hi v hv hvl hvr
      · rw [hnew, hleft] at hvl
        rw [hnew, hright] at hvr ⊢
        rw [inQueue_append le_rfl] at hv
        rw [higherPriority_append_left hyl hv.1]
        have hvq := hq₁.mem_iff.1 ((hin v).1 hv)
        rcases List.mem_cons.1 hvq with rfl | hvq
        · exact absurd rfl hvl
        · exact hy v hvq hvr
    · intro i hn hi
      rcases hcase i hi with hi | rfl
      · rw [hold i hn hi]; exact h.merges.apart i hn hi
      · rw [hnew]
        intro e
        apply hxy
        exact hleft.symm.trans ((congrArg BitVec.toNat e).trans hright)
  · have hmap : q₂.map (fun v => (nodeOf (a ++ [internalOf a x y]) v).freq.toNat) =
        q₂.map (fun v => (nodeOf a v).freq.toNat) :=
      List.map_congr_left (fun v hv => by rw [nodeOf_append_left (hq₂l v hv)])
    rw [List.map_append, List.sum_append, hmap]
    simp only [List.map_cons, List.map_nil, List.sum_cons, List.sum_nil, nodeOf_append_length, hfreq]
    omega

/-- The whole merge loop: it makes `k` Internal nodes, keeps the nodes there are, and ends with one node in Q. -/
theorem mergeLoop_spec {n total : Nat} (htot : total < 2 ^ 24) : ∀ (k : Nat) (a : List Node) (q : List Nat),
    MergeInv n total a q → q.length = k + 1 → a.length + k ≤ 8191 →
    ∃ q', MergeInv n total (mergeLoop k a q) q' ∧ q'.length = 1 ∧ (mergeLoop k a q).length = a.length + k ∧
      ∀ i < a.length, nodeOf (mergeLoop k a q) i = nodeOf a i
  | 0, a, q, h, hl, _ => ⟨q, h, hl, rfl, fun _ _ => rfl⟩
  | k + 1, a, q, h, hl, hcap => by
    obtain ⟨x, q₁, he₁, hq₁, hx⟩ := extractLeast_spec (a := a) (q := q) (by intro e; simp [e] at hl) h.key_ne
    have hl₁ : q₁.length = k + 1 := by have := hq₁.length_eq; simp at this; omega
    have hsub : ∀ v ∈ q₁, v ∈ q := fun v hv => hq₁.mem_iff.2 (List.mem_cons_of_mem _ hv)
    obtain ⟨y, q₂, he₂, hq₂, hy⟩ := extractLeast_spec (a := a) (q := q₁) (by intro e; simp [e] at hl₁)
      (fun u hu v hv => h.key_ne u (hsub u hu) v (hsub v hv))
    have hl₂ : q₂.length = k := by have := hq₂.length_eq; simp at this; omega
    have hp := h.pass (by omega) htot hq₁ hx hq₂ hy
    obtain ⟨q', hm, hl', hlen, hkeep⟩ := mergeLoop_spec htot k (a ++ [internalOf a x y]) (q₂ ++ [a.length]) hp
      (by simp [hl₂]) (by simp; omega)
    have hstep : mergeLoop (k + 1) a q = mergeLoop k (a ++ [internalOf a x y]) (q₂ ++ [a.length]) := by
      simp [mergeLoop, he₁, he₂]
    rw [hstep]
    refine ⟨q', hm, hl', by rw [hlen]; simp; omega, fun i hi => ?_⟩
    rw [hkeep i (by simp; omega), nodeOf_append_left hi]

/-- Q has one element at the end, and it is the node made last, ROOT (R107). -/
theorem MergeInv.root_in_q {n total : Nat} {a : List Node} {q : List Nat} (h : MergeInv n total a q) (ha : 0 < a.length)
    (hq : q.length = 1) : q = [a.length - 1] := by
  obtain ⟨r, rfl⟩ := List.length_eq_one_iff.1 hq
  have hmem : a.length - 1 ∈ [r] := by
    rw [h.mem_q_iff]
    refine ⟨by omega, fun j hj hjl => ?_⟩
    have := h.merges.queued j hj hjl
    have h1 := this.1.1
    have h2 := this.2.1
    omega
  simp only [List.mem_singleton] at hmem
  rw [hmem]

/-! ### The tree of a frequency table -/

theorem leaves_nodeOf {ft : List FtEntry} {i : Nat} (h : i < ft.length) : nodeOf (ft.map leafOf) i = leafOf ft[i] := by
  rw [nodeOf_eq_getElem (by simpa using h)]; simp

theorem CountedBy.sum_cnt {p : List Symbol} {ft : List FtEntry} (h : CountedBy p ft) :
    (ft.map (·.cnt)).sum = p.length := by
  have h1 : ft.map (·.cnt) = (ftSyms ft).map (fun c => p.count c) := by
    simp only [ftSyms, List.map_map]
    exact List.map_congr_left (fun e he => h.cnt e he)
  have h2 : (ftSyms ft).Perm p.dedup :=
    (List.perm_ext_iff_of_nodup h.nodup (List.nodup_dedup p)).2 (fun c => by rw [h.mem, List.mem_dedup])
  rw [h1, (h2.map _).sum_eq]
  exact List.sum_map_count_dedup_eq_length p

theorem CountedBy.cnt_le {p : List Symbol} {ft : List FtEntry} (h : CountedBy p ft) {e : FtEntry} (he : e ∈ ft) :
    e.cnt ≤ p.length := by
  rw [h.cnt e he]; exact List.count_le_length

/-- The loop invariant holds of the leaves (R101). -/
theorem mergeInv_leaves {p : List Symbol} {ft : List FtEntry} (h : CountedBy p ft) (hp : p.length < 2 ^ 24) :
    MergeInv ft.length p.length (ft.map leafOf) (List.range ft.length) := by
  have hfreq : ∀ i, (hi : i < ft.length) → (nodeOf (ft.map leafOf) i).freq.toNat = ft[i].cnt := by
    intro i hi
    rw [leaves_nodeOf hi]
    simp only [leafOf, BitVec.toNat_ofNat]
    exact Nat.mod_eq_of_lt (lt_of_le_of_lt (h.cnt_le (List.getElem_mem hi)) hp)
  refine ⟨by simp, ?_, ?_, ?_, ?_, ?_⟩
  · intro i hi; rw [leaves_nodeOf hi]; rfl
  · intro i j hij hj
    rw [leaves_nodeOf (by omega), leaves_nodeOf hj]
    have := (List.pairwise_iff_getElem.1 h.nodup) i j (by simp [ftSyms]; omega) (by simpa [ftSyms] using hj) hij
    simpa [ftSyms, leafOf] using this
  · have : childList (ft.map leafOf) = [] := by
      simp only [childList, List.flatMap_eq_nil_iff, List.mem_map]
      rintro d ⟨e, -, rfl⟩; rfl
    simp [this]
  · constructor <;> intro i hi hl <;> simp at hl <;> omega
  · rw [← h.sum_cnt]
    congr 1
    apply List.ext_getElem
    · simp
    · intro i h1 h2
      simp only [List.getElem_map, List.getElem_range]
      exact hfreq i (by simpa using h2)

/-- What TB gives for the frequency table of a phrase: the tree of R107 and R111. -/
theorem buildTree_spec {p : List Symbol} {ft : List FtEntry} (h : CountedBy p ft) (hp : p.length < 2 ^ 24)
    (hn : 1 ≤ ft.length) (hmax : ft.length ≤ 4096) :
    MergeInv ft.length p.length (buildTree ft) [(buildTree ft).length - 1] ∧
    (buildTree ft).length = 2 * ft.length - 1 ∧
    ∀ i, (hi : i < ft.length) → nodeOf (buildTree ft) i = leafOf ft[i] := by
  obtain ⟨q', hm, hl, hlen, hkeep⟩ := mergeLoop_spec hp (ft.length - 1) _ _ (mergeInv_leaves h hp)
    (by simp; omega) (by simp; omega)
  have hlen' : (buildTree ft).length = 2 * ft.length - 1 := by
    rw [buildTree, hlen]; simp; omega
  rw [hm.root_in_q (by rw [hlen]; simp; omega) hl] at hm
  exact ⟨hm, hlen', fun i hi => by rw [buildTree, hkeep i (by simpa using hi), leaves_nodeOf hi]⟩

end Sys2Proof.Machine
end

