-- ==== Sys2Proof/Laws/CodeTable.lean ====
section
/-! SUPPORT. Paths in a tree and the code table of CG (42_code_table_generator.md R122 to R124). -/

namespace Sys2Proof.Machine

open Sys2Proof.Safety

/-! ### Following steps -/

theorem follow_append (a : List Node) : ∀ (p q : List Bit) (v : Nat),
    follow a v (p ++ q) = (follow a v p).bind (fun u => follow a u q)
  | [], q, v => by simp [follow]
  | b :: p, q, v => by
    simp only [List.cons_append, follow]
    cases (nodeOf a v).kind
    · simp
    · dsimp only
      split
      · simp
      · exact follow_append a p q _

theorem follow_leaf {a : List Node} {v : Nat} (h : (nodeOf a v).kind = .leaf) (b : Bit) (p : List Bit) :
    follow a v (b :: p) = none := by
  simp [follow, h]

theorem follow_cons {a : List Node} {v : Nat} {b : Bit} {p : List Bit} {u : Nat} (h : follow a v (b :: p) = some u) :
    (nodeOf a v).kind = .internal ∧ childOf (nodeOf a v) b ≠ Config.nil ∧
      follow a (childOf (nodeOf a v) b).toNat p = some u := by
  simp only [follow] at h
  cases hk : (nodeOf a v).kind
  · rw [hk] at h; cases h
  · rw [hk] at h
    dsimp only at h
    split at h
    · cases h
    · rename_i hn
      exact ⟨rfl, hn, h⟩

theorem follow_step {a : List Node} {v : Nat} {b : Bit} (hk : (nodeOf a v).kind = .internal)
    (hn : childOf (nodeOf a v) b ≠ Config.nil) : follow a v [b] = some (childOf (nodeOf a v) b).toNat := by
  simp [follow, hk, hn]

theorem follow_snoc {a : List Node} {r v : Nat} {p : List Bit} {b : Bit} (h : follow a r (p ++ [b]) = some v) :
    ∃ u, follow a r p = some u ∧ (nodeOf a u).kind = .internal ∧ childOf (nodeOf a u) b ≠ Config.nil ∧
      (childOf (nodeOf a u) b).toNat = v := by
  rw [follow_append] at h
  cases hu : follow a r p with
  | none => rw [hu] at h; cases h
  | some u =>
    rw [hu] at h
    obtain ⟨hk, hn, hf⟩ := follow_cons h
    exact ⟨u, rfl, hk, hn, by simpa [follow] using hf⟩

/-! ### The shape of a tree -/

/-- The shape of the tree BUILD makes for `n` symbols (R36 (a), (b), (d), (e)). -/
structure TreeShape (n : Nat) (a : List Node) : Prop where
  pos : 1 ≤ n
  size : a.length = 2 * n - 1
  leaf : ∀ i < n, (nodeOf a i).kind = .leaf
  internal : ∀ i, n ≤ i → i < a.length → (nodeOf a i).kind = .internal
  child_lt : ∀ i, n ≤ i → i < a.length → (nodeOf a i).left.toNat < i ∧ (nodeOf a i).right.toNat < i
  child_ne : ∀ i, n ≤ i → i < a.length → (nodeOf a i).left ≠ (nodeOf a i).right ∧
    (nodeOf a i).left ≠ Config.nil ∧ (nodeOf a i).right ≠ Config.nil
  owned : ∀ v < a.length, (childList a).count v = if v = a.length - 1 then 0 else 1

namespace TreeShape

variable {n : Nat} {a : List Node}

theorem length_pos (h : TreeShape n a) : 0 < a.length := by have := h.pos; have := h.size; omega

theorem n_le (h : TreeShape n a) : n ≤ a.length := by have := h.pos; have := h.size; omega

theorem internal_iff (h : TreeShape n a) {i : Nat} (hi : i < a.length) : (nodeOf a i).kind = .internal ↔ n ≤ i := by
  constructor
  · intro hk
    by_contra hc
    rw [h.leaf i (by omega)] at hk; cases hk
  · intro hn; exact h.internal i hn hi

theorem childOf_lt (h : TreeShape n a) {i : Nat} (hn : n ≤ i) (hi : i < a.length) (b : Bit) :
    (childOf (nodeOf a i) b).toNat < i := by
  cases b
  · exact (h.child_lt i hn hi).1
  · exact (h.child_lt i hn hi).2

theorem childOf_ne (h : TreeShape n a) {i : Nat} (hn : n ≤ i) (hi : i < a.length) (b : Bit) :
    childOf (nodeOf a i) b ≠ Config.nil := by
  cases b
  · exact (h.child_ne i hn hi).2.1
  · exact (h.child_ne i hn hi).2.2

theorem childOf_mem {i : Nat} (hi : i < a.length) (hk : (nodeOf a i).kind = .internal) (b : Bit) :
    (childOf (nodeOf a i) b).toNat ∈ childList a := by
  rw [mem_childList]
  refine ⟨i, hi, hk, ?_⟩
  cases b
  · exact Or.inl rfl
  · exact Or.inr rfl

theorem mem_lt (h : TreeShape n a) {v : Nat} (hv : v ∈ childList a) : v < a.length - 1 := by
  obtain ⟨i, hi, hk, hc⟩ := mem_childList.1 hv
  have := h.child_lt i ((h.internal_iff hi).1 hk) hi
  omega

theorem childList_nodup (h : TreeShape n a) : (childList a).Nodup := by
  rw [List.nodup_iff_count_le_one]
  intro v
  by_cases hv : v ∈ childList a
  · have := h.owned v (by have := h.mem_lt hv; omega)
    rw [this]; split <;> omega
  · rw [List.count_eq_zero.2 hv]; omega

/-- Every node but the root has exactly one parent and one step (R36 (e)). -/
theorem parent_unique (h : TreeShape n a) {i j : Nat} {b c : Bit} (hi : i < a.length) (hj : j < a.length)
    (hki : (nodeOf a i).kind = .internal) (hkj : (nodeOf a j).kind = .internal)
    (he : (childOf (nodeOf a i) b).toNat = (childOf (nodeOf a j) c).toNat) : i = j ∧ b = c := by
  have hin : ∀ k (d : Bit), (hk : k < a.length) → (nodeOf a k).kind = .internal →
      (childOf (nodeOf a k) d).toNat ∈ childrenOf a[k] := by
    intro k d hk hkk
    rw [nodeOf_eq_getElem hk] at hkk ⊢
    simp only [childrenOf, hkk]
    cases d <;> simp [childOf]
  have hp := (List.nodup_flatMap.1 h.childList_nodup).2
  rw [List.pairwise_iff_getElem] at hp
  have hij : i = j := by
    by_contra hne
    rcases Nat.lt_or_gt_of_ne hne with hlt | hlt
    · exact hp i j hi hj hlt (hin i b hi hki) (he ▸ hin j c hj hkj)
    · exact hp j i hj hi hlt (hin j c hj hkj) (he ▸ hin i b hi hki)
  subst hij
  refine ⟨rfl, ?_⟩
  have hne := (h.child_ne i ((h.internal_iff hi).1 hki) hi).1
  have he' := BitVec.eq_of_toNat_eq he
  cases b <;> cases c <;> simp [childOf] at he' ⊢
  · exact hne he'
  · exact hne he'.symm

theorem follow_lt (h : TreeShape n a) : ∀ (p : List Bit) (r v : Nat), r < a.length → follow a r p = some v → v < a.length
  | [], r, v, hr, hf => by simp [follow] at hf; omega
  | b :: p, r, v, hr, hf => by
    obtain ⟨hk, -, hf'⟩ := follow_cons hf
    have := h.childOf_lt ((h.internal_iff hr).1 hk) hr b
    exact h.follow_lt p _ v (by omega) hf'

/-- The path from the root to a node is unique. -/
theorem follow_unique (h : TreeShape n a) : ∀ (p q : List Bit) (v : Nat), follow a (a.length - 1) p = some v →
    follow a (a.length - 1) q = some v → p = q := by
  have hr : a.length - 1 < a.length := by have := h.length_pos; omega
  have hroot : ∀ (p : List Bit) (b : Bit), follow a (a.length - 1) (p ++ [b]) ≠ some (a.length - 1) := by
    intro p b hf
    obtain ⟨u, hu, hk, -, hc⟩ := follow_snoc hf
    have := h.mem_lt (childOf_mem (h.follow_lt p _ u hr hu) hk b)
    omega
  intro p
  induction p using List.reverseRecOn with
  | nil =>
    intro q v hp hq
    simp only [follow, Option.some.injEq] at hp
    subst hp
    induction q using List.reverseRecOn with
    | nil => rfl
    | append_singleton q b _ => exact absurd hq (hroot q b)
  | append_singleton p b ih =>
    intro q v hp hq
    induction q using List.reverseRecOn with
    | nil =>
      simp only [follow, Option.some.injEq] at hq
      subst hq
      exact absurd hp (hroot p b)
    | append_singleton q c _ =>
      obtain ⟨u, hu, hku, -, hcu⟩ := follow_snoc hp
      obtain ⟨w, hw, hkw, -, hcw⟩ := follow_snoc hq
      obtain ⟨rfl, rfl⟩ := h.parent_unique (h.follow_lt p _ u hr hu) (h.follow_lt q _ w hr hw) hku hkw
        (hcu.trans hcw.symm)
      rw [ih q u hu hw]

/-- No path to one Leaf begins a path to another (R123 (c)). -/
theorem prefix_free (h : TreeShape n a) {i j : Nat} (hi : i < n) {p q : List Bit}
    (hp : follow a (a.length - 1) p = some i) (hq : follow a (a.length - 1) q = some j) (hne : i ≠ j) : ¬ p <+: q := by
  rintro ⟨e, rfl⟩
  rw [follow_append, hp] at hq
  cases e with
  | nil => simp [follow] at hq; exact hne hq
  | cons b e =>
    rw [Option.bind_some, follow_leaf (h.leaf i hi)] at hq
    cases hq

end TreeShape

/-- The merge loop leaves a tree of this shape (R111). -/
theorem MergeInv.shape {n total : Nat} {a : List Node} (h : MergeInv n total a [a.length - 1]) (hn : 1 ≤ n)
    (hsize : a.length = 2 * n - 1) (hmax : n ≤ 4096) : TreeShape n a := by
  refine ⟨hn, hsize, h.leaf, fun i hi hl => (h.merges.internal i hi hl).1, ?_, ?_, ?_⟩
  · intro i hi hl
    have := h.merges.queued i hi hl
    exact ⟨this.1.1, this.2.1⟩
  · intro i hi hl
    have := h.merges.queued i hi hl
    have h1 := this.1.1
    have h2 := this.2.1
    have hnil : Config.nil.toNat = 8191 := rfl
    refine ⟨h.merges.apart i hi hl, ?_, ?_⟩ <;> intro e <;> have e' := congrArg BitVec.toNat e <;> omega
  · intro v hv
    have hc := h.perm.count_eq v
    have hnd : (List.range a.length).count v = 1 :=
      List.count_eq_one_of_mem List.nodup_range (List.mem_range.2 hv)
    rw [List.count_append, hnd, List.count_singleton] at hc
    by_cases hvr : v = a.length - 1
    · simp [hvr] at hc ⊢; omega
    · have : ¬ (a.length - 1 = v) := fun e => hvr e.symm
      simp [hvr, this] at hc ⊢; omega

/-! ### The code of a Leaf -/

theorem parentFrom_some {v : Nat} : ∀ {a : List Node} {i u : Nat} {b : Bit}, parentFrom v i a = some (u, b) →
    ∃ j, ∃ hj : j < a.length, u = i + j ∧ a[j].kind = .internal ∧ (childOf a[j] b).toNat = v
  | [], i, u, b, h => by simp [parentFrom] at h
  | d :: rest, i, u, b, h => by
    simp only [parentFrom] at h
    have hrec : parentFrom v (i + 1) rest = some (u, b) → ∃ j, ∃ hj : j < (d :: rest).length,
        u = i + j ∧ (d :: rest)[j].kind = .internal ∧ (childOf (d :: rest)[j] b).toNat = v := by
      intro h'
      obtain ⟨j, hj, he, hk, hc⟩ := parentFrom_some h'
      exact ⟨j + 1, by simpa using hj, by omega, by simpa using hk, by simpa using hc⟩
    cases hk : d.kind
    · rw [hk] at h; exact hrec h
    · rw [hk] at h
      dsimp only at h
      split at h
      · rename_i hl
        cases h
        exact ⟨0, by simp, by omega, by simpa using hk, by simpa [childOf] using hl⟩
      · split at h
        · rename_i hr
          cases h
          exact ⟨0, by simp, by omega, by simpa using hk, by simpa [childOf] using hr⟩
        · exact hrec h

theorem parentFrom_isSome {v : Nat} : ∀ {a : List Node} (i : Nat), v ∈ childList a → ∃ r, parentFrom v i a = some r
  | [], i, h => by simp [childList] at h
  | d :: rest, i, h => by
    simp only [childList, List.flatMap_cons, List.mem_append] at h
    simp only [parentFrom]
    cases hk : d.kind
    · simp only [childrenOf, hk, List.not_mem_nil, false_or] at h
      exact parentFrom_isSome (i + 1) h
    · simp only [childrenOf, hk, List.mem_cons, List.not_mem_nil, or_false] at h
      dsimp only
      split
      · exact ⟨_, rfl⟩
      · split
        · exact ⟨_, rfl⟩
        · rename_i hl hr
          rcases h with (h | h) | h
          · exact absurd h.symm hl
          · exact absurd h.symm hr
          · exact parentFrom_isSome (i + 1) h

/-- The parent that R124 speaks of: it exists for every node but the root, and it is above. -/
theorem TreeShape.parent {n : Nat} {a : List Node} (h : TreeShape n a) {v : Nat} (hv : v < a.length)
    (hr : v ≠ a.length - 1) : ∃ u b, parentFrom v 0 a = some (u, b) ∧ n ≤ u ∧ u < a.length ∧ v < u ∧
      (nodeOf a u).kind = .internal ∧ (childOf (nodeOf a u) b).toNat = v := by
  have hmem : v ∈ childList a := by
    rw [← List.count_pos_iff, h.owned v hv, if_neg hr]; omega
  obtain ⟨⟨u, b⟩, he⟩ := parentFrom_isSome 0 hmem
  obtain ⟨j, hj, rfl, hk, hc⟩ := parentFrom_some he
  rw [Nat.zero_add] at he
  have hkj : (nodeOf a j).kind = .internal := by rw [nodeOf_eq_getElem hj]; exact hk
  have hcj : (childOf (nodeOf a j) b).toNat = v := by rw [nodeOf_eq_getElem hj]; exact hc
  have hnj := (h.internal_iff hj).1 hkj
  have := h.childOf_lt hnj hj b
  exact ⟨j, b, he, hnj, hj, by omega, hkj, hcj⟩

/-- The path of R124 leads from the root to the node. -/
theorem TreeShape.pathTo_follow {n : Nat} {a : List Node} (h : TreeShape n a) : ∀ (f v : Nat), v < a.length →
    a.length - 1 < f + v → follow a (a.length - 1) (pathTo a (a.length - 1) f v) = some v
  | 0, v, hv, hf => by omega
  | f + 1, v, hv, hf => by
    by_cases hr : v = a.length - 1
    · subst hr; simp [pathTo, follow]
    · obtain ⟨u, b, he, hn, hu, hlt, hk, hc⟩ := h.parent hv hr
      have ih := h.pathTo_follow f u hu (by omega)
      simp only [pathTo, hr, if_false, he]
      rw [follow_append, ih, Option.bind_some, follow_step hk (h.childOf_ne hn hu b), hc]

theorem TreeShape.pathTo_length {n : Nat} {a : List Node} (h : TreeShape n a) : ∀ (f v : Nat), v < a.length →
    (pathTo a (a.length - 1) f v).length ≤ a.length - 1 - v
  | 0, v, _ => by simp [pathTo]
  | f + 1, v, hv => by
    by_cases hr : v = a.length - 1
    · subst hr; simp [pathTo]
    · obtain ⟨u, b, he, hn, hu, hlt, hk, hc⟩ := h.parent hv hr
      have ih := h.pathTo_length f u hu
      simp only [pathTo, hr, if_false, he, List.length_append, List.length_singleton]
      omega

/-- The depth of a Leaf is at most n − 1 (R111 (g), R123 (b)). -/
theorem TreeShape.pathTo_length_leaf {n : Nat} {a : List Node} (h : TreeShape n a) (f v : Nat) (hv : v < n) :
    (pathTo a (a.length - 1) f v).length ≤ n - 1 := by
  have hp := h.pos
  have hs := h.size
  cases f with
  | zero => simp [pathTo]
  | succ f =>
    by_cases hr : v = a.length - 1
    · subst hr; simp [pathTo]
    · obtain ⟨u, b, he, hn, hu, hlt, hk, hc⟩ := h.parent (by omega) hr
      have ih := h.pathTo_length f u hu
      simp only [pathTo, hr, if_false, he, List.length_append, List.length_singleton]
      omega

theorem codeTable_length (a : List Node) (r n : Nat) : (codeTable a r n).length = n := by
  unfold codeTable; split
  · simp_all
  · simp

theorem codeTable_cell {a : List Node} {r n i : Nat} (hn : n ≠ 1) (hi : i < n) :
    cell freeCode (codeTable a r n) i = codeRecord (nodeOf a i).sym (pathTo a r a.length i) := by
  have hl : i < (codeTable a r n).length := by rw [codeTable_length]; exact hi
  rw [cell_of_lt _ _ hl]
  simp [codeTable, hn]

theorem codeTable_one (a : List Node) (r : Nat) : codeTable a r 1 = [codeRecord (nodeOf a 0).sym [false]] := by
  simp [codeTable]

/-- What CG gives for a tree of this shape (R120 to R124). -/
theorem codeTable_spec {n : Nat} {a : List Node} (h : TreeShape n a) (hmax : n ≤ 4096) :
    CodesOf n a (codeTable a (rootOf n) n) := by
  have hroot : rootOf n = a.length - 1 := by have := h.size; simp only [rootOf]; omega
  by_cases hn : n = 1
  · subst hn
    rw [codeTable_one]
    refine ⟨rfl, ?_, ?_, by simp, fun _ => rfl⟩
    · intro i hi; obtain rfl : i = 0 := by omega
      rfl
    · intro i hi; obtain rfl : i = 0 := by omega
      rfl
  · refine ⟨codeTable_length _ _ _, ?_, ?_, ?_, fun e => absurd e hn⟩
    · intro i hi; rw [codeTable_cell hn hi]; rfl
    · intro i hi
      rw [codeTable_cell hn hi, hroot]
      have := h.pathTo_length_leaf a.length i hi
      simp only [codeRecord, BitVec.toNat_ofNat]
      exact (Nat.mod_eq_of_lt (by omega)).symm
    · intro _ i hi
      rw [codeTable_cell hn hi, hroot]
      exact h.pathTo_follow _ i (by have := h.n_le; omega) (by have := h.length_pos; omega)

/-! ### Looking a symbol up -/

theorem entryFrom_some {c : Symbol} : ∀ {l : List Code} {i k : Nat}, entryFrom c i l = some k →
    ∃ j, ∃ hj : j < l.length, k = i + j ∧ l[j].sym = c
  | [], i, k, h => by simp [entryFrom] at h
  | r :: rest, i, k, h => by
    simp only [entryFrom] at h
    split at h
    · rename_i hr
      cases h
      exact ⟨0, by simp, by omega, by simpa using hr⟩
    · obtain ⟨j, hj, he, hs⟩ := entryFrom_some h
      exact ⟨j + 1, by simpa using hj, by omega, by simpa using hs⟩

theorem entryFrom_none {c : Symbol} : ∀ {l : List Code} {i : Nat}, entryFrom c i l = none ↔ ∀ r ∈ l, r.sym ≠ c
  | [], i => by simp [entryFrom]
  | r :: rest, i => by
    simp only [entryFrom]
    split
    · rename_i hr; simp [hr]
    · rename_i hr
      rw [entryFrom_none]
      simp [hr]

/-- With different symbols at different entries, the entry found is the one that has the symbol. -/
theorem entryFrom_eq {l : List Code} (hd : ∀ i j, (hi : i < l.length) → (hj : j < l.length) → l[i].sym = l[j].sym → i = j)
    {i : Nat} (hi : i < l.length) : entryFrom l[i].sym 0 l = some i := by
  cases he : entryFrom l[i].sym 0 l with
  | none => exact absurd rfl (entryFrom_none.1 he l[i] (List.getElem_mem hi))
  | some k =>
    obtain ⟨j, hj, rfl, hs⟩ := entryFrom_some he
    rw [Nat.zero_add, hd j i hj hi hs]

end Sys2Proof.Machine
end

