-- ==== Sys2Proof/Laws/Encoder.lean ====
section
/-! SUPPORT. What ENC and BUILD compute (43_encoder.md R135 to R139). -/

namespace Sys2Proof.Machine

open Sys2Proof.Safety

/-! ### ENC -/

/-- The code a table gives a symbol. -/
def codeIn (ct : List Code) (c : Symbol) : List Bit :=
  match entryFrom c 0 ct with
  | some i => codeBits i (cell freeCode ct i)
  | none => []

theorem encodeText_some {ct : List Code} : ∀ {p : List Symbol} {e : List Bit}, encodeText ct p = some e →
    e = p.flatMap (codeIn ct)
  | [], e, h => by simp [encodeText] at h; simp [h]
  | c :: cs, e, h => by
    simp only [encodeText] at h
    cases hi : entryFrom c 0 ct with
    | none => rw [hi] at h; cases h
    | some i =>
      rw [hi] at h
      dsimp only at h
      cases he : encodeText ct cs with
      | none => rw [he] at h; cases h
      | some e' =>
        rw [he] at h
        cases h
        rw [List.flatMap_cons, ← encodeText_some he]
        simp [codeIn, hi]

theorem encodeText_isSome {ct : List Code} : ∀ {p : List Symbol}, (∀ c ∈ p, ∃ r ∈ ct, r.sym = c) →
    ∃ e, encodeText ct p = some e
  | [], _ => ⟨[], rfl⟩
  | c :: cs, h => by
    obtain ⟨e, he⟩ := encodeText_isSome (p := cs) (fun d hd => h d (List.mem_cons_of_mem _ hd))
    obtain ⟨r, hr, hs⟩ := h c List.mem_cons_self
    cases hi : entryFrom c 0 ct with
    | none => exact absurd hs (entryFrom_none.1 hi r hr)
    | some i => exact ⟨codeBits i (cell freeCode ct i) ++ e, by simp [encodeText, hi, he]⟩

/-! ### The table of a phrase covers the phrase -/

/-- The merge loop adds nodes and changes none. -/
theorem mergeLoop_keeps : ∀ (k : Nat) (a : List Node) (q : List Nat), ∀ i < a.length,
    nodeOf (mergeLoop k a q) i = nodeOf a i
  | 0, _, _, _, _ => rfl
  | k + 1, a, q, i, hi => by
    simp only [mergeLoop]
    split
    · rfl
    · split
      · rfl
      · rw [mergeLoop_keeps k _ _ i (by simp; omega), nodeOf_append_left hi]

theorem buildTree_leaf {ft : List FtEntry} {i : Nat} (hi : i < ft.length) : nodeOf (buildTree ft) i = leafOf ft[i] := by
  rw [buildTree, mergeLoop_keeps _ _ _ i (by simpa using hi), leaves_nodeOf hi]

theorem codeTable_sym {a : List Node} {r n i : Nat} (hi : i < n) :
    (cell freeCode (codeTable a r n) i).sym = (nodeOf a i).sym := by
  by_cases hn : n = 1
  · subst hn
    obtain rfl : i = 0 := by omega
    rw [codeTable_one]; rfl
  · rw [codeTable_cell hn hi]; rfl

/-- Every character of the phrase has an entry (R136). -/
theorem codeTable_covers {p : List Symbol} {ft : List FtEntry} (h : CountedBy p ft) (r : Nat) :
    ∀ c ∈ p, ∃ e ∈ codeTable (buildTree ft) r ft.length, e.sym = c := by
  intro c hc
  have hm := (h.mem c).2 hc
  simp only [ftSyms, List.mem_map] at hm
  obtain ⟨x, hx, rfl⟩ := hm
  obtain ⟨i, hi, rfl⟩ := List.getElem_of_mem hx
  have hl : i < (codeTable (buildTree ft) r ft.length).length := by rw [codeTable_length]; exact hi
  refine ⟨_, List.getElem_mem hl, ?_⟩
  rw [← cell_of_lt freeCode _ hl, codeTable_sym hi, buildTree_leaf hi]
  rfl

/-! ### What a BUILD makes -/

/-- `b` is what BUILD makes of the phrase `p`: the declarative description, and the shape of the tree. -/
structure BuildOf (p : List Symbol) (b : Built) : Prop where
  n_pos : 1 ≤ b.n
  n_max : b.n ≤ 4096
  n_eq : b.n = p.dedup.length
  codes : b.codes.length = b.n
  root : b.root.toNat = b.nodes.length - 1
  huffman : Huffman p b.nodes b.codes b.bits
  shape : TreeShape b.n b.nodes
  merge : MergeInv b.n p.length b.nodes [b.nodes.length - 1]

theorem BuildOf.size {p : List Symbol} {b : Built} (h : BuildOf p b) : b.nodes.length = 2 * b.n - 1 := h.shape.size

/-- The working copies of BUILD (R137, steps 2 to 5). -/
def builtOf (ft : List FtEntry) (bits : List Bit) : Built where
  n := ft.length
  nodes := buildTree ft
  root := BitVec.ofNat 13 (rootOf ft.length)
  codes := codeTable (buildTree ft) (rootOf ft.length) ft.length
  bits := bits

theorem builtOf_spec {p : List Symbol} {ft : List FtEntry} {bits : List Bit} (h : CountedBy p ft) (hp : p.length < 2 ^ 24)
    (hn : 1 ≤ ft.length) (hmax : ft.length ≤ 4096)
    (he : encodeText (codeTable (buildTree ft) (rootOf ft.length) ft.length) p = some bits) :
    BuildOf p (builtOf ft bits) := by
  obtain ⟨hm, hsize, hleaf⟩ := buildTree_spec h hp hn hmax
  have hshape := hm.shape hn hsize hmax
  have hcodes := codeTable_spec hshape hmax
  have hlen : (codeTable (buildTree ft) (rootOf ft.length) ft.length).length = ft.length := codeTable_length _ _ _
  have hfreq : ∀ i, (hi : i < ft.length) → (nodeOf (buildTree ft) i).freq.toNat = ft[i].cnt := by
    intro i hi
    rw [hleaf i hi]
    simp only [leafOf, BitVec.toNat_ofNat]
    exact Nat.mod_eq_of_lt (lt_of_le_of_lt (h.cnt_le (List.getElem_mem hi)) hp)
  have hsym : ∀ i, (hi : i < ft.length) → (nodeOf (buildTree ft) i).sym = ft[i].sym := by
    intro i hi; rw [hleaf i hi]; rfl
  have hleaves : LeavesOf p ft.length (buildTree ft) := by
    refine ⟨h.length, ?_, ?_, ?_, ?_⟩
    · intro i hi; rw [hleaf i hi]; exact ⟨rfl, rfl, rfl⟩
    · intro i hi
      rw [hsym i hi, ← h.mem]
      exact List.mem_map.2 ⟨_, List.getElem_mem hi, rfl⟩
    · intro i hi
      rw [hfreq i hi, hsym i hi]
      exact h.cnt _ (List.getElem_mem hi)
    · intro i j hij hj
      rw [hsym i (by omega), hsym j hj]
      have := (List.pairwise_iff_getElem.1 h.order) i j (by simp [ftSyms]; omega) (by simpa [ftSyms] using hj) hij
      simpa [ftSyms] using this
  refine ⟨hn, hmax, h.length, hlen, ?_, ⟨by simpa [builtOf, hlen] using hleaves, by simpa [builtOf, hlen] using hsize,
    by simpa [builtOf, hlen] using hm.merges, by simpa [builtOf, hlen] using hcodes, ?_⟩, hshape, hm⟩
  · simp only [builtOf, rootOf, BitVec.toNat_ofNat]
    omega
  · refine ⟨codeIn (builtOf ft bits).codes, ?_, encodeText_some he⟩
    intro i hi
    have hi' : i < ft.length := by simpa [builtOf, hlen] using hi
    have hd : ∀ i j, (hi : i < (builtOf ft bits).codes.length) → (hj : j < (builtOf ft bits).codes.length) →
        (builtOf ft bits).codes[i].sym = (builtOf ft bits).codes[j].sym → i = j := by
      intro i j hi hj hs
      have hil : i < ft.length := by simpa [builtOf, hlen] using hi
      have hjl : j < ft.length := by simpa [builtOf, hlen] using hj
      rw [← cell_of_lt freeCode _ hi, ← cell_of_lt freeCode _ hj] at hs
      have e : ∀ k < ft.length, (cell freeCode (builtOf ft bits).codes k).sym = (nodeOf (buildTree ft) k).sym :=
        fun k hk => codeTable_sym hk
      rw [e i hil, e j hjl] at hs
      by_contra hne
      rcases Nat.lt_or_gt_of_ne hne with hlt | hlt
      · exact hm.sym_ne i j hlt hjl hs
      · exact hm.sym_ne j i hlt hil hs.symm
    have hent := entryFrom_eq hd hi
    rw [cell_of_lt freeCode _ hi]
    simp only [codeIn, hent]
    rw [cell_of_lt freeCode _ hi, codeBits]
    refine cells_self _ _ ?_
    have := hcodes.len i hi'
    rwa [show codeTable (buildTree ft) (rootOf ft.length) ft.length = (builtOf ft bits).codes from rfl,
      cell_of_lt freeCode _ hi] at this

theorem blankPhrase_iff (P : Config.Params) (s : State) :
    blankPhrase P s = true ↔ s.plen = 0 ∨ ∀ c ∈ phraseOf s, P.ws c = true := by
  simp [blankPhrase]

/-- Everything BUILD can do (R137): EEMPTY, ECAP for too many symbols, ECAP for too long an encoding, or the commit. -/
theorem buildAndEncode_cases (P : Config.Params) (s : State) :
    (blankPhrase P s = true ∧ buildAndEncode P s = fail .eempty s) ∨
    (blankPhrase P s = false ∧ P.nsymMax < (phraseOf s).dedup.length ∧ buildAndEncode P s = fail .ecap s) ∨
    (blankPhrase P s = false ∧ ∃ ft bits, CountedBy (phraseOf s) ft ∧ ft.length ≤ P.nsymMax ∧
      encodeText (codeTable (buildTree ft) (rootOf ft.length) ft.length) (phraseOf s) = some bits ∧
      ((P.omax < bits.length ∧ buildAndEncode P s = fail .ecap s) ∨
       (bits.length ≤ P.omax ∧ buildAndEncode P s =
          answer .ok (dataOfNat bits.length) (commitBuild (builtOf ft bits) s)))) := by
  by_cases hb : blankPhrase P s = true
  · exact Or.inl ⟨hb, by simp [buildAndEncode, hb]⟩
  · have hb' : blankPhrase P s = false := by simpa using hb
    right
    rcases frequencyTable_spec P.nsymMax (phraseOf s) with ⟨ft, he, hc, hl⟩ | ⟨he, hlt⟩
    · right
      obtain ⟨bits, hbits⟩ := encodeText_isSome (codeTable_covers hc (rootOf ft.length))
      refine ⟨hb', ft, bits, hc, hl, hbits, ?_⟩
      by_cases ho : P.omax < bits.length
      · exact Or.inl ⟨ho, by simp [buildAndEncode, hb', he, hbits, ho]⟩
      · exact Or.inr ⟨by omega, by simp [buildAndEncode, hb', he, hbits, ho, builtOf]⟩
    · exact Or.inl ⟨hb', hlt, by simp [buildAndEncode, hb', he]⟩

theorem ft_length_pos {P : Config.Params} {s : State} {ft : List FtEntry} (hb : blankPhrase P s = false)
    (hc : CountedBy (phraseOf s) ft) : 1 ≤ ft.length := by
  have hl : (phraseOf s).length ≠ 0 := by
    intro h0
    have : blankPhrase P s = true := (blankPhrase_iff P s).2 (Or.inl (by simpa using h0))
    rw [this] at hb; cases hb
  rw [hc.length]
  have : (phraseOf s).dedup ≠ [] := by
    rw [Ne, List.dedup_eq_nil]; intro e; simp [e] at hl
  exact List.length_pos_iff.2 this

/-- The same within the spec's constraints, with what the commit writes described by R90 to R135. -/
theorem buildAndEncode_spec {P : Config.Params} {s : State} (hP : P.nsymMax ≤ 4096) (hlen : s.plen < 2 ^ 24)
    (hb : blankPhrase P s = false) (hd : (phraseOf s).dedup.length ≤ P.nsymMax) :
    ∃ b, BuildOf (phraseOf s) b ∧
      ((P.omax < b.bits.length ∧ buildAndEncode P s = fail .ecap s) ∨
       (b.bits.length ≤ P.omax ∧ buildAndEncode P s = answer .ok (dataOfNat b.bits.length) (commitBuild b s))) := by
  rcases buildAndEncode_cases P s with ⟨h, -⟩ | ⟨-, h, -⟩ | ⟨-, ft, bits, hc, hl, he, h⟩
  · rw [h] at hb; cases hb
  · omega
  · exact ⟨builtOf ft bits, builtOf_spec hc (by simpa using hlen) (ft_length_pos hb hc) (by omega) he, h⟩

/-- What a BUILD can answer, and that a failed one writes nothing but its response (R138). -/
theorem buildAndEncode_inv {P : Config.Params} {s t : State} (hP : P.nsymMax ≤ 4096) (hlen : s.plen < 2 ^ 24)
    (h : buildAndEncode P s = .next t) :
    t = respond .eempty 0#28 s ∨ t = respond .ecap 0#28 s ∨
    ∃ b, BuildOf (phraseOf s) b ∧ b.n ≤ P.nsymMax ∧ b.bits.length ≤ P.omax ∧
      t = respond .ok (dataOfNat b.bits.length) (commitBuild b s) := by
  rcases buildAndEncode_cases P s with ⟨-, he⟩ | ⟨-, -, he⟩ | ⟨hb, ft, bits, hc, hl, he, ⟨-, hr⟩ | ⟨ho, hr⟩⟩
  · left; rw [he] at h; exact (Host.Outcome.next.inj h).symm
  · right; left; rw [he] at h; exact (Host.Outcome.next.inj h).symm
  · right; left; rw [hr] at h; exact (Host.Outcome.next.inj h).symm
  · right; right
    rw [hr] at h
    exact ⟨builtOf ft bits, builtOf_spec hc (by simpa using hlen) (ft_length_pos hb hc) (by omega) he, hl, ho,
      (Host.Outcome.next.inj h).symm⟩

/-- BUILD never stops the machine (R136, R175). -/
theorem buildAndEncode_next (P : Config.Params) (s : State) : ∃ t, buildAndEncode P s = .next t := by
  rcases buildAndEncode_cases P s with ⟨-, he⟩ | ⟨-, -, he⟩ | ⟨-, ft, bits, -, -, -, ⟨-, hr⟩ | ⟨-, hr⟩⟩
  · exact ⟨_, he⟩
  · exact ⟨_, he⟩
  · exact ⟨_, hr⟩
  · exact ⟨_, hr⟩

/-! ### The retained state after a BUILD -/

theorem sum_map_count (p : List Symbol) (f : Symbol → Nat) :
    (p.map f).sum = (p.dedup.map (fun c => p.count c * f c)).sum := by
  have h := Finset.sum_list_map_count p f
  have hd : p.toFinset = p.dedup.toFinset := by ext c; simp
  rw [h, hd, List.sum_toFinset _ (List.nodup_dedup p)]
  simp [smul_eq_mul]

/-- The length of an encoding is the sum over the Leaves of count × code length (R135). -/
theorem length_flatMap_code {p : List Symbol} {n : Nat} {a : List Node} (h : LeavesOf p n a)
    (code : Symbol → List Bit) :
    (p.flatMap code).length = sumTo n (fun i => (nodeOf a i).freq.toNat * (code (nodeOf a i).sym).length) := by
  have hnd : ((List.range n).map (fun i => (nodeOf a i).sym)).Nodup := by
    rw [List.nodup_iff_pairwise_ne, List.pairwise_map]
    refine List.Pairwise.imp_of_mem (R := (· < ·)) ?_ List.pairwise_lt_range
    intro i j hi hj hij hs
    have := h.order i j hij (List.mem_range.1 hj)
    rw [hs] at this; omega
  have hsub : ((List.range n).map (fun i => (nodeOf a i).sym)) ⊆ p.dedup := by
    intro c hc
    obtain ⟨i, hi, rfl⟩ := List.mem_map.1 hc
    exact List.mem_dedup.2 (h.occurs i (List.mem_range.1 hi))
  have hperm : ((List.range n).map (fun i => (nodeOf a i).sym)).Perm p.dedup :=
    (hnd.subperm hsub).perm_of_length_le (by simp [← h.distinct])
  rw [List.length_flatMap, sum_map_count, ← (hperm.map _).sum_eq, List.map_map, sumTo]
  congr 1
  refine List.map_congr_left (fun i hi => ?_)
  simp only [Function.comp]
  rw [h.count i (List.mem_range.1 hi)]

theorem sumTo_eq_range_sum (n : Nat) (f : Nat → Nat) : sumTo n f = ((List.range n).map f).sum := rfl

theorem sumTo_congr {n : Nat} {f g : Nat → Nat} (h : ∀ i < n, f i = g i) : sumTo n f = sumTo n g := by
  simp only [sumTo]
  congr 1
  exact List.map_congr_left (fun i hi => h i (List.mem_range.1 hi))

/-- The counts of the Leaves add up to the length of the phrase (R91 (d)). -/
theorem sumTo_count {p : List Symbol} {n : Nat} {a : List Node} (h : LeavesOf p n a) :
    sumTo n (fun i => (nodeOf a i).freq.toNat) = p.length := by
  have := length_flatMap_code h (fun _ => [true])
  simp only [List.length_singleton, Nat.mul_one] at this
  rw [← this]
  simp [List.length_flatMap]

/-- The root counts the whole phrase (R111 (c)). -/
theorem BuildOf.root_freq {p : List Symbol} {b : Built} (h : BuildOf p b) :
    (nodeOf b.nodes (b.nodes.length - 1)).freq.toNat = p.length := by
  simpa using h.merge.sum

theorem BuildOf.codes_wf {p : List Symbol} {b : Built} (h : BuildOf p b) :
    ∀ r ∈ b.codes, r.bits.length = r.len.toNat := by
  intro r hr
  obtain ⟨i, hi, rfl⟩ := List.getElem_of_mem hr
  have := h.huffman.codes.len i hi
  rwa [cell_of_lt freeCode _ hi] at this

/-- In a table that BUILD made, the code of an entry is its bits. -/
theorem BuildOf.codeBits_eq {p : List Symbol} {b : Built} (h : BuildOf p b) {i : Nat} (hi : i < b.n) :
    codeBits i (cell freeCode b.codes i) = (cell freeCode b.codes i).bits :=
  cells_self _ _ (h.huffman.codes.len i (by rw [h.codes]; exact hi))

/-- A successful BUILD leaves a good tree (R36). -/
theorem BuildOf.treeInv {P : Config.Params} {s : State} {p : List Symbol} {b : Built} (h : BuildOf p b)
    (hn : b.n ≤ P.nsymMax) : TreeInv P (commitBuild b s) := by
  have hsize := h.size
  have hpos := h.n_pos
  have hroot : b.root.toNat = 2 * b.n - 1 - 1 := by rw [h.root, hsize]
  have hleaves : LeavesOf p b.n b.nodes := h.codes ▸ h.huffman.leaves
  have hcodes : CodesOf b.n b.nodes b.codes := h.codes ▸ h.huffman.codes
  have hm : MergesOf b.n b.nodes := h.merge.merges
  have hlt : ∀ i, i < 2 * b.n - 1 → i < b.nodes.length := fun i hi => by omega
  refine
    { nsym_pos := hpos, nsym_le := hn, nnode_eq := rfl, root_eq := hroot
      leaf := fun i hi => hleaves.leaf i hi
      internal := fun i hi hl => hm.internal i hi (hlt i hl)
      sym_ne := h.merge.sym_ne
      child_lt := fun i hi hl => h.shape.child_lt i hi (hlt i hl)
      child_ne := fun i hi hl => h.shape.child_ne i hi (hlt i hl)
      freq_sum := fun i hi hl => hm.freq i hi (hlt i hl)
      owned := fun v hv => ?_
      root_freq := ?_
      leaf_freq := fun i hi => ?_
      code_sym := fun i hi => hcodes.sym i hi
      code_path := fun h1 i hi => ?_
      code_single := fun h1 => ?_
      code_free := ?_
      olen_eq := ?_ }
  · have := h.shape.owned v (hlt v hv)
    rw [← h.root] at this
    exact this
  · show (nodeOf b.nodes b.root.toNat).freq.toNat = sumTo b.n (fun i => (nodeOf b.nodes i).freq.toNat)
    rw [h.root, h.root_freq, sumTo_count hleaves]
  · show 1 ≤ (nodeOf b.nodes i).freq.toNat
    rw [hleaves.count i hi]
    exact List.count_pos_iff.2 (hleaves.occurs i hi)
  · show follow b.nodes b.root.toNat (codeBits i (cell freeCode b.codes i)) = some i
    rw [h.codeBits_eq hi, h.root]
    exact hcodes.path h1 i hi
  · show codeBits 0 (cell freeCode b.codes 0) = [false]
    rw [h.codeBits_eq hpos]
    exact hcodes.single h1
  · intro i hi j hj hne
    show ¬ codeBits i (cell freeCode b.codes i) <+: codeBits j (cell freeCode b.codes j)
    have hin : i < b.n := hi
    have hjn : j < b.n := hj
    rw [h.codeBits_eq hin, h.codeBits_eq hjn]
    exact h.shape.prefix_free hin (hcodes.path (by omega) i hin) (hcodes.path (by omega) j hjn) hne
  · show b.bits.length = sumTo b.n (fun i => (nodeOf b.nodes i).freq.toNat * (cell freeCode b.codes i).len.toNat)
    obtain ⟨code, hcode, he⟩ := h.huffman.encoding
    rw [he, length_flatMap_code hleaves]
    refine sumTo_congr (fun i hi => ?_)
    rw [← hcodes.sym i hi, hcode i (by rw [h.codes]; exact hi), hcodes.len i hi]

/-! ### Lengths, and what BUILD depends on -/

/-- Every code has at least one bit and at most max(1, n − 1) (R123 (a), (b)). -/
theorem BuildOf.code_length {p : List Symbol} {b : Built} (h : BuildOf p b) {i : Nat} (hi : i < b.n) :
    1 ≤ (cell freeCode b.codes i).bits.length ∧ (cell freeCode b.codes i).bits.length ≤ max 1 (b.n - 1) := by
  have hcodes : CodesOf b.n b.nodes b.codes := h.codes ▸ h.huffman.codes
  by_cases h1 : b.n = 1
  · obtain rfl : i = 0 := by omega
    rw [hcodes.single h1]; simp
  · have hp := hcodes.path h1 i hi
    have hs := h.shape
    have hf := hs.pathTo_follow b.nodes.length i (by have := hs.n_le; omega) (by have := hs.length_pos; omega)
    have hl := hs.pathTo_length_leaf b.nodes.length i hi
    rw [← hs.follow_unique _ _ _ hp hf] at hl
    refine ⟨?_, by omega⟩
    cases hc : (cell freeCode b.codes i).bits with
    | nil =>
      rw [hc] at hp; simp only [follow, Option.some.injEq] at hp
      have := hs.size; have := hs.pos; omega
    | cons b l => simp

theorem sumTo_le {n : Nat} {f g : Nat → Nat} (h : ∀ i < n, f i ≤ g i) : sumTo n f ≤ sumTo n g :=
  List.sum_le_sum fun i hi => h i (List.mem_range.1 hi)

/-- The bounds of R139 and R137 on the length of the encoding. -/
theorem BuildOf.bits_length {p : List Symbol} {b : Built} (h : BuildOf p b) :
    p.length ≤ b.bits.length ∧ b.bits.length ≤ p.length * max 1 (b.n - 1) := by
  obtain ⟨code, hcode, he⟩ := h.huffman.encoding
  have hl : LeavesOf p b.n b.nodes := h.codes ▸ h.huffman.leaves
  have hcodes : CodesOf b.n b.nodes b.codes := h.codes ▸ h.huffman.codes
  have hmul : sumTo b.n (fun i => (nodeOf b.nodes i).freq.toNat) * max 1 (b.n - 1) =
      sumTo b.n (fun i => (nodeOf b.nodes i).freq.toNat * max 1 (b.n - 1)) :=
    (List.sum_map_mul_right _ _ _).symm
  have hc : ∀ i < b.n, 1 ≤ (code (nodeOf b.nodes i).sym).length ∧
      (code (nodeOf b.nodes i).sym).length ≤ max 1 (b.n - 1) := by
    intro i hi
    rw [← hcodes.sym i hi, hcode i (by rw [h.codes]; exact hi)]
    exact h.code_length hi
  rw [he, length_flatMap_code hl, ← sumTo_count hl, hmul]
  exact ⟨sumTo_le fun i hi => Nat.le_mul_of_pos_right _ (hc i hi).1,
    sumTo_le fun i hi => Nat.mul_le_mul_left _ (hc i hi).2⟩

/-- What BUILD does depends on the phrase alone. -/
theorem buildAndEncode_congr (P : Config.Params) {s t : State} (h1 : t.pb = s.pb) (h2 : t.plen = s.plen) :
    (∃ e, e ≠ .ok ∧ buildAndEncode P s = fail e s ∧ buildAndEncode P t = fail e t) ∨
    (∃ b, buildAndEncode P s = answer .ok (dataOfNat b.bits.length) (commitBuild b s) ∧
      buildAndEncode P t = answer .ok (dataOfNat b.bits.length) (commitBuild b t)) := by
  have hp : phraseOf t = phraseOf s := by simp only [phraseOf, h1, h2]
  have hb : blankPhrase P t = blankPhrase P s := by simp only [blankPhrase, hp, h2]
  by_cases hb' : blankPhrase P s = true
  · exact Or.inl ⟨.eempty, by decide, by rw [buildAndEncode, if_pos hb'], by rw [buildAndEncode, hb, if_pos hb']⟩
  · rcases frequencyTable_spec P.nsymMax (phraseOf s) with ⟨ft, e, hc, -⟩ | ⟨e, -⟩
    · obtain ⟨bits, he⟩ := encodeText_isSome (codeTable_covers hc (rootOf ft.length))
      by_cases ho : P.omax < bits.length
      · left; refine ⟨.ecap, by decide, ?_, ?_⟩
        · simp only [buildAndEncode, if_neg hb', e, he, if_pos ho]
        · simp only [buildAndEncode, hb, hp, if_neg hb', e, he, if_pos ho]
      · right; refine ⟨builtOf ft bits, ?_, ?_⟩
        · simp only [buildAndEncode, if_neg hb', e, he, if_neg ho]; rfl
        · simp only [buildAndEncode, hb, hp, if_neg hb', e, he, if_neg ho]; rfl
    · left; refine ⟨.ecap, by decide, ?_, ?_⟩
      · simp only [buildAndEncode, if_neg hb', e]
      · simp only [buildAndEncode, hb, hp, if_neg hb', e]

end Sys2Proof.Machine
end

