-- ==== Sys2Proof/Laws/Decoder.lean ====
section
/-! SUPPORT. What the walk of DEC computes on a tree that BUILD made (44_decoder.md R153 to R157, R163). -/

namespace Sys2Proof.Machine

open Sys2Proof.Safety

theorem validBitChar_iff (c : Symbol) : validBitChar c = true ↔ c = Config.ch0 ∨ c = Config.ch1 := by
  simp [validBitChar]

theorem bitOf_chr (b : Bit) : bitOf (chr b) = b := by cases b <;> rfl

theorem validBitChar_chr (b : Bit) : validBitChar (chr b) = true := by cases b <;> rfl

/-- A valid character is the character of its bit (R141, R152). -/
theorem chr_bitOf {c : Symbol} (h : validBitChar c = true) : chr (bitOf c) = c := by
  rcases (validBitChar_iff c).1 h with rfl | rfl <;> rfl

theorem map_bitOf_chr (bs : List Bit) : (bs.map chr).map bitOf = bs := by
  rw [List.map_map, show bitOf ∘ chr = id from funext bitOf_chr, List.map_id]

/-! ### One step and one code of the walk -/

theorem walk_cons_leaf {a : List Node} {root cur : NodeIdx} {c : Symbol} {cs : List Symbol}
    (hn : childOf (nodeOf a cur.toNat) (bitOf c) ≠ Config.nil)
    (hk : (nodeOf a (childOf (nodeOf a cur.toNat) (bitOf c)).toNat).kind = .leaf) :
    walk a root cur (c :: cs) = (walk a root root cs).map
      (fun r => ((nodeOf a (childOf (nodeOf a cur.toNat) (bitOf c)).toNat).sym :: r.1, r.2)) := by
  simp [walk, hn, hk]

theorem walk_cons_internal {a : List Node} {root cur : NodeIdx} {c : Symbol} {cs : List Symbol}
    (hn : childOf (nodeOf a cur.toNat) (bitOf c) ≠ Config.nil)
    (hk : (nodeOf a (childOf (nodeOf a cur.toNat) (bitOf c)).toNat).kind = .internal) :
    walk a root cur (c :: cs) = walk a root (childOf (nodeOf a cur.toNat) (bitOf c)) cs := by
  simp [walk, hn, hk]

/-- Characters whose bits lead from the cursor to a Leaf emit its symbol and bring the cursor back to the root. -/
theorem walk_code {a : List Node} {root : NodeIdx} {i : Nat} (hi : (nodeOf a i).kind = .leaf) (rest : List Symbol) :
    ∀ (cs : List Symbol) (cur : NodeIdx), cs ≠ [] → follow a cur.toNat (cs.map bitOf) = some i →
    walk a root cur (cs ++ rest) = (walk a root root rest).map (fun r => ((nodeOf a i).sym :: r.1, r.2))
  | [], _, h, _ => absurd rfl h
  | c :: cs, cur, _, hf => by
    obtain ⟨hk, hn, hf'⟩ := follow_cons hf
    obtain _ | ⟨d, ds⟩ := cs
    · simp only [List.map_nil, follow, Option.some.injEq] at hf'
      rw [List.cons_append, List.nil_append, walk_cons_leaf hn (by rw [hf']; exact hi), hf']
    · have hk' := (follow_cons hf').1
      rw [List.cons_append, walk_cons_internal hn hk']
      exact walk_code hi rest (d :: ds) _ (by simp) hf'

/-- The walk over the codes of a text, one after another, gives the text back and ends at the root (R163). -/
theorem walk_codes {a : List Node} {root : NodeIdx} {code : Symbol → List Bit} : ∀ (p : List Symbol),
    (∀ c ∈ p, code c ≠ [] ∧ ∃ i, (nodeOf a i).kind = .leaf ∧ (nodeOf a i).sym = c ∧
      follow a root.toNat (code c) = some i) →
    walk a root root ((p.flatMap code).map chr) = some (p, root)
  | [], _ => rfl
  | c :: cs, h => by
    obtain ⟨hne, i, hk, hs, hf⟩ := h c List.mem_cons_self
    have ih := walk_codes cs (fun d hd => h d (List.mem_cons_of_mem _ hd))
    rw [List.flatMap_cons, List.map_append, walk_code hk _ _ _ (by simpa using hne) (by rw [map_bitOf_chr]; exact hf), ih,
      Option.map_some, hs]

/-- The walk on a tree with at least two Leaves never meets a missing child, emits the symbols of the codes it passes, and
ends at an Internal node, reached from the root by the bits that are left over (R154, R156, R180). -/
theorem walk_spec {n : Nat} {a : List Node} {root : NodeIdx} {code : Symbol → List Bit} (h : TreeShape n a)
    (hroot : root.toNat = a.length - 1) (hn : 2 ≤ n)
    (hcode : ∀ i < n, follow a root.toNat (code (nodeOf a i).sym) = some i) :
    ∀ (cs : List Symbol) (cur : NodeIdx) (pre : List Bit), follow a root.toNat pre = some cur.toNat → n ≤ cur.toNat →
    ∃ t cur' rest, walk a root cur cs = some (t, cur') ∧ (∀ c ∈ t, ∃ i < n, (nodeOf a i).sym = c) ∧
      pre ++ cs.map bitOf = t.flatMap code ++ rest ∧ follow a root.toNat rest = some cur'.toNat ∧ n ≤ cur'.toNat
  | [], cur, pre, hp, hcn => ⟨[], cur, pre, rfl, by simp, by simp, hp, hcn⟩
  | c :: cs, cur, pre, hp, hcn => by
    have hrl : root.toNat < a.length := by have := h.length_pos; omega
    have hcl : cur.toNat < a.length := h.follow_lt pre _ _ hrl hp
    have hk := h.internal _ hcn hcl
    have hne := h.childOf_ne hcn hcl (bitOf c)
    have hlt := h.childOf_lt hcn hcl (bitOf c)
    have hstep : follow a root.toNat (pre ++ [bitOf c]) =
        some (childOf (nodeOf a cur.toNat) (bitOf c)).toNat := by
      rw [follow_append, hp, Option.bind_some, follow_step hk hne]
    by_cases hleaf : (childOf (nodeOf a cur.toNat) (bitOf c)).toNat < n
    · obtain ⟨t, cur', rest, hw, ht, he, hf, hc'⟩ := walk_spec h hroot hn hcode cs root [] (by simp [follow])
        (by rw [hroot, h.size]; omega)
      refine ⟨(nodeOf a (childOf (nodeOf a cur.toNat) (bitOf c)).toNat).sym :: t, cur', rest, ?_, ?_, ?_, hf, hc'⟩
      · rw [walk_cons_leaf hne (h.leaf _ hleaf), hw, Option.map_some]
      · intro d hd
        rcases List.mem_cons.1 hd with rfl | hd
        · exact ⟨_, hleaf, rfl⟩
        · exact ht d hd
      · rw [List.nil_append] at he
        have hu := h.follow_unique (pre ++ [bitOf c]) (code (nodeOf a (childOf (nodeOf a cur.toNat) (bitOf c)).toNat).sym)
          _ (hroot ▸ hstep) (hroot ▸ hcode _ hleaf)
        rw [List.flatMap_cons, ← hu, List.map_cons, he]
        simp
    · obtain ⟨t, cur', rest, hw, ht, he, hf, hc'⟩ := walk_spec h hroot hn hcode cs
        (childOf (nodeOf a cur.toNat) (bitOf c)) (pre ++ [bitOf c]) hstep (by omega)
      refine ⟨t, cur', rest, ?_, ht, ?_, hf, hc'⟩
      · rw [walk_cons_internal hne (h.internal _ (by omega) (by omega)), hw]
      · rw [← he]; simp

/-! ### Good trees -/

/-- A good tree in canonical memory has the shape of R36. -/
theorem treeInv_shape {P : Config.Params} {s : State} (h : TreeInv P s) (hw : Memory.wf s = true) :
    TreeShape s.nsym s.node := by
  have hl : s.node.length = s.nnode := ((memory_wf_iff s).1 hw).2.2.1
  have hr := h.root_eq
  have hn := h.nnode_eq
  refine ⟨h.nsym_pos, by rw [hl, hn], fun i hi => (h.leaf i hi).1, ?_, ?_, ?_, ?_⟩
  · intro i hi hil; exact (h.internal i hi (by omega)).1
  · intro i hi hil; exact h.child_lt i hi (by omega)
  · intro i hi hil; exact h.child_ne i hi (by omega)
  · intro v hv
    rw [h.owned v (by omega), hr, hl]

theorem treeInv_root {P : Config.Params} {s : State} (h : TreeInv P s) (hw : Memory.wf s = true) :
    s.root.toNat = s.node.length - 1 := by
  rw [h.root_eq, ((memory_wf_iff s).1 hw).2.2.1]

/-- The root of a good tree is a Leaf exactly when there is one symbol (R153). -/
theorem treeInv_root_kind {P : Config.Params} {s : State} (h : TreeInv P s) :
    ((nodeAt s s.root.toNat).kind = .leaf ↔ s.nsym = 1) := by
  have hp := h.nsym_pos
  have hr := h.root_eq
  have hn := h.nnode_eq
  constructor
  · intro hk
    by_contra hne
    rw [(h.internal _ (by omega) (by omega)).1] at hk; cases hk
  · intro h1; exact (h.leaf _ (by omega)).1

/-! ### What DECODE can do -/

theorem execDecode_noTree {s : State} (h : s.tvalid = false) : execDecode s = fail .enotree s := by
  simp [execDecode, withTree, h]

theorem execDecode_invalid {s : State} (h : s.tvalid = true) (hv : (inputOf s).all validBitChar = false) :
    execDecode s = fail .einvbin (clearDecoded s) := by
  simp only [execDecode, withTree, h, hv]; rfl

theorem execDecode_leaf {s : State} (h : s.tvalid = true) (hv : (inputOf s).all validBitChar = true)
    (hk : (nodeAt s s.root.toNat).kind = .leaf) :
    execDecode s = answerDecoded (List.replicate s.ilen (nodeAt s s.root.toNat).sym) false s := by
  simp only [execDecode, withTree, h, hv, hk]; rfl

theorem execDecode_none {s : State} (h : s.tvalid = true) (hv : (inputOf s).all validBitChar = true)
    (hk : (nodeAt s s.root.toNat).kind = .internal) (hw : walk s.node s.root s.root (inputOf s) = none) :
    execDecode s = fail .enomatch (clearDecoded s) := by
  simp only [execDecode, withTree, h, hv, hk, hw]; rfl

theorem execDecode_some {s : State} {t : List Symbol} {cur : NodeIdx} (h : s.tvalid = true)
    (hv : (inputOf s).all validBitChar = true) (hk : (nodeAt s s.root.toNat).kind = .internal)
    (hw : walk s.node s.root s.root (inputOf s) = some (t, cur)) :
    execDecode s = answerDecoded t (decide (cur ≠ s.root)) s := by
  simp only [execDecode, withTree, h, hv, hk, hw]; rfl

/-- The walk emits at most one symbol a character (R28). -/
theorem walk_length_le {a : List Node} {root : NodeIdx} : ∀ (cs : List Symbol) (cur : NodeIdx) (t : List Symbol)
    (cur' : NodeIdx), walk a root cur cs = some (t, cur') → t.length ≤ cs.length
  | [], cur, t, cur', h => by simp [walk] at h; simp [← h.1]
  | c :: cs, cur, t, cur', h => by
    by_cases hn : childOf (nodeOf a cur.toNat) (bitOf c) = Config.nil
    · simp [walk, hn] at h
    · cases hk : (nodeOf a (childOf (nodeOf a cur.toNat) (bitOf c)).toNat).kind
      · rw [walk_cons_leaf hn hk] at h
        cases hw : walk a root root cs with
        | none => rw [hw] at h; cases h
        | some r =>
          rw [hw] at h
          cases h
          have := walk_length_le cs root r.1 r.2 hw
          simp; omega
      · rw [walk_cons_internal hn hk] at h
        have := walk_length_le cs _ t cur' h
        simp; omega

/-- Everything DECODE can do (R161): the text and the flag it leaves, and the status it answers. -/
theorem execDecode_cases (s : State) :
    (s.tvalid = false ∧ execDecode s = fail .enotree s) ∨
    (s.tvalid = true ∧ (execDecode s = fail .einvbin (clearDecoded s) ∨ execDecode s = fail .enomatch (clearDecoded s))) ∨
    (s.tvalid = true ∧ ∃ t v, t.length ≤ s.ilen ∧ execDecode s = answerDecoded t v s) := by
  cases ht : s.tvalid
  · exact Or.inl ⟨rfl, execDecode_noTree ht⟩
  · right
    cases hv : (inputOf s).all validBitChar
    · exact Or.inl ⟨rfl, Or.inl (execDecode_invalid ht hv)⟩
    · cases hk : (nodeAt s s.root.toNat).kind
      · exact Or.inr ⟨rfl, _, _, by simp, execDecode_leaf ht hv hk⟩
      · cases hw : walk s.node s.root s.root (inputOf s) with
        | none => exact Or.inl ⟨rfl, Or.inr (execDecode_none ht hv hk hw)⟩
        | some r =>
          obtain ⟨t, cur⟩ := r
          refine Or.inr ⟨rfl, t, _, ?_, execDecode_some ht hv hk hw⟩
          have := walk_length_le _ _ _ _ hw
          rwa [inputOf_length] at this

end Sys2Proof.Machine
end

