-- ==== Sys2Proof/Laws/Words.lean ====
section
/-! SUPPORT. Fields of command and response words (30_encoding.md R70 to R73). -/

namespace Sys2Proof

open Sys2Proof.Machine

/-! ### A word from its opcode and operand field, and back -/

theorem opField_append (op : BitVec 8) (y : BitVec 24) : opField (op ++ y : BitVec 32) = op := by
  ext i hi
  simp only [opField, BitVec.getElem_extractLsb', BitVec.getLsbD_append]
  rw [if_neg (by omega), Nat.add_sub_cancel_left, BitVec.getLsbD_eq_getElem hi]

theorem operand_append (op : BitVec 8) (y : BitVec 24) : (op ++ y : BitVec 32).extractLsb' 0 24 = y := by
  ext i hi
  simp only [BitVec.getElem_extractLsb', BitVec.getLsbD_append]
  rw [if_pos (by omega), Nat.zero_add, BitVec.getLsbD_eq_getElem hi]

theorem word_eq_append (w : Word) : w = opField w ++ w.extractLsb' 0 24 := by
  apply BitVec.eq_of_getLsbD_eq
  intro i hi
  rw [BitVec.getLsbD_append]
  simp only [opField, BitVec.getLsbD_extractLsb']
  split <;> rename_i h
  · simp [h]
  · rw [decide_eq_true (by omega : i - 24 < 8), Nat.add_sub_cancel' (by omega), Bool.true_and]

theorem upper_append (op y : BitVec 8) (c : Symbol) :
    (op ++ (y ++ c : BitVec 24) : BitVec 32).extractLsb' 16 8 = y := by
  ext i hi
  simp only [BitVec.getElem_extractLsb', BitVec.getLsbD_append]
  rw [if_pos (by omega), if_neg (by omega), Nat.add_sub_cancel_left, BitVec.getLsbD_eq_getElem hi]

theorem cField_append (op y : BitVec 8) (c : Symbol) : cField (op ++ (y ++ c : BitVec 24) : BitVec 32) = c := by
  ext i hi
  simp only [cField, BitVec.getElem_extractLsb', BitVec.getLsbD_append]
  rw [if_pos (by omega), if_pos (by omega), Nat.zero_add, BitVec.getLsbD_eq_getElem hi]

theorem xField_append (op : BitVec 8) (y : BitVec 24) : xField (op ++ y : BitVec 32) = y.toNat := by
  rw [xField, operand_append]

theorem iField_append (op : BitVec 8) (e k : BitVec 12) : iField (op ++ (e ++ k : BitVec 24) : BitVec 32) = e.toNat := by
  have : (op ++ (e ++ k : BitVec 24) : BitVec 32).extractLsb' 12 12 = e := by
    ext i hi
    simp only [BitVec.getElem_extractLsb', BitVec.getLsbD_append]
    rw [if_pos (by omega), if_neg (by omega), Nat.add_sub_cancel_left, BitVec.getLsbD_eq_getElem hi]
  rw [iField, this]

theorem kField_append (op : BitVec 8) (e k : BitVec 12) : kField (op ++ (e ++ k : BitVec 24) : BitVec 32) = k.toNat := by
  have : (op ++ (e ++ k : BitVec 24) : BitVec 32).extractLsb' 0 12 = k := by
    ext i hi
    simp only [BitVec.getElem_extractLsb', BitVec.getLsbD_append]
    rw [if_pos (by omega), if_pos (by omega), Nat.zero_add, BitVec.getLsbD_eq_getElem hi]
  rw [kField, this]

/-- The operand field of format C: the upper byte and the character. -/
theorem operand_eq_c (w : Word) : w.extractLsb' 0 24 = (w.extractLsb' 16 8 ++ cField w : BitVec 24) := by
  apply BitVec.eq_of_getLsbD_eq
  intro i hi
  rw [BitVec.getLsbD_append]
  simp only [cField, BitVec.getLsbD_extractLsb']
  split <;> rename_i h
  · simp [h, hi]
  · rw [decide_eq_true (by omega : i - 16 < 8), decide_eq_true hi, Nat.add_sub_cancel' (by omega), Nat.zero_add]

/-- The operand field of format K: the entry index and the bit position. -/
theorem operand_eq_k (w : Word) : w.extractLsb' 0 24 = (w.extractLsb' 12 12 ++ w.extractLsb' 0 12 : BitVec 24) := by
  apply BitVec.eq_of_getLsbD_eq
  intro i hi
  rw [BitVec.getLsbD_append]
  simp only [BitVec.getLsbD_extractLsb']
  split <;> rename_i h
  · simp [h, hi]
  · rw [decide_eq_true (by omega : i - 12 < 12), decide_eq_true hi, Nat.add_sub_cancel' (by omega), Nat.zero_add]

/-! ### Words of the four formats -/

theorem formatZ_wordZ (op : BitVec 8) (i : Instr) : formatZ (wordZ op) i = .command i := by
  rw [formatZ, wordZ, operand_append, if_pos rfl]

theorem formatC_wordC (op : BitVec 8) (c : Symbol) (f : Symbol → Instr) : formatC (wordC op c) f = .command (f c) := by
  rw [formatC, wordC, upper_append, if_pos rfl, cField_append]

theorem formatX_wordX (op : BitVec 8) {x : Nat} (hx : x < 2 ^ 24) (f : Nat → Instr) :
    formatX (wordX op x) f = .command (f x) := by
  rw [formatX, wordX, xField_append, BitVec.toNat_ofNat, Nat.mod_eq_of_lt hx]

theorem formatK_wordK (op : BitVec 8) {e k : Nat} (he : e < 2 ^ 12) (hk : k < 2 ^ 12) (f : Nat → Nat → Instr) :
    formatK (wordK op e k) f = .command (f e k) := by
  rw [formatK, wordK, iField_append, kField_append, BitVec.toNat_ofNat, BitVec.toNat_ofNat, Nat.mod_eq_of_lt he,
    Nat.mod_eq_of_lt hk]

theorem opField_wordZ (op : BitVec 8) : opField (wordZ op) = op := opField_append _ _

theorem opField_wordC (op : BitVec 8) (c : Symbol) : opField (wordC op c) = op := opField_append _ _

theorem opField_wordX (op : BitVec 8) (x : Nat) : opField (wordX op x) = op := opField_append _ _

theorem opField_wordK (op : BitVec 8) (e k : Nat) : opField (wordK op e k) = op := opField_append _ _

/-! ### A word as a number, and from its fields -/

theorem append_toNat (op : BitVec 8) (y : BitVec 24) : (op ++ y : BitVec 32).toNat = op.toNat * 2 ^ 24 + y.toNat := by
  rw [BitVec.toNat_append, ← Nat.shiftLeft_add_eq_or_of_lt y.isLt, Nat.shiftLeft_eq]

theorem wordZ_toNat (op : BitVec 8) : (wordZ op).toNat = op.toNat * 2 ^ 24 := by
  rw [wordZ, append_toNat, BitVec.toNat_zero, Nat.add_zero]

theorem wordC_toNat (op : BitVec 8) (c : Symbol) : (wordC op c).toNat = op.toNat * 2 ^ 24 + c.toNat := by
  have h : (0#8 ++ c : BitVec 24).toNat = c.toNat := by
    rw [BitVec.toNat_append]
    show 0 <<< 16 ||| c.toNat = _
    rw [Nat.zero_shiftLeft, Nat.zero_or]
  rw [wordC, append_toNat, h]

theorem wordX_toNat (op : BitVec 8) {x : Nat} (h : x < 2 ^ 24) : (wordX op x).toNat = op.toNat * 2 ^ 24 + x := by
  rw [wordX, append_toNat, BitVec.toNat_ofNat, Nat.mod_eq_of_lt h]

theorem wordK_toNat (op : BitVec 8) {e k : Nat} (he : e < 2 ^ 12) (hk : k < 2 ^ 12) :
    (wordK op e k).toNat = op.toNat * 2 ^ 24 + e * 2 ^ 12 + k := by
  rw [wordK, append_toNat, BitVec.toNat_append, ← Nat.shiftLeft_add_eq_or_of_lt (BitVec.isLt _), Nat.shiftLeft_eq,
    BitVec.toNat_ofNat, BitVec.toNat_ofNat, Nat.mod_eq_of_lt he, Nat.mod_eq_of_lt hk]
  omega

theorem opField_eq {w : Word} {n : Nat} (h : (opField w).toNat = n) : opField w = BitVec.ofNat 8 n := by
  apply BitVec.eq_of_toNat_eq
  rw [h, BitVec.toNat_ofNat, Nat.mod_eq_of_lt]
  have := (opField w).isLt; omega

theorem eq_wordZ {w : Word} {n : Nat} (h : (opField w).toNat = n) (hz : w.extractLsb' 0 24 = 0#24) :
    w = wordZ (BitVec.ofNat 8 n) := by
  rw [word_eq_append w, opField_eq h, hz]; rfl

theorem eq_wordC {w : Word} {n : Nat} (h : (opField w).toNat = n) (hz : w.extractLsb' 16 8 = 0#8) :
    w = wordC (BitVec.ofNat 8 n) (cField w) := by
  conv_lhs => rw [word_eq_append w, opField_eq h, operand_eq_c, hz]
  rfl

theorem eq_wordX {w : Word} {n : Nat} (h : (opField w).toNat = n) : w = wordX (BitVec.ofNat 8 n) (xField w) := by
  conv_lhs => rw [word_eq_append w, opField_eq h]
  simp only [wordX, xField, BitVec.ofNat_toNat, BitVec.setWidth_eq]

theorem eq_wordK {w : Word} {n : Nat} (h : (opField w).toNat = n) : w = wordK (BitVec.ofNat 8 n) (iField w) (kField w) := by
  conv_lhs => rw [word_eq_append w, opField_eq h, operand_eq_k]
  simp only [wordK, iField, kField, BitVec.ofNat_toNat, BitVec.setWidth_eq]

/-- A mask of the opcode byte and one of the operand field act on the two fields. -/
theorem masked_iff (w : Word) (m p : BitVec 8) (n q : BitVec 24) :
    w &&& (m ++ n) = (p ++ q) ↔ opField w &&& m = p ∧ w.extractLsb' 0 24 &&& n = q := by
  conv_lhs => rw [word_eq_append w, BitVec.and_append]
  constructor
  · intro h
    refine ⟨?_, ?_⟩
    · have := congrArg opField h; rwa [opField_append, opField_append] at this
    · have := congrArg (BitVec.extractLsb' 0 24) h; rwa [operand_append, operand_append] at this
  · rintro ⟨rfl, rfl⟩; rfl

/-! ### Response words -/

/-- The number a response word is: status × 2^28 + data (R73). -/
theorem responseWord_toNat (st : Status) (d : Data) :
    (responseWord st d).toNat = (statusCode st).toNat * 2 ^ 28 + d.toNat := by
  simp only [responseWord, BitVec.toNat_append]
  rw [← Nat.shiftLeft_add_eq_or_of_lt d.isLt, Nat.shiftLeft_eq]

/-- A response with status OK is its data, zero-extended. -/
theorem responseWord_ok (d : Data) : responseWord .ok d = BitVec.ofNat 32 d.toNat := by
  apply BitVec.eq_of_toNat_eq
  rw [responseWord_toNat, BitVec.toNat_ofNat]
  have := d.isLt
  simp only [statusCode]
  rw [Nat.mod_eq_of_lt (by omega)]; simp

/-- Bits 31:28 of a response word. -/
theorem responseWord_status (st : Status) (d : Data) : (responseWord st d).extractLsb' 28 4 = statusCode st := by
  ext i hi
  simp only [responseWord, BitVec.getElem_extractLsb', BitVec.getLsbD_append]
  rw [if_neg (by omega), Nat.add_sub_cancel_left, BitVec.getLsbD_eq_getElem hi]

/-- Bits 27:0 of a response word. -/
theorem responseWord_data (st : Status) (d : Data) : (responseWord st d).extractLsb' 0 28 = d := by
  ext i hi
  simp only [responseWord, BitVec.getElem_extractLsb', BitVec.getLsbD_append]
  rw [if_pos (by omega), Nat.zero_add, BitVec.getLsbD_eq_getElem hi]

theorem statusCode_inj {x y : Status} (h : statusCode x = statusCode y) : x = y := by
  cases x <;> cases y <;> first | rfl | (exact absurd h (by decide))

/-- STATUS as a number: DTRUNC × 2 + TVALID (R31). -/
theorem statusData_toNat (s : State) : (statusData s).toNat = bitNat s.dtrunc * 2 + bitNat s.tvalid := by
  cases h : s.dtrunc <;> cases h' : s.tvalid <;> simp only [statusData, h, h'] <;> rfl

/-- The data of RDNK as a number: kind × 2^16 + sym (R112). -/
theorem kindSymData_toNat (v : Node) : (kindSymData v).toNat = kindNat v.kind * 2 ^ 16 + v.sym.toNat := by
  have hs := v.sym.isLt
  simp only [kindSymData, BitVec.toNat_or, BitVec.toNat_shiftLeft, BitVec.toNat_setWidth, BitVec.toNat_ofNat]
  rw [Nat.mod_eq_of_lt (show v.sym.toNat < 2 ^ 28 by omega)]
  cases v.kind
  · simp [kindNat]
  · simp only [kindNat]
    rw [show (1 % 2 ^ 28) <<< 16 % 2 ^ 28 = 1 <<< 16 from rfl, ← Nat.shiftLeft_add_eq_or_of_lt hs, Nat.shiftLeft_eq]

end Sys2Proof
end

