-- ==== Sys2Proof/Laws/Commands.lean ====
section
/-! SUPPORT. What a command can do, said once: the response it gives and the one update of the state it makes
(60_exceptions.md R185), for each shared operation and for all commands together. -/

namespace Sys2Proof.Machine

open Sys2Proof.Safety

/-! ### Responses -/

theorem answer_given (d : Data) (s : State) : answer .ok d s = .next (given (BitVec.ofNat 32 d.toNat) s) := by
  rw [← responseWord_ok]; rfl

/-- OK with a number that fits the data field (R73). -/
theorem answer_nat {n : Nat} (h : n < 2 ^ 28) (s : State) :
    answer .ok (dataOfNat n) s = .next (given (BitVec.ofNat 32 n) s) := by
  rw [answer_given, BitVec.toNat_ofNat, Nat.mod_eq_of_lt h]

/-- An error is its word of R176 and nothing else. -/
theorem fail_given (e : Status) (s : State) : fail e s = .next (given (responseWord e 0#28) s) := rfl

theorem statusOf_responseWord (st : Status) (d : Data) : statusOf (responseWord st d) = (statusCode st).toNat := by
  have := d.isLt
  rw [statusOf, responseWord_toNat]; omega

theorem dataOf_responseWord (st : Status) (d : Data) : dataOf (responseWord st d) = d.toNat := by
  have := d.isLt
  rw [dataOf, responseWord_toNat]; omega

theorem statusCode_le (st : Status) : (statusCode st).toNat ≤ 8 := by cases st <;> decide

theorem statusCode_ne_zero {st : Status} : (statusCode st).toNat ≠ 0 ↔ st ≠ .ok := by cases st <;> decide

/-! ### The shared operations -/

theorem withTree_held {s : State} (h : s.tvalid = true) (k : Result) : withTree s k = k := by simp [withTree, h]

theorem withTree_none {s : State} (h : s.tvalid = false) (k : Result) : withTree s k = fail .enotree s := by
  simp [withTree, h]

theorem withIndex_lt {x b : Nat} (h : x < b) (s : State) (k : Result) : withIndex x b s k = k := by simp [withIndex, h]

theorem withIndex_ge {x b : Nat} (h : b ≤ x) (s : State) (k : Result) : withIndex x b s k = fail .eidx s := by
  simp [withIndex, Nat.not_lt.2 h]

theorem readNode_noTree {s : State} (h : s.tvalid = false) (x : Nat) (f : Node → Data) :
    readNode x f s = fail .enotree s := withTree_none h _

theorem readNode_ge {s : State} {x : Nat} (h : s.tvalid = true) (hx : s.nnode ≤ x) (f : Node → Data) :
    readNode x f s = fail .eidx s := by rw [readNode, withTree_held h, withIndex_ge hx]

theorem readNode_lt {s : State} {x : Nat} (h : s.tvalid = true) (hx : x < s.nnode) (f : Node → Data) :
    readNode x f s = answer .ok (f (nodeAt s x)) s := by rw [readNode, withTree_held h, withIndex_lt hx]

theorem readEntry_noTree {s : State} (h : s.tvalid = false) (x : Nat) (f : Code → Data) :
    readEntry x f s = fail .enotree s := withTree_none h _

theorem readEntry_ge {s : State} {x : Nat} (h : s.tvalid = true) (hx : s.nsym ≤ x) (f : Code → Data) :
    readEntry x f s = fail .eidx s := by rw [readEntry, withTree_held h, withIndex_ge hx]

theorem readEntry_lt {s : State} {x : Nat} (h : s.tvalid = true) (hx : x < s.nsym) (f : Code → Data) :
    readEntry x f s = answer .ok (f (ctAt s x)) s := by rw [readEntry, withTree_held h, withIndex_lt hx]

/-- A command that only reads: one response, no other change, and no data with an error. -/
def ReadsOnly (r : Result) (s : State) : Prop := ∃ st d, r = answer st d s ∧ (st ≠ .ok → d = 0#28)

theorem readsOnly_answer (d : Data) (s : State) : ReadsOnly (answer .ok d s) s := ⟨_, _, rfl, fun h => absurd rfl h⟩

theorem readsOnly_fail (e : Status) (s : State) : ReadsOnly (fail e s) s := ⟨_, _, rfl, fun _ => rfl⟩

theorem readsOnly_withTree {s : State} {k : Result} (h : ReadsOnly k s) : ReadsOnly (withTree s k) s := by
  cases ht : s.tvalid
  · rw [withTree_none ht]; exact readsOnly_fail _ _
  · rwa [withTree_held ht]

theorem readsOnly_withIndex {s : State} {k : Result} (x b : Nat) (h : ReadsOnly k s) : ReadsOnly (withIndex x b s k) s := by
  rcases Nat.lt_or_ge x b with hx | hx
  · rwa [withIndex_lt hx]
  · rw [withIndex_ge hx]; exact readsOnly_fail _ _

theorem readsOnly_readNode (x : Nat) (f : Node → Data) (s : State) : ReadsOnly (readNode x f s) s :=
  readsOnly_withTree (readsOnly_withIndex _ _ (readsOnly_answer _ _))

theorem readsOnly_readEntry (x : Nat) (f : Code → Data) (s : State) : ReadsOnly (readEntry x f s) s :=
  readsOnly_withTree (readsOnly_withIndex _ _ (readsOnly_answer _ _))

/-! ### All commands together -/

/-- The one update of the state that a command makes before it responds (R185, R20): nothing, or what its rule writes. -/
inductive Update (s : State) : Instr → Status → State → Prop where
  | nothing (i : Instr) (st : Status) : Update s i st s
  | pclr : Update s .pclr .ok (clearPb s)
  | pput (c : Symbol) : s.plen ≠ Config.defaults.pmax → Update s (.pput c) .ok (appendPb c s)
  | bclr : Update s .bclr .ok (clearIb s)
  | bput (c : Symbol) : s.ilen ≠ Config.defaults.imax → Update s (.bput c) .ok (appendIb c s)
  | build (ft : List FtEntry) (bits : List Bit) : blankPhrase Config.defaults s = false → CountedBy (phraseOf s) ft →
      ft.length ≤ Config.defaults.nsymMax → bits.length ≤ Config.defaults.omax →
      encodeText (codeTable (buildTree ft) (rootOf ft.length) ft.length) (phraseOf s) = some bits →
      Update s .build .ok (commitBuild (builtOf ft bits) s)
  | abort (st : Status) : s.tvalid = true → st ≠ .ok → Update s .decode st (clearDecoded s)
  | decoded (t : List Symbol) (v : Bool) : s.tvalid = true → t.length ≤ s.ilen →
      Update s .decode .ok (setDecoded t v s)

theorem Update.rsps_eq {s u : State} {i : Instr} {st : Status} (h : Update s i st u) : u.rsps = s.rsps := by cases h <;> rfl

theorem Update.cmds_eq {s u : State} {i : Instr} {st : Status} (h : Update s i st u) : u.cmds = s.cmds := by cases h <;> rfl

/-- Everything a command can do: one update, then one response, which has no data when it is an error. -/
theorem exec_effect (i : Instr) (s : State) : ∃ st d u, exec i s = answer st d u ∧ (st ≠ .ok → d = 0#28) ∧
    Update s i st u := by
  have hread : ∀ {r : Result}, ReadsOnly r s → ∃ st d u, r = answer st d u ∧ (st ≠ .ok → d = 0#28) ∧ Update s i st u := by
    rintro r ⟨st, d, he, hd⟩
    exact ⟨st, d, s, he, hd, .nothing i st⟩
  have hok : ∀ {st : Status} {d : Data}, st = .ok → st ≠ .ok → d = 0#28 := fun h h' => absurd h h'
  cases i with
  | nop => exact hread (readsOnly_answer _ _)
  | rdcr x =>
    apply hread
    show ReadsOnly (execRdcr x s) s
    unfold execRdcr
    split
    · exact readsOnly_answer _ _
    · exact readsOnly_fail _ _
  | pclr => exact ⟨_, _, _, rfl, hok rfl, .pclr⟩
  | pput c =>
    by_cases h : s.plen = Config.defaults.pmax
    · apply hread
      show ReadsOnly (phrasePut Config.defaults c s) s
      rw [phrasePut, if_pos h]; exact readsOnly_fail _ _
    · refine ⟨.ok, dataOfNat (appendPb c s).plen, _, ?_, hok rfl, .pput c h⟩
      show phrasePut Config.defaults c s = _
      rw [phrasePut, if_neg h]
  | build =>
    show ∃ st d u, buildAndEncode Config.defaults s = answer st d u ∧ _
    rcases buildAndEncode_cases Config.defaults s with ⟨-, he⟩ | ⟨-, -, he⟩ | ⟨hb, ft, bits, hc, hl, he, ⟨-, hr⟩ | ⟨ho, hr⟩⟩
    · exact ⟨_, _, _, he, fun _ => rfl, .nothing _ _⟩
    · exact ⟨_, _, _, he, fun _ => rfl, .nothing _ _⟩
    · exact ⟨_, _, _, hr, fun _ => rfl, .nothing _ _⟩
    · exact ⟨.ok, dataOfNat bits.length, _, hr, hok rfl, .build ft bits hb hc hl ho he⟩
  | bclr => exact ⟨_, _, _, rfl, hok rfl, .bclr⟩
  | bput c =>
    by_cases h : s.ilen = Config.defaults.imax
    · apply hread
      show ReadsOnly (inputPut Config.defaults c s) s
      rw [inputPut, if_pos h]; exact readsOnly_fail _ _
    · refine ⟨.ok, dataOfNat (appendIb c s).ilen, _, ?_, hok rfl, .bput c h⟩
      show inputPut Config.defaults c s = _
      rw [inputPut, if_neg h]
  | decode =>
    show ∃ st d u, execDecode s = answer st d u ∧ _
    rcases execDecode_cases s with ⟨-, he⟩ | ⟨ht, he | he⟩ | ⟨ht, t, v, hl, he⟩
    · exact ⟨_, _, _, he, fun _ => rfl, .nothing _ _⟩
    · exact ⟨.einvbin, 0#28, clearDecoded s, he, fun _ => rfl, .abort _ ht (by decide)⟩
    · exact ⟨.enomatch, 0#28, clearDecoded s, he, fun _ => rfl, .abort _ ht (by decide)⟩
    · exact ⟨.ok, dataOfNat t.length, setDecoded t v s, he, hok rfl, .decoded t v ht hl⟩
  | rdnk x => exact hread (readsOnly_readNode x kindSymData s)
  | rdnf x => exact hread (readsOnly_readNode x (fun v => v.freq.setWidth 28) s)
  | rdnl x => exact hread (readsOnly_readNode x (fun v => v.left.setWidth 28) s)
  | rdnr x => exact hread (readsOnly_readNode x (fun v => v.right.setWidth 28) s)
  | rdcs x => exact hread (readsOnly_readEntry x (fun r => r.sym.setWidth 28) s)
  | rdcl x => exact hread (readsOnly_readEntry x (fun r => r.len.setWidth 28) s)
  | rdcb e k =>
    apply hread
    show ReadsOnly (execRdcb e k s) s
    exact (readsOnly_withTree (readsOnly_withIndex _ _ (readsOnly_withIndex _ _ (readsOnly_answer _ _))))
  | lkup c =>
    apply hread
    show ReadsOnly (execLkup c s) s
    apply readsOnly_withTree
    split
    · exact readsOnly_answer _ _
    · exact readsOnly_fail _ _
  | rdob x => exact hread (show ReadsOnly (execRdob x s) s from readsOnly_withIndex _ _ (readsOnly_answer _ _))
  | rdtx x => exact hread (show ReadsOnly (execRdtx x s) s from readsOnly_withIndex _ _ (readsOnly_answer _ _))

/-! ### A step -/

theorem step_idle {s : State} (h : s.cmds = []) : step s = .next s := by simp [step, nextEvent, h]

theorem step_reset {s : State} {rest : List HostEvent} (h : s.cmds = .reset :: rest) :
    step s = .next (applyReset { s with cmds := rest }) := by simp [step, nextEvent, h]

theorem step_command {s : State} {w : Word} {rest : List HostEvent} {i : Instr} (h : s.cmds = .command w :: rest)
    (hd : decode w = .command i) : step s = exec i { s with cmds := rest } := by simp [step, nextEvent, h, hd]

theorem step_illegal {s : State} {w : Word} {rest : List HostEvent} {r : Illegal} (h : s.cmds = .command w :: rest)
    (hd : decode w = .illegal r) : step s = illegalCommand { s with cmds := rest } := by
  simp [step, nextEvent, h, hd]

/-- What a step can be: waiting, reset, or one update and one response for a command word. -/
theorem step_effect (s : State) :
    (s.cmds = [] ∧ step s = .next s) ∨
    (∃ rest, s.cmds = .reset :: rest ∧ step s = .next (applyReset { s with cmds := rest })) ∨
    (∃ w rest i st d u, s.cmds = .command w :: rest ∧ step s = answer st d u ∧ (st ≠ .ok → d = 0#28) ∧
      ((decode w = .command i ∧ Update { s with cmds := rest } i st u) ∨
       (∃ r, decode w = .illegal r ∧ st = .eill ∧ u = { s with cmds := rest }))) := by
  obtain hc | ⟨e, rest, hc⟩ : s.cmds = [] ∨ ∃ e rest, s.cmds = e :: rest := by
    cases s.cmds with
    | nil => exact Or.inl rfl
    | cons e rest => exact Or.inr ⟨e, rest, rfl⟩
  · exact Or.inl ⟨hc, step_idle hc⟩
  · right
    cases e with
    | reset => exact Or.inl ⟨rest, hc, step_reset hc⟩
    | command w =>
      right
      cases hd : decode w with
      | command i =>
        obtain ⟨st, d, u, he, hz, hu⟩ := exec_effect i { s with cmds := rest }
        exact ⟨w, rest, i, st, d, u, hc, by rw [step_command hc hd, he], hz, Or.inl ⟨hd, hu⟩⟩
      | illegal r =>
        exact ⟨w, rest, .nop, .eill, 0#28, { s with cmds := rest }, hc, step_illegal hc hd, fun _ => rfl,
          Or.inr ⟨r, hd, rfl, rfl⟩⟩

end Sys2Proof.Machine
end

