-- ==== Sys2Proof/Laws/Invariant.lean ====
section
/-! SUPPORT. Every update of the state keeps a good state good (10_state.md R36). -/

namespace Sys2Proof.Machine

open Sys2Proof.Safety

/-- The tree part of a good state depends only on the retained state. -/
theorem treeInv_congr {P : Config.Params} {s t : State} (h : TreeInv P s) (h1 : t.nsym = s.nsym) (h2 : t.nnode = s.nnode)
    (h3 : t.root = s.root) (h4 : t.node = s.node) (h5 : t.ct = s.ct) (h6 : t.olen = s.olen) : TreeInv P t := by
  have hn : ∀ i, nodeAt t i = nodeAt s i := fun i => by simp [nodeAt, h4]
  have hc : ∀ i, ctAt t i = ctAt s i := fun i => by simp [ctAt, h5]
  have hk : ∀ i, codeAt t i = codeAt s i := fun i => by simp [codeAt, hc]
  obtain ⟨a, b, c, d, e, f, g, i, j, k, l, m, n, o, p, q, r, u⟩ := h
  constructor <;> simp only [h1, h2, h3, h4, h6, hn, hc, hk] <;> assumption

theorem inv_reset : Inv Config.defaults State.reset :=
  ⟨reset_wf, Nat.zero_le _, Nat.zero_le _, Nat.zero_le _, Nat.zero_le _, fun h => (by cases h), fun _ =>
    ⟨rfl, rfl, rfl, rfl, rfl, rfl⟩⟩

variable {P : Config.Params} {s : State}

theorem Inv_respond (st : Status) (d : Data) (h : Inv P s) : Inv P (respond st d s) :=
  ⟨h.wf, h.plen_le, h.ilen_le, h.tlen_le, h.olen_le, fun ht => treeInv_congr (h.tree ht) rfl rfl rfl rfl rfl rfl,
    fun ht => h.noTree ht⟩

theorem Inv_cmds (rest : List HostEvent) (h : Inv P s) : Inv P { s with cmds := rest } :=
  ⟨h.wf, h.plen_le, h.ilen_le, h.tlen_le, h.olen_le, fun ht => treeInv_congr (h.tree ht) rfl rfl rfl rfl rfl rfl,
    fun ht => h.noTree ht⟩

theorem Inv_appendPb (c : Symbol) (h : Inv P s) (hl : s.plen ≠ P.pmax) : Inv P (appendPb c s) :=
  ⟨appendPb_wf c h.wf, by have := h.plen_le; simp; omega, h.ilen_le, h.tlen_le, h.olen_le,
    fun ht => treeInv_congr (h.tree ht) rfl rfl rfl rfl rfl rfl, fun ht => h.noTree ht⟩

theorem Inv_clearPb (h : Inv P s) : Inv P (clearPb s) :=
  ⟨clearPb_wf h.wf, Nat.zero_le _, h.ilen_le, h.tlen_le, h.olen_le,
    fun ht => treeInv_congr (h.tree ht) rfl rfl rfl rfl rfl rfl, fun ht => h.noTree ht⟩

theorem Inv_appendIb (c : Symbol) (h : Inv P s) (hl : s.ilen ≠ P.imax) : Inv P (appendIb c s) :=
  ⟨appendIb_wf c h.wf, h.plen_le, by have := h.ilen_le; simp; omega, h.tlen_le, h.olen_le,
    fun ht => treeInv_congr (h.tree ht) rfl rfl rfl rfl rfl rfl, fun ht => h.noTree ht⟩

theorem Inv_clearIb (h : Inv P s) : Inv P (clearIb s) :=
  ⟨clearIb_wf h.wf, h.plen_le, Nat.zero_le _, h.tlen_le, h.olen_le,
    fun ht => treeInv_congr (h.tree ht) rfl rfl rfl rfl rfl rfl, fun ht => h.noTree ht⟩

theorem Inv_setDecoded (t : List Symbol) (v : Bool) (h : Inv P s) (ht : s.tvalid = true) (hl : t.length ≤ s.ilen) :
    Inv P (setDecoded t v s) :=
  ⟨setDecoded_wf t v h.wf, h.plen_le, h.ilen_le, le_trans hl h.ilen_le, h.olen_le,
    fun ht => treeInv_congr (h.tree ht) rfl rfl rfl rfl rfl rfl, fun hf => by simp [ht] at hf⟩

theorem Inv_commitBuild {p : List Symbol} {b : Built} (h : Inv P s) (hb : BuildOf p b) (hn : b.n ≤ P.nsymMax)
    (ho : b.bits.length ≤ P.omax) : Inv P (commitBuild b s) :=
  ⟨commitBuild_wf h.wf hb.size hb.codes hb.codes_wf, h.plen_le, h.ilen_le, h.tlen_le, ho, fun _ => hb.treeInv hn,
    fun hf => by simp at hf⟩

theorem Inv_applyReset (s : State) : Inv P (applyReset s) :=
  ⟨applyReset_wf s, Nat.zero_le _, Nat.zero_le _, Nat.zero_le _, Nat.zero_le _, fun h => (by cases h), fun _ =>
    ⟨rfl, rfl, rfl, rfl, rfl, rfl⟩⟩

theorem defaults_admissible : Config.defaults.Admissible := by
  simp only [Config.Params.Admissible, Config.defaults]
  decide

/-- Every update that a command makes keeps a good state good. -/
theorem Inv_update {i : Instr} {st : Status} {u : State} (h : Inv Config.defaults s) (hu : Update s i st u) :
    Inv Config.defaults u := by
  have hlen : s.plen < 2 ^ 24 := by have := h.plen_le; simp only [Config.defaults] at this; omega
  cases hu with
  | nothing => exact h
  | pclr => exact Inv_clearPb h
  | pput c hc => exact Inv_appendPb c h hc
  | bclr => exact Inv_clearIb h
  | bput c hc => exact Inv_appendIb c h hc
  | build ft bits hb hc hl ho he =>
    exact Inv_commitBuild h (builtOf_spec hc (by simpa using hlen) (ft_length_pos hb hc) (le_trans hl (by decide)) he) hl ho
  | abort st ht _ => exact Inv_setDecoded [] false h ht (Nat.zero_le _)
  | decoded t v ht hl => exact Inv_setDecoded t v h ht hl

end Sys2Proof.Machine

namespace Sys2Proof.Safety

/-- The phrase of a good state is short enough that no count overflows (R110). -/
theorem Inv.plen_lt {P : Config.Params} {s : Machine.State} (h : Inv P s) (hP : P.Admissible) : s.plen < 2 ^ 24 := by
  have := h.plen_le; have := hP.2.1.2; omega

end Sys2Proof.Safety
end

