-- ==== Sys2Proof/Laws/Lengths.lean ====
section
/-! SUPPORT. Frequencies and code lengths in a tree that the merge loop made: Internal nodes are made in order of frequency
(41_tree_builder.md R111 (f)), a more frequent symbol has no longer a code, and the code is complete
(42_code_table_generator.md R123 (d), (e)). -/

namespace Sys2Proof.Machine

open Sys2Proof.Safety

theorem freq_le_of_higherPriority {a : List Node} {x y : Nat} (h : higherPriority a x y = true) :
    (nodeOf a x).freq.toNat ≤ (nodeOf a y).freq.toNat := by
  have hf : ∀ z, (keyOf a z).freq = (nodeOf a z).freq.toNat := by
    intro z; unfold keyOf; dsimp only; split <;> rfl
  have := (keyLt_iff _ _).1 h
  rw [hf, hf] at this
  omega

variable {n : Nat} {a : List Node}

/-- A node that a later merge takes is in Q at every earlier merge that finds it made (R107). -/
theorem inQueue_of_later (hs : TreeShape n a) {i j v : Nat} {c : Bit} (hij : i < j) (hj : j < a.length)
    (hv : (childOf (nodeOf a j) c).toNat = v) (hvi : v < i) : InQueue a n i v := by
  refine ⟨hvi, fun k hk hki => ?_⟩
  have hne : ∀ d : Bit, (childOf (nodeOf a k) d).toNat ≠ v := by
    intro d he
    have := (hs.parent_unique (by omega) hj (hs.internal k hk (by omega)) (hs.internal j (by omega) hj)
      (he.trans hv.symm)).1
    omega
  exact ⟨hne false, hne true⟩

/-- A child taken by an earlier merge is not more frequent than one taken by a later merge. -/
theorem freq_le_of_earlier (hm : MergesOf n a) (hs : TreeShape n a) {i : Nat} (hi : n ≤ i) (c : Bit) : ∀ (j : Nat) (d : Bit),
    i < j → j < a.length →
    (nodeOf a (childOf (nodeOf a i) c).toNat).freq.toNat ≤ (nodeOf a (childOf (nodeOf a j) d).toNat).freq.toNat := by
  intro j
  induction j using Nat.strongRecOn with
  | ind j ih =>
    intro d hij hj
    have hil : i < a.length := by omega
    have hyj := hs.childOf_lt (show n ≤ j by omega) hj d
    have hsum : ∀ k, n ≤ k → k < a.length → ∀ b : Bit,
        (nodeOf a (childOf (nodeOf a k) b).toNat).freq.toNat ≤ (nodeOf a k).freq.toNat := by
      intro k hk hkl b
      have := hm.freq k hk hkl
      cases b <;> simp only [childOf, Bool.false_eq_true, if_false, if_true] <;> omega
    rcases Nat.lt_or_ge (childOf (nodeOf a j) d).toNat i with hlt | hge
    · have hq := inQueue_of_later hs hij hj rfl hlt
      have hne : ∀ b : Bit, (childOf (nodeOf a j) d).toNat ≠ (childOf (nodeOf a i) b).toNat := by
        intro b he
        have := (hs.parent_unique hj hil (hs.internal j (by omega) hj) (hs.internal i hi hil) he).1
        omega
      cases c
      · exact freq_le_of_higherPriority (hm.first i hi hil _ hq (hne false))
      · exact freq_le_of_higherPriority (hm.second i hi hil _ hq (hne false) (hne true))
    · rcases Nat.eq_or_lt_of_le hge with he | hgt
      · rw [← he]; exact hsum i hi hil c
      · exact le_trans (ih _ hyj false hgt (by omega)) (hsum _ (by omega) (by omega) false)

/-- Internal nodes are made in non-decreasing order of frequency (R111 (f)). -/
theorem freq_mono (hm : MergesOf n a) (hs : TreeShape n a) {i j : Nat} (hi : n ≤ i) (hij : i < j) (hj : j < a.length) :
    (nodeOf a i).freq.toNat ≤ (nodeOf a j).freq.toNat := by
  have h1 := freq_le_of_earlier hm hs hi false j false hij hj
  have h2 := freq_le_of_earlier hm hs hi true j true hij hj
  simp only [childOf, Bool.false_eq_true, if_false, if_true] at h1 h2
  rw [hm.freq i hi (by omega), hm.freq j (by omega) hj]
  omega

/-- The Internal nodes leave Q in the order in which they were made (R104, rule 5). -/
theorem parent_mono (hm : MergesOf n a) (hs : TreeShape n a) {s t i j : Nat} {c d : Bit} (hst : s ≤ t) (hns : n ≤ s)
    (hi : i < a.length) (hj : j < a.length) (hki : (nodeOf a i).kind = .internal) (hkj : (nodeOf a j).kind = .internal)
    (hci : (childOf (nodeOf a i) c).toNat = s) (hcj : (childOf (nodeOf a j) d).toNat = t) : i ≤ j := by
  have hni := (hs.internal_iff hi).1 hki
  have hnj := (hs.internal_iff hj).1 hkj
  rcases Nat.eq_or_lt_of_le hst with rfl | hlt
  · exact le_of_eq (hs.parent_unique hi hj hki hkj (hci.trans hcj.symm)).1
  · by_contra hc
    have hsi := hs.childOf_lt hni hi c
    have htj := hs.childOf_lt hnj hj d
    rw [hci] at hsi
    rw [hcj] at htj
    have hq := inQueue_of_later hs (show j < i by omega) hi hci (by omega)
    have hne : ∀ b : Bit, s ≠ (childOf (nodeOf a j) b).toNat := by
      intro b he
      have := (hs.parent_unique hi hj hki hkj (hci.trans he)).1
      omega
    have hp : higherPriority a t s = true := by
      cases d
      · have := hm.first j hnj hj s hq (hne false)
        rwa [show (nodeOf a j).left.toNat = t from hcj] at this
      · have := hm.second j hnj hj s hq (hne false) (hne true)
        rwa [show (nodeOf a j).right.toNat = t from hcj] at this
    have hf := freq_mono hm hs hns hlt (by omega)
    have hlex := (keyLt_iff _ _).1 hp
    simp only [keyOf, hs.internal s hns (by omega), hs.internal t (by omega) (by omega)] at hlex
    omega

/-- A node taken earlier is at least as deep. -/
theorem depth_le (hm : MergesOf n a) (hs : TreeShape n a) : ∀ (q p : List Bit) (u v : Nat) (c d : Bit),
    follow a (a.length - 1) p = some u → follow a (a.length - 1) q = some v → (nodeOf a u).kind = .internal →
    (nodeOf a v).kind = .internal → u ≤ v → (q ++ [d]).length ≤ (p ++ [c]).length := by
  have hr : a.length - 1 < a.length := by have := hs.length_pos; omega
  intro q
  induction q using List.reverseRecOn with
  | nil => intro p u v c d _ _ _ _ _; simp
  | append_singleton q b ih =>
    intro p u v c d hp hq hku hkv huv
    obtain ⟨v', hv', hkv', -, hcv⟩ := follow_snoc hq
    have hvl := hs.follow_lt _ _ _ hr hv'
    have hvr : v < a.length - 1 := by rw [← hcv]; exact hs.mem_lt (TreeShape.childOf_mem hvl hkv' b)
    induction p using List.reverseRecOn with
    | nil =>
      simp only [follow, Option.some.injEq] at hp
      omega
    | append_singleton p e _ =>
      obtain ⟨u', hu', hku', -, hcu⟩ := follow_snoc hp
      have hul := hs.follow_lt _ _ _ hr hu'
      have hnu : n ≤ u := (hs.internal_iff (by omega)).1 hku
      have := ih p u' v' e b hu' hv' hku' hkv' (parent_mono hm hs huv hnu hul hvl hku' hkv' hcu hcv)
      simp only [List.length_append, List.length_singleton] at this ⊢
      omega

/-- A more frequent Leaf is not deeper (R123 (e)). -/
theorem length_le_of_freq_lt (hm : MergesOf n a) (hs : TreeShape n a) (hn : n ≠ 1) {i j : Nat} (hi : i < n) (hj : j < n)
    {p q : List Bit} (hp : follow a (a.length - 1) p = some i) (hq : follow a (a.length - 1) q = some j)
    (hf : (nodeOf a j).freq.toNat < (nodeOf a i).freq.toNat) : p.length ≤ q.length := by
  have hr : a.length - 1 < a.length := by have := hs.length_pos; omega
  have hnr : n ≤ a.length - 1 := by have := hs.size; have := hs.pos; omega
  obtain rfl | ⟨p, b, rfl⟩ := p.eq_nil_or_concat
  · simp only [follow, Option.some.injEq] at hp; omega
  obtain rfl | ⟨q, c, rfl⟩ := q.eq_nil_or_concat
  · simp only [follow, Option.some.injEq] at hq; omega
  rw [List.concat_eq_append] at hp hq ⊢
  rw [List.concat_eq_append]
  obtain ⟨u, hu, hku, -, hcu⟩ := follow_snoc hp
  obtain ⟨v, hv, hkv, -, hcv⟩ := follow_snoc hq
  have hul := hs.follow_lt _ _ _ hr hu
  have hvl := hs.follow_lt _ _ _ hr hv
  refine depth_le hm hs p q v u c b hv hu hkv hku ?_
  by_contra hc
  have := freq_le_of_earlier hm hs ((hs.internal_iff hul).1 hku) b v c (by omega) hvl
  rw [hcu, hcv] at this
  omega

/-! ### The code is complete -/

theorem sum_childList (f : Nat → ℚ) (l : List Node) :
    ((childList l).map f).sum = (l.map (fun d => ((childrenOf d).map f).sum)).sum := by
  induction l with
  | nil => rfl
  | cons d l ih =>
    simp only [childList, List.flatMap_cons, List.map_append, List.sum_append, List.map_cons, List.sum_cons]
    rw [← ih]; rfl

/-- Every node is the root or a child, once (R36 (e)). -/
theorem TreeShape.perm (h : TreeShape n a) : ((a.length - 1) :: childList a).Perm (List.range a.length) := by
  have hlt : ∀ v ∈ childList a, v < a.length - 1 := fun v hv => h.mem_lt hv
  refine (List.perm_ext_iff_of_nodup ?_ List.nodup_range).2 fun v => ?_
  · exact List.nodup_cons.2 ⟨fun hv => absurd (hlt _ hv) (by omega), h.childList_nodup⟩
  · have := h.length_pos
    rw [List.mem_cons, List.mem_range]
    constructor
    · rintro (rfl | hv)
      · omega
      · have := hlt v hv; omega
    · intro hv
      by_cases hr : v = a.length - 1
      · exact Or.inl hr
      · right
        rw [← List.count_pos_iff, h.owned v hv, if_neg hr]; omega

/-- The depth of a node. -/
def depthOf (a : List Node) (v : Nat) : Nat := (pathTo a (a.length - 1) a.length v).length

theorem TreeShape.depth_child (h : TreeShape n a) {i : Nat} (hi : n ≤ i) (hl : i < a.length) (b : Bit) :
    depthOf a (childOf (nodeOf a i) b).toNat = depthOf a i + 1 := by
  have hc := h.childOf_lt hi hl b
  have hp := h.pathTo_follow a.length i hl (by omega)
  have hq := h.pathTo_follow a.length (childOf (nodeOf a i) b).toNat (by omega) (by omega)
  have hs : follow a (a.length - 1) (pathTo a (a.length - 1) a.length i ++ [b]) = some (childOf (nodeOf a i) b).toNat := by
    rw [follow_append, hp, Option.bind_some, follow_step (h.internal i hi hl) (h.childOf_ne hi hl b)]
  rw [depthOf, h.follow_unique _ _ _ hq hs, List.length_append, List.length_singleton, depthOf]

theorem map_nodeOf_range (a : List Node) : (List.range a.length).map (nodeOf a) = a := by
  apply List.ext_getElem
  · simp
  · intro i h1 h2
    rw [List.getElem_map, List.getElem_range, nodeOf_eq_getElem h2]

/-- The sum of 2^(−depth) over the Leaves is 1 (R123 (d)). -/
theorem TreeShape.kraft (h : TreeShape n a) : ((List.range n).map (fun i => (1 / 2 : ℚ) ^ depthOf a i)).sum = 1 := by
  have hsplit : ∀ g : Nat → ℚ, ((List.range a.length).map g).sum =
      ((List.range n).map g).sum + ((List.range' n (a.length - n)).map g).sum := by
    intro g
    rw [← List.sum_append, ← List.map_append, List.range_eq_range' (n := n), List.range_eq_range' (n := a.length)]
    congr 2
    have := List.range'_append_1 (s := 0) (m := n) (n := a.length - n)
    rw [Nat.zero_add, Nat.add_sub_cancel' h.n_le] at this
    exact this.symm
  have hroot : depthOf a (a.length - 1) = 0 := by
    have hp := h.pathTo_follow a.length (a.length - 1) (by have := h.length_pos; omega) (by have := h.length_pos; omega)
    rw [depthOf, h.follow_unique _ [] _ hp rfl, List.length_nil]
  have hchild : ((childList a).map (fun i => (1 / 2 : ℚ) ^ depthOf a i)).sum =
      ((List.range' n (a.length - n)).map (fun i => (1 / 2 : ℚ) ^ depthOf a i)).sum := by
    have hmap : ∀ g : Node → ℚ, a.map g = (List.range a.length).map (g ∘ nodeOf a) := by
      intro g
      rw [← List.map_map, map_nodeOf_range]
    rw [sum_childList, hmap, hsplit]
    have hz : ((List.range n).map ((fun d => ((childrenOf d).map (fun i => (1 / 2 : ℚ) ^ depthOf a i)).sum) ∘ nodeOf a)).sum
        = 0 := by
      apply List.sum_eq_zero
      intro x hx
      obtain ⟨i, hi, rfl⟩ := List.mem_map.1 hx
      simp [childrenOf, h.leaf i (List.mem_range.1 hi)]
    rw [hz, zero_add]
    congr 1
    apply List.map_congr_left
    intro i hi
    have hi' := List.mem_range'_1.1 hi
    have hil : i < a.length := by have := h.n_le; omega
    have h1 := h.depth_child hi'.1 hil false
    have h2 := h.depth_child hi'.1 hil true
    simp only [childOf, Bool.false_eq_true, if_false, if_true] at h1 h2
    simp only [Function.comp, childrenOf, h.internal i hi'.1 hil, List.map_cons, List.map_nil, List.sum_cons, List.sum_nil,
      h1, h2, pow_succ]
    ring
  have hall := (h.perm.map (fun i => (1 / 2 : ℚ) ^ depthOf a i)).sum_eq
  rw [List.map_cons, List.sum_cons, hroot, pow_zero, hsplit, hchild] at hall
  linarith

end Sys2Proof.Machine
end

