-- ==== Sys2Proof/Laws/PerInstr.lean ====
section
/-! SUPPORT. Statements made of every command, one lemma per constructor: decoding the encoding of a well-formed command
gives the command back (30_encoding.md R71, R75). -/

namespace Sys2Proof.Laws.RoundTrip

/-- Decoding the word of a well-formed command gives the command. -/
def Statement (i : Instr) : Prop := i.wellFormed = true → Sys2Proof.decode (encode i) = .command i

theorem nop : Statement .nop := fun _ => by
  simp only [encode, Sys2Proof.decode, opField_wordZ, formatZ_wordZ]
  rfl

theorem rdcr (x : Nat) : Statement (.rdcr x) := fun h => by
  simp only [encode, Sys2Proof.decode, opField_wordX,
    formatX_wordX _ (of_decide_eq_true h)]
  rfl

theorem pclr : Statement .pclr := fun _ => by
  simp only [encode, Sys2Proof.decode, opField_wordZ, formatZ_wordZ]
  rfl

theorem pput (c : Symbol) : Statement (.pput c) := fun _ => by
  simp only [encode, Sys2Proof.decode, opField_wordC, formatC_wordC]
  rfl

theorem build : Statement .build := fun _ => by
  simp only [encode, Sys2Proof.decode, opField_wordZ, formatZ_wordZ]
  rfl

theorem bclr : Statement .bclr := fun _ => by
  simp only [encode, Sys2Proof.decode, opField_wordZ, formatZ_wordZ]
  rfl

theorem bput (c : Symbol) : Statement (.bput c) := fun _ => by
  simp only [encode, Sys2Proof.decode, opField_wordC, formatC_wordC]
  rfl

theorem decode : Statement .decode := fun _ => by
  simp only [encode, Sys2Proof.decode, opField_wordZ, formatZ_wordZ]
  rfl

theorem rdnk (x : Nat) : Statement (.rdnk x) := fun h => by
  simp only [encode, Sys2Proof.decode, opField_wordX,
    formatX_wordX _ (of_decide_eq_true h)]
  rfl

theorem rdnf (x : Nat) : Statement (.rdnf x) := fun h => by
  simp only [encode, Sys2Proof.decode, opField_wordX,
    formatX_wordX _ (of_decide_eq_true h)]
  rfl

theorem rdnl (x : Nat) : Statement (.rdnl x) := fun h => by
  simp only [encode, Sys2Proof.decode, opField_wordX,
    formatX_wordX _ (of_decide_eq_true h)]
  rfl

theorem rdnr (x : Nat) : Statement (.rdnr x) := fun h => by
  simp only [encode, Sys2Proof.decode, opField_wordX,
    formatX_wordX _ (of_decide_eq_true h)]
  rfl

theorem rdcs (x : Nat) : Statement (.rdcs x) := fun h => by
  simp only [encode, Sys2Proof.decode, opField_wordX,
    formatX_wordX _ (of_decide_eq_true h)]
  rfl

theorem rdcl (x : Nat) : Statement (.rdcl x) := fun h => by
  simp only [encode, Sys2Proof.decode, opField_wordX,
    formatX_wordX _ (of_decide_eq_true h)]
  rfl

theorem rdcb (e k : Nat) : Statement (.rdcb e k) := fun h => by
  have h' := (Bool.and_eq_true _ _).mp h
  simp only [encode, Sys2Proof.decode, opField_wordK,
    formatK_wordK _ (of_decide_eq_true h'.1) (of_decide_eq_true h'.2)]
  rfl

theorem lkup (c : Symbol) : Statement (.lkup c) := fun _ => by
  simp only [encode, Sys2Proof.decode, opField_wordC, formatC_wordC]
  rfl

theorem rdob (x : Nat) : Statement (.rdob x) := fun h => by
  simp only [encode, Sys2Proof.decode, opField_wordX,
    formatX_wordX _ (of_decide_eq_true h)]
  rfl

theorem rdtx (x : Nat) : Statement (.rdtx x) := fun h => by
  simp only [encode, Sys2Proof.decode, opField_wordX,
    formatX_wordX _ (of_decide_eq_true h)]
  rfl

end Sys2Proof.Laws.RoundTrip
end

