-- ==== Sys2Proof/Laws/Permutation.lean ====
section
/-! SUPPORT. The tree and the codes of a phrase depend on the counts of its symbols alone, not on the order in which they
occur (41_tree_builder.md R108): the two trees differ only in how their Leaves are numbered. -/

namespace Sys2Proof.Machine

open Sys2Proof.Safety

/-- `f` renumbers the Leaves of `a` as those of `b`, keeping symbol and frequency, and keeps every Internal node. -/
structure Renumbers (n : Nat) (a b : List Node) (f : Nat → Nat) : Prop where
  lt : ∀ i < n, f i < n
  keep : ∀ i, n ≤ i → f i = i
  onto : ∀ j < n, ∃ i < n, f i = j
  kind : ∀ i < n, (nodeOf a i).kind = .leaf ∧ (nodeOf b i).kind = .leaf
  sym : ∀ i < n, (nodeOf b (f i)).sym = (nodeOf a i).sym
  freq : ∀ i < n, (nodeOf b (f i)).freq.toNat = (nodeOf a i).freq.toNat

variable {n : Nat} {a b : List Node} {f : Nat → Nat}

theorem Renumbers.onto_lt (h : Renumbers n a b f) {i j : Nat} (hi : n ≤ i) (hj : j < i) : ∃ k < i, f k = j := by
  by_cases hn : j < n
  · obtain ⟨k, hk, e⟩ := h.onto j hn
    exact ⟨k, by omega, e⟩
  · exact ⟨j, hj, h.keep j (by omega)⟩

theorem Renumbers.lt_of_lt (h : Renumbers n a b f) {i k : Nat} (hi : n ≤ i) (hk : k < i) : f k < i := by
  by_cases hn : k < n
  · have := h.lt k hn; omega
  · rw [h.keep k (by omega)]; exact hk

/-- What corresponds at node `i`: for an Internal node, the frequency and both children. -/
def SameMerge (a b : List Node) (f : Nat → Nat) (i : Nat) : Prop :=
  (nodeOf b i).freq.toNat = (nodeOf a i).freq.toNat ∧ (nodeOf b i).left.toNat = f (nodeOf a i).left.toNat ∧
    (nodeOf b i).right.toNat = f (nodeOf a i).right.toNat

theorem Renumbers.keyOf (h : Renumbers n a b f) (ha : MergesOf n a) (hb : MergesOf n b) {i v : Nat} (hi : i ≤ a.length)
    (hl : b.length = a.length) (hs : ∀ j, n ≤ j → j < i → SameMerge a b f j) (hv : v < i) :
    keyOf b (f v) = keyOf a v := by
  by_cases hn : v < n
  · simp only [Machine.keyOf, (h.kind v hn).1, (h.kind (f v) (h.lt v hn)).2, h.sym v hn, h.freq v hn]
  · rw [h.keep v (by omega)]
    simp only [Machine.keyOf, (ha.internal v (by omega) (by omega)).1, (hb.internal v (by omega) (by omega)).1,
      (hs v (by omega) hv).1]

theorem Renumbers.inQueue (h : Renumbers n a b f) (hinj : ∀ x y, f x = f y → x = y) {i v : Nat} (hi : n ≤ i)
    (hs : ∀ j, n ≤ j → j < i → SameMerge a b f j) : InQueue b n i (f v) ↔ InQueue a n i v := by
  unfold InQueue
  refine and_congr ⟨fun hv => ?_, fun hv => h.lt_of_lt hi hv⟩ ?_
  · obtain ⟨k, hk, e⟩ := h.onto_lt hi hv
    rwa [← hinj _ _ e]
  · refine forall_congr' fun j => imp_congr_right fun hj => imp_congr_right fun hji => ?_
    rw [(hs j hj hji).2.1, (hs j hj hji).2.2]
    exact and_congr (not_congr ⟨fun e => hinj _ _ e, fun e => by rw [e]⟩)
      (not_congr ⟨fun e => hinj _ _ e, fun e => by rw [e]⟩)

theorem higherPriority_asymm {a : List Node} {x y : Nat} (h : higherPriority a x y = true) (h' : higherPriority a y x = true) :
    False := by
  have := keyLt_trans h h'
  rw [keyLt_irrefl] at this; cases this

/-- Two merge sequences from the same Leaves, differently numbered, make the same merges (R107, R108). -/
theorem Renumbers.sameMerge (h : Renumbers n a b f) (hinj : ∀ x y, f x = f y → x = y) (ha : MergesOf n a)
    (hb : MergesOf n b) (hl : b.length = a.length) : ∀ i, n ≤ i → i < a.length → SameMerge a b f i := by
  intro i
  induction i using Nat.strongRecOn with
  | ind i ih =>
    intro hi hil
    have hs : ∀ j, n ≤ j → j < i → SameMerge a b f j := fun j hj hji => ih j hji hj (by omega)
    have hkey : ∀ v < i, Machine.keyOf b (f v) = Machine.keyOf a v := fun v hv => h.keyOf ha hb (by omega) hl hs hv
    have hprio : ∀ x y, x < i → y < i → higherPriority b (f x) (f y) = higherPriority a x y := by
      intro x y hx hy; simp only [higherPriority, hkey x hx, hkey y hy]
    have hq : ∀ v, InQueue b n i (f v) ↔ InQueue a n i v := fun v => h.inQueue hinj hi hs
    obtain ⟨qla, qra⟩ := ha.queued i hi hil
    obtain ⟨qlb, qrb⟩ := hb.queued i hi (by omega)
    have hleft : (nodeOf b i).left.toNat = f (nodeOf a i).left.toNat := by
      obtain ⟨k, hk, e⟩ := h.onto_lt hi qlb.1
      rw [← e]
      by_contra hne
      have hkl : k ≠ (nodeOf a i).left.toNat := fun h' => hne (by rw [h'])
      have h1 := ha.first i hi hil k ((hq k).1 (by rw [e]; exact qlb)) hkl
      have h2 := hb.first i hi (by omega) _ ((hq _).2 qla) (by rw [← e]; exact fun h' => hne h'.symm)
      rw [← e, hprio _ _ hk qla.1] at h2
      exact higherPriority_asymm h1 h2
    have hright : (nodeOf b i).right.toNat = f (nodeOf a i).right.toNat := by
      obtain ⟨k, hk, e⟩ := h.onto_lt hi qrb.1
      rw [← e]
      by_contra hne
      have hkr : k ≠ (nodeOf a i).right.toNat := fun h' => hne (by rw [h'])
      have hkl : k ≠ (nodeOf a i).left.toNat := by
        intro h'
        exact hb.apart i hi (by omega) (BitVec.eq_of_toNat_eq (by rw [hleft, ← e, h']))
      have hrl : f (nodeOf a i).right.toNat ≠ (nodeOf b i).left.toNat := by
        rw [hleft]
        intro h'
        exact ha.apart i hi hil (BitVec.eq_of_toNat_eq (hinj _ _ h').symm)
      have h1 := ha.second i hi hil k ((hq k).1 (by rw [e]; exact qrb)) hkl hkr
      have h2 := hb.second i hi (by omega) _ ((hq _).2 qra) hrl (by rw [← e]; exact fun h' => hne h'.symm)
      rw [← e, hprio _ _ hk qra.1] at h2
      exact higherPriority_asymm h1 h2
    have hfreq : ∀ v < i, (nodeOf b (f v)).freq.toNat = (nodeOf a v).freq.toNat := by
      intro v hv
      by_cases hn : v < n
      · exact h.freq v hn
      · rw [h.keep v (by omega)]; exact (hs v (by omega) hv).1
    refine ⟨?_, hleft, hright⟩
    rw [ha.freq i hi hil, hb.freq i hi (by omega), hleft, hright, hfreq _ qla.1, hfreq _ qra.1]

/-- So every path leads to the corresponding node. -/
theorem Renumbers.follow (h : Renumbers n a b f) (hinj : ∀ x y, f x = f y → x = y) (ha : MergesOf n a) (hb : MergesOf n b)
    (sa : TreeShape n a) (sb : TreeShape n b) : ∀ (p : List Bit) (v u : Nat), v < a.length →
    Safety.follow a v p = some u → Safety.follow b (f v) p = some (f u)
  | [], v, u, _, hf => by
    simp only [Safety.follow, Option.some.injEq] at hf ⊢
    rw [hf]
  | c :: p, v, u, hv, hf => by
    have hl : b.length = a.length := by rw [sa.size, sb.size]
    obtain ⟨hk, -, hf'⟩ := follow_cons hf
    have hn := (sa.internal_iff hv).1 hk
    have hm := h.sameMerge hinj ha hb hl v hn hv
    have hc : (childOf (nodeOf b v) c).toNat = f (childOf (nodeOf a v) c).toNat := by
      cases c
      · exact hm.2.1
      · exact hm.2.2
    have ih := h.follow hinj ha hb sa sb p _ u (by have := sa.childOf_lt hn hv c; omega) hf'
    rw [h.keep v hn]
    simp only [Safety.follow, sb.internal v hn (by omega), sb.childOf_ne hn (by omega) c, if_false, hc]
    exact ih

/-! ### The renumbering of two phrases with the same counts -/

theorem leaves_sym_inj {p : List Symbol} {n : Nat} {a : List Node} (h : LeavesOf p n a) {i j : Nat} (hi : i < n)
    (hj : j < n) (he : (nodeOf a i).sym = (nodeOf a j).sym) : i = j := by
  by_contra hne
  rcases Nat.lt_or_gt_of_ne hne with hl | hl
  · have := h.order i j hl hj; rw [he] at this; omega
  · have := h.order j i hl hi; rw [he] at this; omega

/-- Every character of the phrase has a Leaf (R91 (a)). -/
theorem leaves_exist {p : List Symbol} {n : Nat} {a : List Node} (h : LeavesOf p n a) {c : Symbol} (hc : c ∈ p) :
    ∃ i < n, (nodeOf a i).sym = c := by
  have hnd : ((List.range n).map (fun i => (nodeOf a i).sym)).Nodup :=
    List.Nodup.map_on (fun i hi j hj he => leaves_sym_inj h (List.mem_range.1 hi) (List.mem_range.1 hj) he) List.nodup_range
  have hsub : (List.range n).map (fun i => (nodeOf a i).sym) ⊆ p.dedup := by
    intro x hx
    obtain ⟨i, hi, rfl⟩ := List.mem_map.1 hx
    exact List.mem_dedup.2 (h.occurs i (List.mem_range.1 hi))
  have hperm := (hnd.subperm hsub).perm_of_length_le (by rw [List.length_map, List.length_range, h.distinct])
  obtain ⟨i, hi, rfl⟩ := List.mem_map.1 (hperm.mem_iff.2 (List.mem_dedup.2 hc))
  exact ⟨i, List.mem_range.1 hi, rfl⟩

/-- The Leaf of `b` with the symbol of Leaf `i` of `a`; every other index stays. -/
def leafLike (n : Nat) (a b : List Node) (i : Nat) : Nat :=
  if i < n then ((List.range n).find? (fun j => (nodeOf b j).sym == (nodeOf a i).sym)).getD i else i

theorem leafLike_spec {p q : List Symbol} {n : Nat} {a b : List Node} (hp : LeavesOf p n a) (hq : LeavesOf q n b)
    (hpq : ∀ c, c ∈ p ↔ c ∈ q) {i : Nat} (hi : i < n) :
    leafLike n a b i < n ∧ (nodeOf b (leafLike n a b i)).sym = (nodeOf a i).sym := by
  obtain ⟨j, hj, he⟩ := leaves_exist hq ((hpq _).1 (hp.occurs i hi))
  rw [leafLike, if_pos hi]
  cases hf : (List.range n).find? (fun j => (nodeOf b j).sym == (nodeOf a i).sym) with
  | none =>
    have := List.find?_eq_none.1 hf j (List.mem_range.2 hj)
    simp [he] at this
  | some k =>
    exact ⟨List.mem_range.1 (List.mem_of_find?_eq_some hf), by simpa using List.find?_some hf⟩

theorem leafLike_inj {p q : List Symbol} {n : Nat} {a b : List Node} (hp : LeavesOf p n a) (hq : LeavesOf q n b)
    (hpq : ∀ c, c ∈ p ↔ c ∈ q) (x y : Nat) (he : leafLike n a b x = leafLike n a b y) : x = y := by
  have hge : ∀ z, ¬ z < n → leafLike n a b z = z := fun z hz => if_neg hz
  by_cases hx : x < n <;> by_cases hy : y < n
  · apply leaves_sym_inj hp hx hy
    rw [← (leafLike_spec hp hq hpq hx).2, ← (leafLike_spec hp hq hpq hy).2, he]
  · have := (leafLike_spec hp hq hpq hx).1; rw [he, hge y hy] at this; omega
  · have := (leafLike_spec hp hq hpq hy).1; rw [← he, hge x hx] at this; omega
  · rwa [hge x hx, hge y hy] at he

theorem renumbers_leafLike {p q : List Symbol} {n : Nat} {a b : List Node} (hp : LeavesOf p n a) (hq : LeavesOf q n b)
    (hpq : p.Perm q) : Renumbers n a b (leafLike n a b) := by
  have hm : ∀ c, c ∈ p ↔ c ∈ q := fun c => hpq.mem_iff
  refine ⟨fun i hi => (leafLike_spec hp hq hm hi).1, fun i hi => if_neg (by omega), fun j hj => ?_,
    fun i hi => ⟨(hp.leaf i hi).1, (hq.leaf i hi).1⟩, fun i hi => (leafLike_spec hp hq hm hi).2, fun i hi => ?_⟩
  · obtain ⟨i, hi, he⟩ := leaves_exist hp ((hm _).2 (hq.occurs j hj))
    refine ⟨i, hi, leaves_sym_inj hq (leafLike_spec hp hq hm hi).1 hj ?_⟩
    rw [(leafLike_spec hp hq hm hi).2, he]
  · rw [hq.count _ (leafLike_spec hp hq hm hi).1, hp.count i hi, (leafLike_spec hp hq hm hi).2, hpq.count_eq]

/-- Two BUILDs on permutations of one phrase give each symbol the same code (R108). -/
theorem BuildOf.codes_perm {p q : List Symbol} {x y : Built} (hx : BuildOf p x) (hy : BuildOf q y) (hpq : p.Perm q) :
    ∀ i < x.n, ∃ j < y.n, (cell freeCode y.codes j).sym = (cell freeCode x.codes i).sym ∧
      (cell freeCode y.codes j).bits = (cell freeCode x.codes i).bits := by
  have hn : y.n = x.n := by rw [hx.n_eq, hy.n_eq, hpq.dedup.length_eq]
  have lx : LeavesOf p x.n x.nodes := hx.codes ▸ hx.huffman.leaves
  have ly : LeavesOf q x.n y.nodes := by have := hy.huffman.leaves; rwa [hy.codes, hn] at this
  have cx : CodesOf x.n x.nodes x.codes := hx.codes ▸ hx.huffman.codes
  have cy : CodesOf x.n y.nodes y.codes := by have := hy.huffman.codes; rwa [hy.codes, hn] at this
  have my : MergesOf x.n y.nodes := hn ▸ hy.merge.merges
  have sy : TreeShape x.n y.nodes := hn ▸ hy.shape
  have hm : ∀ c, c ∈ p ↔ c ∈ q := fun c => hpq.mem_iff
  have hr := renumbers_leafLike lx ly hpq
  intro i hi
  have hs := leafLike_spec lx ly hm hi
  refine ⟨leafLike x.n x.nodes y.nodes i, by rw [hn]; exact hs.1, ?_, ?_⟩
  · rw [cy.sym _ hs.1, cx.sym i hi, hs.2]
  · by_cases h1 : x.n = 1
    · have hz : ∀ z < x.n, z = 0 := fun z hz => by omega
      rw [hz _ hs.1, hz _ hi, cx.single h1, cy.single h1]
    · have hpos := hx.n_pos
      have hsize := hx.size
      have hsize' := sy.size
      have hroot : leafLike x.n x.nodes y.nodes (x.nodes.length - 1) = y.nodes.length - 1 := by
        rw [hr.keep _ (by omega)]; omega
      have hf := hr.follow (leafLike_inj lx ly hm) hx.merge.merges my hx.shape sy _ _ _ (by omega) (cx.path h1 i hi)
      rw [hroot] at hf
      exact sy.follow_unique _ _ _ (cy.path h1 _ hs.1) hf

end Sys2Proof.Machine
end

