-- ==== Sys2Proof/Tests/Slice0.lean ====
section
/-! SUPPORT. Tests: ill-formed terms that WellFormed refuses, words written out from the encoding tables, vectors of
95_test_vectors.md on one command each, and for each statement states and operands that meet its hypotheses. -/

namespace Sys2Proof.Tests

open Sys2Proof.Machine Sys2Proof.Safety

/-! ### Well-formedness: one ill-formed term for each check, and the largest well-formed ones -/

theorem test_wellFormed_index : Instr.wellFormed (.rdcr (2 ^ 24)) = false ∧ Instr.wellFormed (.rdcr (2 ^ 24 - 1)) = true := by
  decide

theorem test_wellFormed_index_each : Instr.wellFormed (.rdnk (2 ^ 24)) = false ∧ Instr.wellFormed (.rdnf (2 ^ 24)) = false ∧
    Instr.wellFormed (.rdnl (2 ^ 24)) = false ∧ Instr.wellFormed (.rdnr (2 ^ 24)) = false ∧
    Instr.wellFormed (.rdcs (2 ^ 24)) = false ∧ Instr.wellFormed (.rdcl (2 ^ 24)) = false ∧
    Instr.wellFormed (.rdob (2 ^ 24)) = false ∧ Instr.wellFormed (.rdtx (2 ^ 24)) = false := by decide

theorem test_wellFormed_entry : Instr.wellFormed (.rdcb 4096 0) = false ∧ Instr.wellFormed (.rdcb 0 4096) = false ∧
    Instr.wellFormed (.rdcb 4095 4095) = true := by decide

theorem test_wellFormed_noOperand : Instr.wellFormed .nop = true ∧ Instr.wellFormed (.lkup 0xFFFF#16) = true := by decide

/-! ### Decoding: a word of every command, written out from 30_encoding.md R71 and R75 -/

theorem test_decode_system : decode 0x00000000#32 = .command .nop ∧ decode 0x01000007#32 = .command (.rdcr 7) := by decide

theorem test_decode_phrase : decode 0x10000000#32 = .command .pclr ∧ decode 0x1100FFFF#32 = .command (.pput 0xFFFF#16) ∧
    decode 0x12000000#32 = .command .build := by decide

theorem test_decode_input : decode 0x20000000#32 = .command .bclr ∧ decode 0x21000031#32 = .command (.bput 0x0031#16) ∧
    decode 0x22000000#32 = .command .decode := by decide

theorem test_decode_node : decode 0x30000001#32 = .command (.rdnk 1) ∧ decode 0x31000100#32 = .command (.rdnf 256) ∧
    decode 0x32010000#32 = .command (.rdnl 65536) ∧ decode 0x33800000#32 = .command (.rdnr 0x800000) := by decide

theorem test_decode_code : decode 0x40000002#32 = .command (.rdcs 2) ∧ decode 0x41FFFFFF#32 = .command (.rdcl 0xFFFFFF) ∧
    decode 0x42002001#32 = .command (.rdcb 2 1) ∧ decode 0x42FFF000#32 = .command (.rdcb 0xFFF 0) ∧
    decode 0x4300007A#32 = .command (.lkup 0x007A#16) := by decide

theorem test_decode_result : decode 0x50000010#32 = .command (.rdob 16) ∧ decode 0x51000001#32 = .command (.rdtx 1) := by
  decide

/-- 95_test_vectors.md V19 and 30_encoding.md R76. -/
theorem test_decode_illegal : decode 0x00000001#32 = .illegal .operandNotZero ∧
    decode 0x10000001#32 = .illegal .operandNotZero ∧ decode 0x11010061#32 = .illegal .upperByteNotZero ∧
    decode 0x43FF0061#32 = .illegal .upperByteNotZero ∧ decode 0x02000000#32 = .illegal .unknownOpcode ∧
    decode 0xFFFFFFFF#32 = .illegal .unknownOpcode := by decide

theorem test_encode : encode (.rdcb 2 1) = 0x42002001#32 ∧ encode (.pput 0x0061#16) = 0x11000061#32 ∧
    encode (.rdnf 256) = 0x31000100#32 ∧ encode .decode = 0x22000000#32 := by decide

theorem test_decodeTableWord : decodeTableWord 32 0x22000000 = some .decode ∧ decodeTableWord 32 0x02000000 = none := by
  decide

/-! ### Small states -/

/-- The state in which the phrase `p` is loaded and nothing else is. -/
def phrase (p : List Symbol) : State := { State.reset with pb := p, plen := p.length }

/-- `s` with the characters `p` in the decode input buffer. -/
def feed (p : List Symbol) (s : State) : State := { s with ib := p, ilen := p.length }

/-- The next state, where there is one. -/
def after (r : Result) : State :=
  match r with
  | .next t => t
  | .fault _ => State.reset
  | .refused _ => State.reset

/-- The last response word given. -/
def response (r : Result) : Option Word :=
  match r with
  | .next t => t.rsps.getLast?
  | .fault _ => none
  | .refused _ => none

/-- The phrase " ab" (95_test_vectors.md V4). -/
def spaceAb : State := phrase [0x20#16, 0x61#16, 0x62#16]

/-- The tree of " ab". -/
def builtSpaceAb : State := after (exec .build spaceAb)

/-- The tree of "aaaa", a single Leaf (S1). -/
def builtA : State := after (exec .build (phrase [0x61#16, 0x61#16, 0x61#16, 0x61#16]))

/-- A tree that no BUILD makes: the left children of " ab" are missing (V15). -/
def broken : State := { builtSpaceAb with node := builtSpaceAb.node.map (fun d => { d with left := Config.nil }) }

/-- The input buffers at their capacities. -/
def full : State := { State.reset with plen := 4096, ilen := 65536 }

/-- The input buffers one below their capacities. -/
def nearlyFull : State := { State.reset with plen := 4095, ilen := 65535 }

/-- The defaults with another NSYM_MAX and OMAX. -/
def small (n o : Nat) : Config.Params := { Config.defaults with nsymMax := n, omax := o }

/-! ### Vectors -/

theorem test_nop : response (exec .nop State.reset) = some 0x00000000#32 := by decide

/-- V20: STATUS and the control registers after " ab" is built. -/
theorem test_rdcr : response (exec (.rdcr 0) builtSpaceAb) = some 0x00000001#32 ∧
    response (exec (.rdcr 5) builtSpaceAb) = some 0x00000004#32 ∧ response (exec (.rdcr 6) builtSpaceAb) = some 0x00000005#32 ∧
    response (exec (.rdcr 8) builtSpaceAb) = some 0x60000000#32 := by decide

/-- R93: the retained tree stays. -/
theorem test_pclr : (after (exec .pclr builtSpaceAb)).plen = 0 ∧ (after (exec .pclr builtSpaceAb)).tvalid = true := by decide

/-- R94. -/
theorem test_pput : response (exec (.pput 0x61#16) State.reset) = some 0x00000001#32 ∧
    response (exec (.pput 0x61#16) full) = some 0x50000000#32 := by decide

/-- V4: the tree, the codes and the encoding of " ab". -/
theorem test_build : response (exec .build spaceAb) = some 0x00000005#32 ∧
    builtSpaceAb.ob = [true, false, true, true, false] ∧
    (builtSpaceAb.ct.map (·.bits)) = [[true, false], [true, true], [false]] ∧ builtSpaceAb.root = 4#13 := by decide

/-- V8, R177: a whitespace-only phrase; V6: two Internal nodes of equal frequency. -/
theorem test_build_more : response (exec .build (phrase [0x20#16])) = some 0x10000000#32 ∧
    (after (exec .build (phrase [0x61#16, 0x62#16, 0x63#16, 0x64#16]))).ct.map (·.bits) =
      [[false, false], [false, true], [true, false], [true, true]] := by decide

theorem test_bclr : (after (exec .bclr full)).ilen = 0 ∧ (after (exec .bclr full)).plen = 4096 := by decide

/-- R160: any character is accepted, with no tree. -/
theorem test_bput : response (exec (.bput 0x0000#16) State.reset) = some 0x00000001#32 ∧
    response (exec (.bput 0x31#16) full) = some 0x50000000#32 := by decide

/-- R161: "10110" decodes to " ab", "101" to " " with DTRUNC. -/
theorem test_decode : (after (exec .decode (feed [0x31#16, 0x30#16, 0x31#16, 0x31#16, 0x30#16] builtSpaceAb))).tb =
      [0x20#16, 0x61#16, 0x62#16] ∧
    (after (exec .decode (feed [0x31#16, 0x30#16, 0x31#16] builtSpaceAb))).dtrunc = true ∧
    response (exec .decode (feed [0x31#16, 0x30#16, 0x31#16] builtSpaceAb)) = some 0x00000001#32 := by decide

/-- S4, S5, V15: the three errors of DECODE. -/
theorem test_decode_errors :
    response (exec .decode (feed [0x30#16, 0x31#16, 0x61#16, 0x30#16] builtSpaceAb)) = some 0x30000000#32 ∧
    response (exec .decode (feed [0x30#16] State.reset)) = some 0x20000000#32 ∧
    response (exec .decode (feed [0x30#16] broken)) = some 0x40000000#32 := by decide

/-- V11. -/
theorem test_rdnk : response (exec (.rdnk 0) builtSpaceAb) = some 0x00000020#32 ∧
    response (exec (.rdnk 3) builtSpaceAb) = some 0x00010000#32 ∧
    response (exec (.rdnk 5) builtSpaceAb) = some 0x60000000#32 := by decide

theorem test_rdnf : response (exec (.rdnf 3) builtSpaceAb) = some 0x00000002#32 ∧
    response (exec (.rdnf 4) builtSpaceAb) = some 0x00000003#32 := by decide

theorem test_rdnl : response (exec (.rdnl 0) builtSpaceAb) = some 0x00001FFF#32 ∧
    response (exec (.rdnl 4) builtSpaceAb) = some 0x00000002#32 := by decide

theorem test_rdnr : response (exec (.rdnr 4) builtSpaceAb) = some 0x00000003#32 ∧
    response (exec (.rdnr 0) State.reset) = some 0x20000000#32 := by decide

/-- V10. -/
theorem test_rdcs : response (exec (.rdcs 2) builtSpaceAb) = some 0x00000062#32 ∧
    response (exec (.rdcs 3) builtSpaceAb) = some 0x60000000#32 := by decide

theorem test_rdcl : response (exec (.rdcl 0) builtSpaceAb) = some 0x00000002#32 ∧
    response (exec (.rdcl 2) builtSpaceAb) = some 0x00000001#32 := by decide

theorem test_rdcb : response (exec (.rdcb 0 0) builtSpaceAb) = some 0x00000001#32 ∧
    response (exec (.rdcb 0 1) builtSpaceAb) = some 0x00000000#32 ∧
    response (exec (.rdcb 2 1) builtSpaceAb) = some 0x60000000#32 := by decide

theorem test_lkup : response (exec (.lkup 0x61#16) builtSpaceAb) = some 0x00000001#32 ∧
    response (exec (.lkup 0x7A#16) builtSpaceAb) = some 0x80000000#32 := by decide

theorem test_rdob : response (exec (.rdob 1) builtSpaceAb) = some 0x00000000#32 ∧
    response (exec (.rdob 4) builtSpaceAb) = some 0x00000000#32 ∧
    response (exec (.rdob 5) builtSpaceAb) = some 0x60000000#32 := by decide

theorem test_rdtx : response (exec (.rdtx 1) (after (exec .decode
      (feed [0x31#16, 0x30#16, 0x31#16, 0x31#16, 0x30#16] builtSpaceAb)))) = some 0x00000061#32 ∧
    response (exec (.rdtx 0) builtSpaceAb) = some 0x60000000#32 := by decide

/-- V1: the comparator. -/
theorem test_comparator : keyLt ⟨3, 0, 0x20⟩ ⟨3, 1, 0x09⟩ = true ∧ keyLt ⟨2, 0, 0x20⟩ ⟨1, 1, 0x61⟩ = false ∧
    keyLt ⟨2, 1, 0x7A⟩ ⟨2, 2, 3⟩ = true ∧ keyLt ⟨2, 2, 4⟩ ⟨2, 2, 5⟩ = true ∧ keyLt ⟨1, 1, 0xFFFF⟩ ⟨1, 1, 0⟩ = false := by
  decide

/-- R76, R195, log entries 3 and 4: a step on an illegal word, on reset, on nothing, and on the word placed first. -/
theorem test_step : response (step { State.reset with cmds := [.command 0x02000000#32] }) = some 0x70000000#32 ∧
    (after (step { builtSpaceAb with cmds := [.reset] })).tvalid = false ∧ after (step builtSpaceAb) = builtSpaceAb ∧
    response (step (State.reset.withFetchWord 32 0x11000061)) = some 0x00000001#32 := by decide

/-! ### Witnesses: states and operands that meet the hypotheses of the statements, clause by clause

A theorem `witness_X` is about the statement `Obligations.X`. -/

theorem phrase_inv {P : Config.Params} (p : List Symbol) (h : p.length ≤ P.pmax) : Inv P (phrase p) :=
  ⟨by rw [memory_wf_iff]; exact ⟨rfl, rfl, rfl, rfl, rfl, rfl, fun r hr => absurd hr List.not_mem_nil⟩, h, Nat.zero_le _, Nat.zero_le _,
    Nat.zero_le _, fun hv => Bool.noConfusion hv, fun _ => ⟨rfl, rfl, rfl, rfl, rfl, rfl⟩⟩

theorem after_inv {s : State} (i : Instr) (h : Inv Config.defaults s) : Inv Config.defaults (after (exec i s)) := by
  obtain ⟨st, d, u, he, -, hu⟩ := exec_effect i s
  rw [he]; exact Inv_respond st d (Inv_update h hu)

theorem feed_inv {s : State} (p : List Symbol) (h : Inv Config.defaults s) (hp : p.length ≤ Config.defaults.imax) :
    Inv Config.defaults (feed p s) :=
  ⟨by have hw := (memory_wf_iff s).1 h.wf; rw [memory_wf_iff]; exact ⟨hw.1, rfl, hw.2.2⟩, h.plen_le, hp, h.tlen_le, h.olen_le,
    fun ht => treeInv_congr (h.tree ht) rfl rfl rfl rfl rfl rfl, fun ht => h.noTree ht⟩

theorem builtSpaceAb_inv : Inv Config.defaults builtSpaceAb := after_inv .build (phrase_inv _ (by decide))

theorem builtA_inv : Inv Config.defaults builtA := after_inv .build (phrase_inv _ (by decide))

/-- `s` with one command word to come. -/
def sending (w : Word) (s : State) : State := { s with cmds := [.command w] }

/-- The response of `exec i s` is the last one and comes after those given before. -/
theorem witness_ofResponse {i : Instr} {s : State} {r : Word}
    (h : (after (exec i s)).rsps = s.rsps ++ [r] ∧ response (exec i s) = some r) :
    ∃ t, exec i s = .next t ∧ t.rsps = s.rsps ++ [r] := by
  obtain ⟨st, d, u, he, -⟩ := exec_effect i s
  rw [he] at h ⊢
  exact ⟨_, rfl, h.1⟩

theorem witness_StepRunsTheDecodedCommand : (sending 0x12000000#32 spaceAb).cmds = .command 0x12000000#32 :: [] ∧
    decode 0x12000000#32 = .command .build := by decide

theorem witness_IllegalWordsAnswerEill : (sending 0x10000001#32 builtSpaceAb).cmds = .command 0x10000001#32 :: [] ∧
    decode 0x10000001#32 = .illegal .operandNotZero ∧
    (⟨"RDCB", 0x42000000#32, 0xFF000000#32⟩ : OpcodeRow) ∈ opcodeMap ∧
    0x42FFFFFF#32 &&& 0xFF000000#32 = (0x42000000#32 : Word) := by decide

theorem witness_OpcodeMapSelectsTheCommand : (⟨"PPUT", 0x11000000#32, 0xFFFF0000#32⟩ : OpcodeRow) ∈ opcodeMap ∧
    0x1100FFFF#32 &&& 0xFFFF0000#32 = (0x11000000#32 : Word) ∧ 0x11010000#32 &&& 0xFFFF0000#32 ≠ (0x11000000#32 : Word) := by
  decide

theorem witness_DecodeOfEncode : Instr.wellFormed (.rdcb 4095 4095) = true ∧ Instr.wellFormed (.rdtx (2 ^ 24 - 1)) = true ∧
    Instr.wellFormed (.lkup 0xFFFF#16) = true ∧ Instr.wellFormed .nop = true := by decide

theorem witness_EncodeOfDecode : decode 0x42FFFFFF#32 = .command (.rdcb 4095 4095) := by decide

theorem witness_OneResponsePerCommand : (sending 0xFFFFFFFF#32 State.reset).cmds = .command 0xFFFFFFFF#32 :: [] ∧
    response (step (sending 0xFFFFFFFF#32 State.reset)) = some 0x70000000#32 := by decide

/-- An error that writes nothing, the two that do, and an illegal word. -/
theorem witness_ErrorsWriteOnlyWhatIsListed : statusOf 0x60000000#32 ≠ 0 ∧
    response (exec (.rdcr 8) State.reset) = some 0x60000000#32 ∧ statusOf 0x20000000#32 ≠ 0 ∧
    response (exec .decode State.reset) = some 0x20000000#32 ∧ statusOf 0x30000000#32 = 3 ∧
    response (exec .decode (feed [0x20#16] builtSpaceAb)) = some 0x30000000#32 ∧ statusOf 0x40000000#32 = 4 ∧
    response (exec .decode (feed [0x30#16] broken)) = some 0x40000000#32 ∧ decode 0x02000000#32 = .illegal .unknownOpcode := by
  decide

/-- Every status that a command answers. -/
theorem witness_ErrorsAreRaisedByTheirCommands : (∃ t, exec .build State.reset = .next t ∧ t.rsps = State.reset.rsps ++ [0x10000000#32]) ∧
    (∃ t, exec (.lkup 0x61#16) State.reset = .next t ∧ t.rsps = State.reset.rsps ++ [0x20000000#32]) ∧
    (∃ t, exec .decode (feed [0x20#16] builtSpaceAb) = .next t ∧
      t.rsps = (feed [0x20#16] builtSpaceAb).rsps ++ [0x30000000#32]) ∧
    (∃ t, exec .decode (feed [0x30#16] broken) = .next t ∧ t.rsps = (feed [0x30#16] broken).rsps ++ [0x40000000#32]) ∧
    (∃ t, exec (.pput 0x61#16) full = .next t ∧ t.rsps = full.rsps ++ [0x50000000#32]) ∧
    (∃ t, exec (.rdtx 0) State.reset = .next t ∧ t.rsps = State.reset.rsps ++ [0x60000000#32]) ∧
    (∃ t, exec (.lkup 0x7A#16) builtSpaceAb = .next t ∧ t.rsps = builtSpaceAb.rsps ++ [0x80000000#32]) :=
  ⟨witness_ofResponse (by decide), witness_ofResponse (by decide), witness_ofResponse (by decide),
    witness_ofResponse (by decide), witness_ofResponse (by decide), witness_ofResponse (by decide),
    witness_ofResponse (by decide)⟩

theorem witness_RdcrReadsTheControlRegister : (7 < 8 ∧ 7 < 2 ^ 24 - 1) ∧ Inv Config.defaults builtSpaceAb ∧
    (Inv Config.defaults State.reset ∧ State.reset.tvalid = false) := ⟨by decide, builtSpaceAb_inv, inv_reset, rfl⟩

theorem witness_PputAppendsOneCharacter : full.plen = Config.defaults.pmax ∧ nearlyFull.plen < Config.defaults.pmax ∧
    0 < nearlyFull.plen ∧ spaceAb.plen < Config.defaults.pmax ∧ 2 < spaceAb.plen := by decide

theorem witness_BputAppendsOneCharacter : full.ilen = Config.defaults.imax ∧ nearlyFull.ilen < Config.defaults.imax ∧
    0 < nearlyFull.ilen := by decide

theorem witness_CapacitiesAreParameters : Config.defaults.Admissible ∧ full.plen = Config.defaults.pmax ∧
    nearlyFull.plen < Config.defaults.pmax ∧ full.ilen = Config.defaults.imax ∧ nearlyFull.ilen < Config.defaults.imax :=
  ⟨defaults_admissible, by decide⟩

theorem witness_RdnkReadsKindAndSymbol : State.reset.tvalid = false ∧ Inv Config.defaults builtSpaceAb ∧
    builtSpaceAb.tvalid = true ∧ builtSpaceAb.nnode ≤ 5 ∧ 4 < builtSpaceAb.nnode ∧ builtSpaceAb.nsym ≤ 3 ∧
    2 < builtSpaceAb.nsym := ⟨rfl, builtSpaceAb_inv, by decide⟩

theorem witness_RdnfReadsTheFrequency : State.reset.tvalid = false ∧ builtSpaceAb.tvalid = true ∧ builtSpaceAb.nnode ≤ 5 ∧
    4 < builtSpaceAb.nnode ∧ Inv Config.defaults spaceAb ∧ statusOf 0x00000005#32 = 0 ∧
    (∃ t, exec .build spaceAb = .next t ∧ t.rsps = spaceAb.rsps ++ [0x00000005#32]) :=
  ⟨rfl, by decide, by decide, by decide, phrase_inv _ (by decide), by decide, witness_ofResponse (by decide)⟩

theorem witness_RdnlReadsTheLeftChild : State.reset.tvalid = false ∧ Inv Config.defaults builtSpaceAb ∧
    builtSpaceAb.tvalid = true ∧ builtSpaceAb.nnode ≤ 5 ∧ 4 < builtSpaceAb.nnode ∧ 2 < builtSpaceAb.nsym :=
  ⟨rfl, builtSpaceAb_inv, by decide⟩

theorem witness_RdnrReadsTheRightChild : State.reset.tvalid = false ∧ Inv Config.defaults builtA ∧ builtA.tvalid = true ∧
    builtA.nnode ≤ 1 ∧ 0 < builtA.nnode ∧ 0 < builtA.nsym := ⟨rfl, builtA_inv, by decide⟩

/-- V1: a state for each of the five rules, nodes 0 and 1. -/
theorem witness_ComparatorRules :
    (nodeOf [⟨.leaf, 1, 0x7A, Config.nil, Config.nil⟩, ⟨.leaf, 2, 0x61, Config.nil, Config.nil⟩] 0).freq.toNat <
      (nodeOf [⟨.leaf, 1, 0x7A, Config.nil, Config.nil⟩, ⟨.leaf, 2, 0x61, Config.nil, Config.nil⟩] 1).freq.toNat ∧
    (nodeOf [⟨.leaf, 3, 0x20, Config.nil, Config.nil⟩, ⟨.leaf, 3, 0x09, Config.nil, Config.nil⟩] 0).sym = Config.space ∧
    (nodeOf [⟨.leaf, 3, 0x20, Config.nil, Config.nil⟩, ⟨.leaf, 3, 0x09, Config.nil, Config.nil⟩] 1).sym ≠ Config.space ∧
    (nodeOf [⟨.leaf, 1, 0x41, Config.nil, Config.nil⟩, ⟨.leaf, 1, 0x61, Config.nil, Config.nil⟩] 0).sym.toNat <
      (nodeOf [⟨.leaf, 1, 0x41, Config.nil, Config.nil⟩, ⟨.leaf, 1, 0x61, Config.nil, Config.nil⟩] 1).sym.toNat ∧
    (nodeOf [⟨.leaf, 2, 0x7A, Config.nil, Config.nil⟩, ⟨.internal, 2, 0, 3, 4⟩] 0).freq =
      (nodeOf [⟨.leaf, 2, 0x7A, Config.nil, Config.nil⟩, ⟨.internal, 2, 0, 3, 4⟩] 1).freq ∧
    (nodeOf [⟨.leaf, 2, 0x7A, Config.nil, Config.nil⟩, ⟨.internal, 2, 0, 3, 4⟩] 1).kind = .internal ∧
    (nodeOf [⟨.internal, 2, 0, 3, 4⟩, ⟨.internal, 2, 0, 5, 6⟩] 0).freq =
      (nodeOf [⟨.internal, 2, 0, 3, 4⟩, ⟨.internal, 2, 0, 5, 6⟩] 1).freq ∧
    (nodeOf [⟨.internal, 2, 0, 3, 4⟩, ⟨.internal, 2, 0, 5, 6⟩] 0).kind = .internal ∧
    (nodeOf [⟨.internal, 2, 0, 3, 4⟩, ⟨.internal, 2, 0, 5, 6⟩] 1).kind = .internal := by decide

theorem witness_ComparatorIsAStrictTotalOrder : (∀ i < 3, (nodeOf builtSpaceAb.node i).kind = .leaf) ∧
    (∀ i < builtSpaceAb.node.length, 3 ≤ i → (nodeOf builtSpaceAb.node i).kind = .internal) ∧
    (∀ j < 3, ∀ i < j, (nodeOf builtSpaceAb.node i).sym ≠ (nodeOf builtSpaceAb.node j).sym) ∧
    (0 < builtSpaceAb.node.length ∧ 1 < builtSpaceAb.node.length ∧ 4 < builtSpaceAb.node.length) ∧
    higherPriority builtSpaceAb.node 0 1 = true ∧ higherPriority builtSpaceAb.node 1 4 = true := by decide

theorem witness_RdcsReadsTheSymbol : State.reset.tvalid = false ∧ Inv Config.defaults builtSpaceAb ∧
    builtSpaceAb.tvalid = true ∧ builtSpaceAb.nsym ≤ 3 ∧ 2 < builtSpaceAb.nsym := ⟨rfl, builtSpaceAb_inv, by decide⟩

theorem witness_RdclReadsTheLength : State.reset.tvalid = false ∧ Inv Config.defaults builtSpaceAb ∧
    builtSpaceAb.tvalid = true ∧ builtSpaceAb.nsym ≤ 3 ∧ 2 < builtSpaceAb.nsym ∧ Inv Config.defaults builtA ∧
    builtA.tvalid = true ∧ builtA.nsym = 1 := ⟨rfl, builtSpaceAb_inv, by decide, by decide, by decide, builtA_inv, by decide⟩

theorem witness_RdcbReadsOneBitOfACode : State.reset.tvalid = false ∧ builtSpaceAb.tvalid = true ∧ builtSpaceAb.nsym ≤ 3 ∧
    (ctAt builtSpaceAb 2).len.toNat ≤ 1 ∧ 2 < builtSpaceAb.nsym ∧ 0 < (ctAt builtSpaceAb 2).len.toNat ∧
    0 < builtSpaceAb.nsym ∧ 1 < (ctAt builtSpaceAb 0).len.toNat := by decide

theorem witness_LkupFindsTheEntry : State.reset.tvalid = false ∧ Inv Config.defaults builtSpaceAb ∧
    builtSpaceAb.tvalid = true ∧ (∀ i < builtSpaceAb.nsym, (ctAt builtSpaceAb i).sym ≠ 0x7A#16) ∧ 2 < builtSpaceAb.nsym ∧
    (ctAt builtSpaceAb 2).sym = 0x62#16 := ⟨rfl, builtSpaceAb_inv, by decide⟩

/-- Blank phrases of length 0 and 1, and one that is not blank. -/
theorem witness_BuildRefusesBlankPhrases : State.reset.plen = 0 ∧
    (∀ j < (phrase [0x20#16]).plen, Config.defaults.ws (pbAt (phrase [0x20#16]) j) = true) ∧
    ¬ (spaceAb.plen = 0 ∨ ∀ j < spaceAb.plen, Config.defaults.ws (pbAt spaceAb j) = true) := by decide

/-- Each outcome of BUILD, at NSYM_MAX and OMAX just too small and just large enough for " ab". -/
theorem witness_BuildWritesTheHuffmanCode : (small 3 5).Admissible ∧ spaceAb.plen ≤ (small 3 5).pmax ∧
    (phrase [0x20#16]).plen ≤ (small 3 5).pmax ∧ (∃ j < spaceAb.plen, (small 3 5).ws (pbAt spaceAb j) = false) ∧
    (small 2 5).nsymMax < (phraseOf spaceAb).dedup.length ∧ (phraseOf spaceAb).dedup.length ≤ (small 3 5).nsymMax ∧
    response (buildAndEncode (small 2 5) spaceAb) = some 0x50000000#32 ∧
    response (buildAndEncode (small 3 4) spaceAb) = some 0x50000000#32 ∧
    response (buildAndEncode (small 3 5) spaceAb) = some 0x00000005#32 := by
  refine ⟨⟨by decide, by decide, by decide, by decide, by decide⟩, by decide, by decide, ⟨2, by decide, by decide⟩, ?_⟩
  decide

/-- A blank phrase, and one just above and just within each bound. -/
theorem witness_BuildCapacityBounds : (small 2 6).Admissible ∧ (small 3 6).Admissible ∧ State.reset.plen = 0 ∧
    spaceAb.plen ≤ (small 3 6).pmax ∧ (∃ j < spaceAb.plen, (small 3 6).ws (pbAt spaceAb j) = false) ∧
    (small 2 6).nsymMax < (phraseOf spaceAb).dedup.length ∧ (phraseOf spaceAb).dedup.length ≤ (small 3 6).nsymMax ∧
    response (buildAndEncode (small 3 4) spaceAb) = some 0x50000000#32 ∧
    response (buildAndEncode (small 3 5) spaceAb) = some 0x00000005#32 ∧ spaceAb.plen ≤ (small 3 6).nsymMax ∧
    spaceAb.plen * max 1 ((phraseOf spaceAb).dedup.length - 1) ≤ (small 3 6).omax :=
  ⟨⟨by decide, by decide, by decide, by decide, by decide⟩, ⟨by decide, by decide, by decide, by decide, by decide⟩, rfl,
    by decide, ⟨2, by decide, by decide⟩, by decide⟩

theorem witness_BuildCompletes : Inv Config.defaults spaceAb ∧
    (∃ j < spaceAb.plen, Config.defaultWs (pbAt spaceAb j) = false) ∧ (phraseOf spaceAb).dedup.length ≤ 256 ∧
    spaceAb.plen * max 1 ((phraseOf spaceAb).dedup.length - 1) ≤ 65536 :=
  ⟨phrase_inv _ (by decide), ⟨2, by decide, by decide⟩, by decide, by decide⟩

theorem witness_LeftChildHasHigherPriority : Inv Config.defaults spaceAb ∧ statusOf 0x00000005#32 = 0 ∧
    (∃ t, exec .build spaceAb = .next t ∧ t.rsps = spaceAb.rsps ++ [0x00000005#32]) ∧ builtSpaceAb.nsym ≤ 3 ∧
    4 < builtSpaceAb.nnode := ⟨phrase_inv _ (by decide), by decide, witness_ofResponse (by decide), by decide⟩

theorem witness_TheBuiltTree : Config.defaults.Admissible ∧ spaceAb.plen ≤ Config.defaults.pmax ∧ statusOf 0x00000005#32 = 0 ∧
    (∃ t, buildAndEncode Config.defaults spaceAb = .next t ∧ t.rsps = spaceAb.rsps ++ [0x00000005#32]) ∧
    (2 < builtSpaceAb.nsym ∧ builtSpaceAb.nsym ≤ 3 ∧ 3 + 1 < builtSpaceAb.nnode) :=
  ⟨defaults_admissible, by decide, by decide, witness_ofResponse (i := .build) (s := spaceAb) (by decide), by decide⟩

/-- A table of three codes, a table of one, and two Leaves of different frequency ("aab", V3). -/
theorem witness_TheBuiltCodeTable : Config.defaults.Admissible ∧ spaceAb.plen ≤ Config.defaults.pmax ∧
    (∃ t, buildAndEncode Config.defaults spaceAb = .next t ∧ t.rsps = spaceAb.rsps ++ [0x00000005#32]) ∧
    2 ≤ builtSpaceAb.nsym ∧ builtA.nsym = 1 ∧
    (nodeAt (after (exec .build (phrase [0x61#16, 0x61#16, 0x62#16]))) 1).freq.toNat <
      (nodeAt (after (exec .build (phrase [0x61#16, 0x61#16, 0x62#16]))) 0).freq.toNat :=
  ⟨defaults_admissible, by decide, witness_ofResponse (i := .build) (s := spaceAb) (by decide), by decide, by decide, by decide⟩

theorem witness_BuildTwiceGivesTheSame : ∃ t, exec .build spaceAb = .next t ∧ t.rsps = spaceAb.rsps ++ [0x00000005#32] :=
  witness_ofResponse (by decide)

/-- "ab" and "ba" (V3). -/
theorem witness_CodesDependOnTheCountsAlone : Inv Config.defaults (phrase [0x61#16, 0x62#16]) ∧
    Inv Config.defaults (phrase [0x62#16, 0x61#16]) ∧
    (phraseOf (phrase [0x61#16, 0x62#16])).Perm (phraseOf (phrase [0x62#16, 0x61#16])) ∧ statusOf 0x00000002#32 = 0 ∧
    (∃ t, exec .build (phrase [0x61#16, 0x62#16]) = .next t ∧ t.rsps = (phrase [0x61#16, 0x62#16]).rsps ++ [0x00000002#32]) ∧
    (∃ t, exec .build (phrase [0x62#16, 0x61#16]) = .next t ∧ t.rsps = (phrase [0x62#16, 0x61#16]).rsps ++ [0x00000002#32]) ∧
    1 < (after (exec .build (phrase [0x61#16, 0x62#16]))).nsym :=
  ⟨phrase_inv _ (by decide), phrase_inv _ (by decide), List.Perm.swap _ _ _, by decide, witness_ofResponse (by decide),
    witness_ofResponse (by decide), by decide⟩

theorem witness_RdobReadsOneBitOfTheOutput : builtSpaceAb.olen ≤ 5 ∧ 4 < builtSpaceAb.olen ∧
    (Inv Config.defaults State.reset ∧ State.reset.tvalid = false) := ⟨by decide, by decide, inv_reset, rfl⟩

/-- No tree; an invalid character after a valid one; a missing child; a walk; a single Leaf. -/
theorem witness_DecodeChecksInOrder : (Inv Config.defaults State.reset ∧ State.reset.tvalid = false) ∧
    builtSpaceAb.tvalid = true ∧
    (∃ j < (feed [0x30#16, 0x61#16] builtSpaceAb).ilen, ibAt (feed [0x30#16, 0x61#16] builtSpaceAb) j ≠ Config.ch0 ∧
      ibAt (feed [0x30#16, 0x61#16] builtSpaceAb) j ≠ Config.ch1) ∧
    broken.tvalid = true ∧ (∀ j < (feed [0x30#16] broken).ilen, ibAt (feed [0x30#16] broken) j = Config.ch0 ∨
      ibAt (feed [0x30#16] broken) j = Config.ch1) ∧
    (nodeAt broken broken.root.toNat).kind = .internal ∧
    walk broken.node broken.root broken.root (inputOf (feed [0x30#16] broken)) = none ∧
    (nodeAt builtSpaceAb builtSpaceAb.root.toNat).kind = .internal ∧
    walk builtSpaceAb.node builtSpaceAb.root builtSpaceAb.root (inputOf (feed [0x30#16] builtSpaceAb)) =
      some ([0x62#16], builtSpaceAb.root) ∧
    builtA.tvalid = true ∧ (nodeAt builtA builtA.root.toNat).kind = .leaf :=
  ⟨⟨inv_reset, rfl⟩, by decide, ⟨1, by decide, by decide⟩, by decide⟩

theorem witness_DecodeOnASingleLeaf : builtA.tvalid = true ∧ (feed [0x31#16, 0x30#16] builtA).ilen ≤ Config.defaults.imax ∧
    (∀ j < (feed [0x31#16, 0x30#16] builtA).ilen, ibAt (feed [0x31#16, 0x30#16] builtA) j = Config.ch0 ∨
      ibAt (feed [0x31#16, 0x30#16] builtA) j = Config.ch1) ∧ (nodeAt builtA builtA.root.toNat).kind = .leaf := by decide

/-- Complete codes, and an unfinished one. -/
theorem witness_DecodeWalksTheTree : Inv Config.defaults (feed [0x31#16, 0x30#16, 0x31#16] builtSpaceAb) ∧
    builtSpaceAb.tvalid = true ∧ 2 ≤ builtSpaceAb.nsym ∧
    (∀ j < (feed [0x31#16, 0x30#16, 0x31#16] builtSpaceAb).ilen,
      ibAt (feed [0x31#16, 0x30#16, 0x31#16] builtSpaceAb) j = Config.ch0 ∨
      ibAt (feed [0x31#16, 0x30#16, 0x31#16] builtSpaceAb) j = Config.ch1) :=
  ⟨feed_inv _ builtSpaceAb_inv (by decide), by decide⟩

theorem witness_DecodeOfEmptyInput : builtSpaceAb.tvalid = true ∧ builtSpaceAb.ilen = 0 ∧ State.reset.tvalid = false ∧
    State.reset.ilen = 0 := by decide

theorem witness_NoUnmatchedPathOnGoodStates : Inv Config.defaults (feed [0x31#16] builtSpaceAb) ∧
    ∃ t, exec .decode (feed [0x31#16] builtSpaceAb) = .next t ∧
      t.rsps = (feed [0x31#16] builtSpaceAb).rsps ++ [0x00000000#32] :=
  ⟨feed_inv _ builtSpaceAb_inv (by decide), witness_ofResponse (by decide)⟩

theorem witness_DecodeFrame : statusOf 0x00000001#32 = 0 ∧ builtSpaceAb.ilen ≤ Config.defaults.imax ∧
    ∃ t, exec .decode (feed [0x30#16] builtSpaceAb) = .next t ∧
      t.rsps = (feed [0x30#16] builtSpaceAb).rsps ++ [0x00000001#32] :=
  ⟨by decide, by decide, witness_ofResponse (by decide)⟩

/-- The longest phrase, and one whose BUILD is seen to succeed with an output that fits. -/
theorem witness_RoundTripLaw : Inv Config.defaults State.reset ∧ 1 ≤ (List.replicate 4096 (0x61#16 : Symbol)).length ∧
    (List.replicate 4096 (0x61#16 : Symbol)).length ≤ Config.defaults.pmax ∧
    (∃ c ∈ List.replicate 4096 (0x61#16 : Symbol), Config.defaultWs c = false) ∧
    (∃ t, execAll (.pclr :: [0x20#16, 0x61#16].map .pput ++ [.build]) State.reset = some t ∧
      t.rsps.getLast? = some 0x00000002#32 ∧ t.olen ≤ Config.defaults.imax) :=
  ⟨inv_reset, by rw [List.length_replicate]; decide, by rw [List.length_replicate]; decide,
    ⟨0x61#16, List.mem_replicate.2 ⟨by decide, rfl⟩, by decide⟩, ⟨_, rfl, by decide, by decide⟩⟩

theorem witness_RdtxReadsOneDecodedCharacter : State.reset.tlen ≤ 0 ∧
    0 < (after (exec .decode (feed [0x30#16] builtSpaceAb))).tlen ∧ Inv Config.defaults State.reset ∧
    statusOf 0x20000000#32 ≠ 0 ∧ (∃ t, exec .decode State.reset = .next t ∧ t.rsps = State.reset.rsps ++ [0x20000000#32]) ∧
    (∃ t, exec .build spaceAb = .next t ∧ t.rsps = spaceAb.rsps ++ [0x00000005#32]) :=
  ⟨by decide, by decide, inv_reset, by decide, witness_ofResponse (by decide), witness_ofResponse (by decide)⟩

/-- A good state with a tree and a step from it. -/
theorem witness_EveryStepKeepsGoodStates : Inv Config.defaults (sending 0x12000000#32 builtSpaceAb) ∧
    ∃ t, step (sending 0x12000000#32 builtSpaceAb) = .next t := by
  refine ⟨Inv_cmds _ builtSpaceAb_inv, ?_⟩
  obtain ⟨st, d, u, he, -⟩ := exec_effect .build { builtSpaceAb with cmds := [] }
  exact ⟨_, (step_command (w := 0x12000000#32) (i := .build) rfl (by decide)).trans he⟩

/-- The largest capacities that R9 admits. -/
def largest : Config.Params where
  nsymMax := 4096
  pmax := 2 ^ 24 - 1
  imax := 2 ^ 24 - 1
  omax := 2 ^ 24 - 1
  ws := Config.defaultWs

theorem witness_GoodStatesForEveryParameter : largest.Admissible ∧ Inv largest spaceAb ∧
    (∃ t, buildAndEncode largest spaceAb = .next t) ∧ (∃ t, phrasePut largest 0x61#16 spaceAb = .next t) ∧
    (∃ t, inputPut largest 0x31#16 spaceAb = .next t) :=
  ⟨⟨by decide, by decide, by decide, by decide, by decide⟩, phrase_inv _ (by decide), buildAndEncode_next _ _, ⟨_, rfl⟩,
    ⟨_, rfl⟩⟩

theorem witness_ResetClearsEverything : { builtSpaceAb with cmds := [.reset] }.cmds = .reset :: [] := rfl

/-- Reset of a state with a tree, a first BUILD, a BUILD that succeeds and one that fails, and DECODE with no tree. -/
theorem witness_TvalidLifecycle : builtSpaceAb.tvalid = true ∧
    (after (step { builtSpaceAb with cmds := [.reset] })).tvalid = false ∧ spaceAb.tvalid = false ∧
    (after (step (sending 0x12000000#32 spaceAb))).tvalid = true ∧
    (∃ t, exec .build spaceAb = .next t ∧ t.rsps = spaceAb.rsps ++ [0x00000005#32]) ∧
    (∃ t, exec .build State.reset = .next t ∧ t.rsps = State.reset.rsps ++ [0x10000000#32]) ∧ State.reset.tvalid = false :=
  ⟨by decide, by decide, rfl, by decide, witness_ofResponse (by decide), witness_ofResponse (by decide), rfl⟩

theorem witness_ReadsHaveNoSideEffect : Instr.mnemonic (.rdtx 0) ∈ ["NOP", "RDCR", "RDNK", "RDNF", "RDNL", "RDNR", "RDCS",
    "RDCL", "RDCB", "LKUP", "RDOB", "RDTX"] := by decide

/-- A step of each of the three kinds: a read, a reset, a BUILD that succeeds. -/
theorem witness_RetainedStateChangesOnlyByBuild : (after (step (sending 0x30000000#32 builtSpaceAb))).node = builtSpaceAb.node ∧
    { builtSpaceAb with cmds := [.reset] }.cmds.head? = some .reset ∧
    response (step (sending 0x12000000#32 spaceAb)) = some 0x00000005#32 := by decide

theorem witness_RunsAnswerEveryCommand :
    { State.reset with cmds := [.command 0x00000000#32, .command 0xFFFFFFFF#32] }.cmds =
      ([0x00000000#32, 0xFFFFFFFF#32] : List Word).map .command := rfl

theorem witness_TheStreamsDoNotInfluenceCommands : ∃ t, exec .build spaceAb = .next t ∧
    t.rsps = spaceAb.rsps ++ [0x00000005#32] := witness_ofResponse (by decide)

theorem witness_TheCoreWaitsUnchanged : builtSpaceAb.cmds = [] := by decide

end Sys2Proof.Tests
end

section
/-! PROOFS. The statements of 00_scope.md: a step runs the command its word decodes to (R7), the core waits when there is
none, and the commands that meet an open parameter (R9) do so for every admissible value of it. -/

namespace Sys2Proof

/-! ### The decoder gives well-formed commands (30_encoding.md R71, R72) -/

theorem indexFits_xField (w : Word) : indexFits (xField w) = true := decide_eq_true (BitVec.isLt _)

theorem entryFits_iField (w : Word) : entryFits (iField w) = true := decide_eq_true (BitVec.isLt _)

theorem bitPosFits_kField (w : Word) : bitPosFits (kField w) = true := decide_eq_true (BitVec.isLt _)

theorem formatZ_wellFormed {w : Word} {j i : Instr} (hj : j.wellFormed = true) (h : formatZ w j = .command i) :
    i.wellFormed = true := by
  unfold formatZ at h
  split at h
  · exact Decoded.command.inj h ▸ hj
  · cases h

theorem formatC_wellFormed {w : Word} {f : Symbol → Instr} {i : Instr} (hf : ∀ c, (f c).wellFormed = true)
    (h : formatC w f = .command i) : i.wellFormed = true := by
  unfold formatC at h
  split at h
  · exact Decoded.command.inj h ▸ hf _
  · cases h

theorem formatX_wellFormed {w : Word} {f : Nat → Instr} {i : Instr} (hf : ∀ x, (f x).wellFormed = indexFits x)
    (h : formatX w f = .command i) : i.wellFormed = true :=
  Decoded.command.inj h ▸ (hf _).trans (indexFits_xField w)

theorem formatK_wellFormed {w : Word} {f : Nat → Nat → Instr} {i : Instr}
    (hf : ∀ e k, (f e k).wellFormed = (entryFits e && bitPosFits k)) (h : formatK w f = .command i) :
    i.wellFormed = true := by
  rw [← Decoded.command.inj h, hf, entryFits_iField, bitPosFits_kField]
  rfl

/-- One case per row of the opcode map (R75), in its order: the row's format bounds the row's operand. -/
theorem decode_wellFormed {w : Word} {i : Instr} (h : decode w = .command i) : i.wellFormed = true := by
  unfold decode at h
  split at h
  · exact formatZ_wellFormed (j := .nop) rfl h
  · exact formatX_wellFormed (f := .rdcr) (fun _ => rfl) h
  · exact formatZ_wellFormed (j := .pclr) rfl h
  · exact formatC_wellFormed (f := .pput) (fun _ => rfl) h
  · exact formatZ_wellFormed (j := .build) rfl h
  · exact formatZ_wellFormed (j := .bclr) rfl h
  · exact formatC_wellFormed (f := .bput) (fun _ => rfl) h
  · exact formatZ_wellFormed (j := .decode) rfl h
  · exact formatX_wellFormed (f := .rdnk) (fun _ => rfl) h
  · exact formatX_wellFormed (f := .rdnf) (fun _ => rfl) h
  · exact formatX_wellFormed (f := .rdnl) (fun _ => rfl) h
  · exact formatX_wellFormed (f := .rdnr) (fun _ => rfl) h
  · exact formatX_wellFormed (f := .rdcs) (fun _ => rfl) h
  · exact formatX_wellFormed (f := .rdcl) (fun _ => rfl) h
  · exact formatK_wellFormed (f := .rdcb) (fun _ _ => rfl) h
  · exact formatC_wellFormed (f := .lkup) (fun _ => rfl) h
  · exact formatX_wellFormed (f := .rdob) (fun _ => rfl) h
  · exact formatX_wellFormed (f := .rdtx) (fun _ => rfl) h
  · cases h

end Sys2Proof

namespace Sys2Proof.Machine

open Sys2Proof.Safety

/-! ### PPUT and BPUT, at the capacity and below it (40_frequency_counter.md R94, 44_decoder.md R160)

Below a capacity that R9 admits, the new length fits the 28-bit data field, so the response shows it as it is. -/

theorem phrasePut_full {P : Config.Params} {s : State} (h : s.plen = P.pmax) (c : Symbol) :
    phrasePut P c s = fail .ecap s := if_pos h

theorem phrasePut_room {P : Config.Params} {s : State} (h : s.plen ≠ P.pmax) (c : Symbol) :
    phrasePut P c s = answer .ok (dataOfNat (s.plen + 1)) (appendPb c s) := if_neg h

theorem inputPut_full {P : Config.Params} {s : State} (h : s.ilen = P.imax) (c : Symbol) :
    inputPut P c s = fail .ecap s := if_pos h

theorem inputPut_room {P : Config.Params} {s : State} (h : s.ilen ≠ P.imax) (c : Symbol) :
    inputPut P c s = answer .ok (dataOfNat (s.ilen + 1)) (appendIb c s) := if_neg h

theorem phraseOf_appendPb (c : Symbol) (s : State) : phraseOf (appendPb c s) = phraseOf s ++ [c] :=
  cells_self _ _ (by simp)

theorem inputOf_appendIb (c : Symbol) (s : State) : inputOf (appendIb c s) = inputOf s ++ [c] :=
  cells_self _ _ (by simp)

theorem phrasePut_given {P : Config.Params} (hP : P.Admissible) {s : State} (h : s.plen < P.pmax) (c : Symbol) :
    phrasePut P c s = .next (given (BitVec.ofNat 32 (s.plen + 1)) (appendPb c s)) := by
  obtain ⟨-, ⟨-, hmax⟩, -⟩ := hP
  rw [phrasePut_room h.ne, answer_nat (by omega)]

theorem inputPut_given {P : Config.Params} (hP : P.Admissible) {s : State} (h : s.ilen < P.imax) (c : Symbol) :
    inputPut P c s = .next (given (BitVec.ofNat 32 (s.ilen + 1)) (appendIb c s)) := by
  obtain ⟨-, -, ⟨-, hmax⟩, -⟩ := hP
  rw [inputPut_room h.ne, answer_nat (by omega)]

/-! ### The commands that meet a parameter keep good states good (10_state.md R36) -/

/-- Answering from a good state ends in a good state. -/
theorem Inv_of_answer {P : Config.Params} {st : Status} {d : Data} {u t : State} (hu : Inv P u)
    (h : answer st d u = .next t) : Inv P t :=
  Host.Outcome.next.inj h ▸ Inv_respond st d hu

theorem Inv_phrasePut {P : Config.Params} {s t : State} {c : Symbol} (hs : Inv P s) (h : phrasePut P c s = .next t) :
    Inv P t := by
  by_cases hl : s.plen = P.pmax
  · exact Inv_of_answer hs (phrasePut_full hl c ▸ h)
  · exact Inv_of_answer (Inv_appendPb c hs hl) (phrasePut_room hl c ▸ h)

theorem Inv_inputPut {P : Config.Params} {s t : State} {c : Symbol} (hs : Inv P s) (h : inputPut P c s = .next t) :
    Inv P t := by
  by_cases hl : s.ilen = P.imax
  · exact Inv_of_answer hs (inputPut_full hl c ▸ h)
  · exact Inv_of_answer (Inv_appendIb c hs hl) (inputPut_room hl c ▸ h)

/-- A failed BUILD changes only the response; a successful one commits a Huffman code within the capacities. -/
theorem Inv_buildAndEncode {P : Config.Params} {s t : State} (hP : P.Admissible) (hs : Inv P s)
    (h : buildAndEncode P s = .next t) : Inv P t := by
  have hlen := hs.plen_lt hP
  obtain ⟨⟨-, hsym⟩, -⟩ := hP
  obtain rfl | rfl | ⟨b, hb, hn, ho, rfl⟩ := buildAndEncode_inv hsym hlen h
  · exact Inv_respond _ _ hs
  · exact Inv_respond _ _ hs
  · exact Inv_respond _ _ (Inv_commitBuild hs hb hn ho)

/-! ### The statements -/

/-- Settles O17: the first clause is the dispatch; the others are PPUT and BPUT at the capacity and below it. -/
theorem capacitiesAreParameters : Obligations.CapacitiesAreParameters := by
  refine ⟨fun _ _ => ⟨rfl, rfl, rfl⟩, fun P hP c s => ⟨fun h => ?_, fun h => ?_, fun h => ?_, fun h => ?_⟩⟩
  · exact (phrasePut_full h c).trans (fail_given .ecap s)
  · exact ⟨_, phrasePut_given hP h c, rfl, phraseOf_appendPb c s⟩
  · exact (inputPut_full h c).trans (fail_given .ecap s)
  · exact ⟨_, inputPut_given hP h c, rfl, inputOf_appendIb c s⟩

/-- Settles O50, one command at a time. -/
theorem goodStatesForEveryParameter : Obligations.GoodStatesForEveryParameter :=
  fun _ hP _ _ _ hs => ⟨Inv_buildAndEncode hP hs, Inv_phrasePut hs, Inv_inputPut hs⟩

/-- Settles O2: the decoder bounds the operands, and `step_command` runs the command. -/
theorem stepRunsTheDecodedCommand : Obligations.StepRunsTheDecodedCommand :=
  fun _ _ _ _ hc hd => ⟨decode_wellFormed hd, step_command hc hd⟩

/-- Settles O57, by the idle case of a step. -/
theorem theCoreWaitsUnchanged : Obligations.TheCoreWaitsUnchanged := fun _ hc => step_idle hc

end Sys2Proof.Machine
end

section
/-! PROOFS. The statements of 10_state.md: the reset state is good and every step keeps a good state good (R36, R37), what
changes TVALID and the retained tree (R23, R38), and that the host's two streams are no state of the core (R20). -/

namespace Sys2Proof

/-! ### The word of a decoded command (30_encoding.md R71, R75) -/

theorem encode_of_formatZ {w : Word} {n : Nat} {j i : Instr} (hn : (opField w).toNat = n)
    (hj : encode j = wordZ (BitVec.ofNat 8 n)) (h : formatZ w j = .command i) : encode i = w := by
  unfold formatZ at h
  split at h
  next hz => rw [← Decoded.command.inj h, hj, ← eq_wordZ hn hz]
  next => cases h

theorem encode_of_formatC {w : Word} {n : Nat} {f : Symbol → Instr} {i : Instr} (hn : (opField w).toNat = n)
    (hf : ∀ c, encode (f c) = wordC (BitVec.ofNat 8 n) c) (h : formatC w f = .command i) : encode i = w := by
  unfold formatC at h
  split at h
  next hz => rw [← Decoded.command.inj h, hf, ← eq_wordC hn hz]
  next => cases h

theorem encode_of_formatX {w : Word} {n : Nat} {f : Nat → Instr} {i : Instr} (hn : (opField w).toNat = n)
    (hf : ∀ x, encode (f x) = wordX (BitVec.ofNat 8 n) x) (h : formatX w f = .command i) : encode i = w := by
  rw [← Decoded.command.inj h, hf, ← eq_wordX hn]

theorem encode_of_formatK {w : Word} {n : Nat} {f : Nat → Nat → Instr} {i : Instr} (hn : (opField w).toNat = n)
    (hf : ∀ e k, encode (f e k) = wordK (BitVec.ofNat 8 n) e k) (h : formatK w f = .command i) : encode i = w := by
  rw [← Decoded.command.inj h, hf, ← eq_wordK hn]

/-- One case per row of the opcode map (R75), in its order: the row's opcode and format give the word back. -/
theorem encode_of_decode {w : Word} {i : Instr} (h : decode w = .command i) : encode i = w := by
  unfold decode at h
  split at h
  next hn => exact encode_of_formatZ hn rfl h
  next hn => exact encode_of_formatX hn (fun _ => rfl) h
  next hn => exact encode_of_formatZ hn rfl h
  next hn => exact encode_of_formatC hn (fun _ => rfl) h
  next hn => exact encode_of_formatZ hn rfl h
  next hn => exact encode_of_formatZ hn rfl h
  next hn => exact encode_of_formatC hn (fun _ => rfl) h
  next hn => exact encode_of_formatZ hn rfl h
  next hn => exact encode_of_formatX hn (fun _ => rfl) h
  next hn => exact encode_of_formatX hn (fun _ => rfl) h
  next hn => exact encode_of_formatX hn (fun _ => rfl) h
  next hn => exact encode_of_formatX hn (fun _ => rfl) h
  next hn => exact encode_of_formatX hn (fun _ => rfl) h
  next hn => exact encode_of_formatX hn (fun _ => rfl) h
  next hn => exact encode_of_formatK hn (fun _ _ => rfl) h
  next hn => exact encode_of_formatC hn (fun _ => rfl) h
  next hn => exact encode_of_formatX hn (fun _ => rfl) h
  next hn => exact encode_of_formatX hn (fun _ => rfl) h
  next => cases h

theorem eq_of_decode_build {w : Word} (h : decode w = .command .build) : w = 0x12000000#32 := (encode_of_decode h).symm

end Sys2Proof

namespace Sys2Proof.Machine

open Sys2Proof.Safety

/-! ### Good states (R36, R37) -/

/-- Waiting, reset, a command and an illegal word each keep a good state good. -/
theorem Inv_step {s t : State} (hs : Inv Config.defaults s) (h : step s = .next t) : Inv Config.defaults t := by
  rcases step_effect s with ⟨-, he⟩ | ⟨rest, -, he⟩ | ⟨w, rest, i, st, d, u, -, he, -, ⟨-, hu⟩ | ⟨r, -, -, hu⟩⟩
  · exact Host.Outcome.next.inj (he.symm.trans h) ▸ hs
  · exact Host.Outcome.next.inj (he.symm.trans h) ▸ Inv_applyReset _
  · exact Inv_of_answer (Inv_update (Inv_cmds rest hs) hu) (he.symm.trans h)
  · exact Inv_of_answer (hu ▸ Inv_cmds rest hs) (he.symm.trans h)

/-! ### The retained state (R23, R38) -/

/-- The tree, the code table and the encoded output are in `t` as they are in `s`. -/
def SameRetained (s t : State) : Prop :=
  t.tvalid = s.tvalid ∧ t.nsym = s.nsym ∧ t.nnode = s.nnode ∧ t.root = s.root ∧ t.node = s.node ∧ t.ct = s.ct ∧
    t.ob = s.ob ∧ t.olen = s.olen

theorem SameRetained.refl (s : State) : SameRetained s s := ⟨rfl, rfl, rfl, rfl, rfl, rfl, rfl, rfl⟩

/-- Of the updates a command makes, only the commit of a BUILD reaches the retained state. -/
theorem Update.retained {s u : State} {i : Instr} {st : Status} (h : Update s i st u) :
    SameRetained s u ∨ (i = .build ∧ st = .ok ∧ u.tvalid = true) := by
  cases h with
  | build => exact Or.inr ⟨rfl, rfl, rfl⟩
  | nothing => exact Or.inl (.refl s)
  | pclr => exact Or.inl (.refl s)
  | pput => exact Or.inl (.refl s)
  | bclr => exact Or.inl (.refl s)
  | bput => exact Or.inl (.refl s)
  | abort => exact Or.inl (.refl s)
  | decoded => exact Or.inl (.refl s)

/-- What a step can do to the retained state: nothing, a reset, or a BUILD that answers OK and leaves TVALID 1. -/
theorem step_retained {s t : State} (h : step s = .next t) : SameRetained s t ∨
    (s.cmds.head? = some .reset ∧ t.tvalid = false) ∨
    (∃ rest r, s.cmds = .command 0x12000000#32 :: rest ∧ t.rsps = s.rsps ++ [r] ∧ statusOf r = 0 ∧ t.tvalid = true) := by
  rcases step_effect s with ⟨-, he⟩ | ⟨rest, hc, he⟩ | ⟨w, rest, i, st, d, u, hc, he, -, ⟨hd, hu⟩ | ⟨r, -, -, rfl⟩⟩ <;>
    obtain rfl := Host.Outcome.next.inj (he.symm.trans h)
  · exact Or.inl (.refl s)
  · exact Or.inr (Or.inl ⟨by rw [hc]; rfl, rfl⟩)
  · rcases hu.retained with hk | ⟨rfl, rfl, hv⟩
    · exact Or.inl hk
    · obtain rfl := eq_of_decode_build hd
      refine Or.inr (Or.inr ⟨rest, responseWord .ok d, hc, ?_, statusOf_responseWord .ok d, hv⟩)
      rw [respond, hu.rsps_eq]
  · exact Or.inl (.refl s)

/-- BUILD either answers an error and writes nothing more, or answers OK and leaves TVALID 1 (R138). -/
theorem build_tvalid {s t : State} {r : Word} (h : exec .build s = .next t) (hr : t.rsps = s.rsps ++ [r]) :
    (statusOf r = 0 → t.tvalid = true) ∧ (statusOf r ≠ 0 → t.tvalid = s.tvalid) := by
  rcases buildAndEncode_congr Config.defaults (s := s) (t := s) rfl rfl with ⟨e, hne, he, -⟩ | ⟨b, he, -⟩ <;>
    obtain rfl := Host.Outcome.next.inj (he.symm.trans h) <;>
    obtain rfl : responseWord _ _ = r := by simpa [respond] using hr
  · exact ⟨fun h0 => absurd (statusOf_responseWord e 0#28 ▸ h0) (statusCode_ne_zero.2 hne), fun _ => rfl⟩
  · exact ⟨fun _ => rfl, fun h0 => absurd (statusOf_responseWord .ok _) h0⟩

/-! ### The host's streams (R20) -/

/-- `s` with other streams: `es` still to come from the host, `rs` given to it before. -/
def withStreams (es : List HostEvent) (rs : List Word) (s : State) : State := { s with cmds := es, rsps := rs }

/-- `k'` is what `k` is, a response after an update of `s`, with other streams and nothing else different. -/
def AnswersAlike (es : List HostEvent) (rs : List Word) (s : State) (k k' : Result) : Prop :=
  ∃ st d u, k = answer st d u ∧ k' = answer st d (withStreams es rs u) ∧ u.cmds = s.cmds ∧ u.rsps = s.rsps

section
variable {es : List HostEvent} {rs : List Word} {s : State} {k k' : Result}

theorem alike_answer (st : Status) (d : Data) : AnswersAlike es rs s (answer st d s) (answer st d (withStreams es rs s)) :=
  ⟨st, d, s, rfl, rfl, rfl, rfl⟩

theorem alike_withTree (h : AnswersAlike es rs s k k') :
    AnswersAlike es rs s (withTree s k) (withTree (withStreams es rs s) k') := by
  cases ht : s.tvalid
  · rw [withTree_none ht, withTree_none (s := withStreams es rs s) ht]; exact alike_answer .enotree 0#28
  · rwa [withTree_held ht, withTree_held (s := withStreams es rs s) ht]

theorem alike_withIndex (x b : Nat) (h : AnswersAlike es rs s k k') :
    AnswersAlike es rs s (withIndex x b s k) (withIndex x b (withStreams es rs s) k') := by
  rcases Nat.lt_or_ge x b with hx | hx
  · rwa [withIndex_lt hx, withIndex_lt hx]
  · rw [withIndex_ge hx, withIndex_ge hx]; exact alike_answer .eidx 0#28

theorem alike_readNode (x : Nat) (f : Node → Data) :
    AnswersAlike es rs s (readNode x f s) (readNode x f (withStreams es rs s)) :=
  alike_withTree (alike_withIndex x s.nnode (alike_answer .ok _))

theorem alike_readEntry (x : Nat) (f : Code → Data) :
    AnswersAlike es rs s (readEntry x f s) (readEntry x f (withStreams es rs s)) :=
  alike_withTree (alike_withIndex x s.nsym (alike_answer .ok _))

theorem alike_rdcr (x : Nat) : AnswersAlike es rs s (execRdcr x s) (execRdcr x (withStreams es rs s)) := by
  have hc : controlRegister (withStreams es rs s) x = controlRegister s x := rfl
  unfold execRdcr
  rw [hc]
  cases controlRegister s x with
  | some v => exact alike_answer .ok v
  | none => exact alike_answer .eidx 0#28

theorem alike_lkup (c : Symbol) : AnswersAlike es rs s (execLkup c s) (execLkup c (withStreams es rs s)) := by
  have hc : entryOf (withStreams es rs s) c = entryOf s c := rfl
  unfold execLkup
  rw [hc]
  apply alike_withTree
  cases entryOf s c with
  | some i => exact alike_answer .ok _
  | none => exact alike_answer .enosym 0#28

theorem alike_pput (P : Config.Params) (c : Symbol) :
    AnswersAlike es rs s (phrasePut P c s) (phrasePut P c (withStreams es rs s)) := by
  by_cases h : s.plen = P.pmax
  · exact ⟨_, _, _, phrasePut_full h c, phrasePut_full (s := withStreams es rs s) h c, rfl, rfl⟩
  · exact ⟨_, _, _, phrasePut_room h c, phrasePut_room (s := withStreams es rs s) h c, rfl, rfl⟩

theorem alike_bput (P : Config.Params) (c : Symbol) :
    AnswersAlike es rs s (inputPut P c s) (inputPut P c (withStreams es rs s)) := by
  by_cases h : s.ilen = P.imax
  · exact ⟨_, _, _, inputPut_full h c, inputPut_full (s := withStreams es rs s) h c, rfl, rfl⟩
  · exact ⟨_, _, _, inputPut_room h c, inputPut_room (s := withStreams es rs s) h c, rfl, rfl⟩

theorem alike_build (P : Config.Params) :
    AnswersAlike es rs s (buildAndEncode P s) (buildAndEncode P (withStreams es rs s)) := by
  rcases buildAndEncode_congr P (s := s) (t := withStreams es rs s) rfl rfl with ⟨e, -, h, h'⟩ | ⟨b, h, h'⟩
  · exact ⟨_, _, _, h, h', rfl, rfl⟩
  · exact ⟨_, _, _, h, h', rfl, rfl⟩

/-- DECODE, one case for each of its five outcomes (44_decoder.md R151). -/
theorem alike_decode : AnswersAlike es rs s (execDecode s) (execDecode (withStreams es rs s)) := by
  cases ht : s.tvalid
  · exact ⟨_, _, _, execDecode_noTree ht, execDecode_noTree (s := withStreams es rs s) ht, rfl, rfl⟩
  cases hv : (inputOf s).all validBitChar
  · exact ⟨_, _, _, execDecode_invalid ht hv, execDecode_invalid (s := withStreams es rs s) ht hv, rfl, rfl⟩
  cases hk : (nodeAt s s.root.toNat).kind
  · exact ⟨_, _, _, execDecode_leaf ht hv hk, execDecode_leaf (s := withStreams es rs s) ht hv hk, rfl, rfl⟩
  cases hw : walk s.node s.root s.root (inputOf s) with
  | none => exact ⟨_, _, _, execDecode_none ht hv hk hw, execDecode_none (s := withStreams es rs s) ht hv hk hw, rfl, rfl⟩
  | some r => exact ⟨_, _, _, execDecode_some ht hv hk hw, execDecode_some (s := withStreams es rs s) ht hv hk hw, rfl, rfl⟩

/-- Every command reads and writes the same with other streams. -/
theorem exec_withStreams (i : Instr) : AnswersAlike es rs s (exec i s) (exec i (withStreams es rs s)) := by
  cases i with
  | nop => exact alike_answer .ok 0#28
  | rdcr x => exact alike_rdcr x
  | pclr => exact ⟨.ok, 0#28, clearPb s, rfl, rfl, rfl, rfl⟩
  | pput c => exact alike_pput Config.defaults c
  | build => exact alike_build Config.defaults
  | bclr => exact ⟨.ok, 0#28, clearIb s, rfl, rfl, rfl, rfl⟩
  | bput c => exact alike_bput Config.defaults c
  | decode => exact alike_decode
  | rdnk x => exact alike_readNode x kindSymData
  | rdnf x => exact alike_readNode x (fun v => v.freq.setWidth 28)
  | rdnl x => exact alike_readNode x (fun v => v.left.setWidth 28)
  | rdnr x => exact alike_readNode x (fun v => v.right.setWidth 28)
  | rdcs x => exact alike_readEntry x (fun r => r.sym.setWidth 28)
  | rdcl x => exact alike_readEntry x (fun r => r.len.setWidth 28)
  | rdcb e k => exact alike_withTree (alike_withIndex e s.nsym (alike_withIndex k (ctAt s e).len.toNat (alike_answer .ok _)))
  | lkup c => exact alike_lkup c
  | rdob x => exact alike_withIndex x s.olen (alike_answer .ok _)
  | rdtx x => exact alike_withIndex x s.tlen (alike_answer .ok _)

end

/-! ### The statements -/

/-- Settles O48, by the cases of a step. -/
theorem everyStepKeepsGoodStates : Obligations.EveryStepKeepsGoodStates := fun _ _ => Inv_step

/-- Settles O49, by the values of the reset state. -/
theorem resetStateIsGood : Obligations.ResetStateIsGood := ⟨inv_reset, rfl, rfl, rfl, rfl, rfl, rfl, rfl, rfl, rfl⟩

/-- Settles O54: `step_retained`, with its third case weakened to what is claimed. -/
theorem retainedStateChangesOnlyByBuild : Obligations.RetainedStateChangesOnlyByBuild := by
  intro s t h
  rcases step_retained h with hk | ⟨hc, -⟩ | ⟨rest, r, hc, hr, h0, -⟩
  · exact Or.inl hk
  · exact Or.inr (Or.inl hc)
  · exact Or.inr (Or.inr ⟨by rw [hc]; rfl, r, hr, h0⟩)

/-- Settles O52: a step that changes TVALID is a reset, which leaves it 0, or a BUILD that answers OK, which leaves it 1. -/
theorem tvalidLifecycle : Obligations.TvalidLifecycle := by
  refine ⟨rfl, fun s t h hs ht => ?_, fun s t h hs ht => ?_, fun s t r => build_tvalid, fun s hs => execDecode_noTree hs⟩
  · rcases step_retained h with ⟨hk, -⟩ | ⟨hc, -⟩ | ⟨-, -, -, -, -, hv⟩
    · rw [hk, hs] at ht; cases ht
    · exact hc
    · rw [hv] at ht; cases ht
  · rcases step_retained h with ⟨hk, -⟩ | ⟨-, hv⟩ | ⟨rest, r, hc, hr, h0, -⟩
    · rw [hk, hs] at ht; cases ht
    · rw [hv] at ht; cases ht
    · exact ⟨rest, r, hc, hr, h0⟩

/-- Settles O56: the response is the one `exec_withStreams` gives for both states. -/
theorem theStreamsDoNotInfluenceCommands : Obligations.TheStreamsDoNotInfluenceCommands := by
  intro i s t es rs h
  obtain ⟨st, d, u, he, he', hc, hr⟩ := exec_withStreams (es := es) (rs := rs) (s := s) i
  obtain rfl := Host.Outcome.next.inj (he.symm.trans h)
  exact ⟨responseWord st d, by rw [respond, hr], hc, he'⟩

end Sys2Proof.Machine
end

section
/-! PROOFS. The statement of 20_memory.md: no read has a side effect (R54). -/

namespace Sys2Proof.Machine

open Sys2Proof.Safety

/-- The mnemonics of the commands that only read (R54), with NOP. -/
def readMnemonics : List String :=
  ["NOP", "RDCR", "RDNK", "RDNF", "RDNL", "RDNR", "RDCS", "RDCL", "RDCB", "LKUP", "RDOB", "RDTX"]

/-- Each update other than `nothing` belongs to a command that is no read. -/
theorem Update.eq_of_read {s u : State} {i : Instr} {st : Status} (hi : i.mnemonic ∈ readMnemonics)
    (h : Update s i st u) : u = s := by
  cases h with
  | nothing => rfl
  | _ => simp [Instr.mnemonic, readMnemonics] at hi

/-- A read gives one response and changes nothing else. -/
theorem exec_read {i : Instr} (hi : i.mnemonic ∈ readMnemonics) (s : State) : ∃ r, exec i s = .next (given r s) := by
  obtain ⟨st, d, u, he, -, hu⟩ := exec_effect i s
  obtain rfl := hu.eq_of_read hi
  exact ⟨responseWord st d, he⟩

/-- A command that only gives a response gives the same one again: responses given before do not influence it. -/
theorem exec_given_again {i : Instr} {s : State} {r : Word} (h : exec i s = .next (given r s)) :
    exec i (given r s) = .next (given r (given r s)) := by
  obtain ⟨r', hr, -, he⟩ := theStreamsDoNotInfluenceCommands i s _ s.cmds (s.rsps ++ [r]) h
  obtain rfl : r = r' := by simpa [given] using hr
  exact he

/-- Settles O53: a read makes no update, and what it answers does not depend on the responses given before. -/
theorem readsHaveNoSideEffect : Obligations.ReadsHaveNoSideEffect := by
  intro i s hi
  obtain ⟨r, h⟩ := exec_read hi s
  exact ⟨r, h, exec_given_again h⟩

end Sys2Proof.Machine
end

section
/-! PROOFS. The statements of 30_encoding.md: encoding and decoding are inverse to each other (R71, R72, R75), the opcode
map selects the command (R75), which words are illegal (R76), and every command word has one response (R73). -/

namespace Sys2Proof

/-! ### Encoding and decoding -/

/-- Settles O1: the decoder evaluates on every sample word. -/
theorem sampleWordsDecode : Obligations.SampleWordsDecode := by
  unfold Obligations.SampleWordsDecode
  decide

/-- Settles O5: one case per command, each the command's own round trip. -/
theorem decodeOfEncode : Obligations.DecodeOfEncode := by
  intro i
  cases i with
  | nop => exact Laws.RoundTrip.nop
  | rdcr x => exact Laws.RoundTrip.rdcr x
  | pclr => exact Laws.RoundTrip.pclr
  | pput c => exact Laws.RoundTrip.pput c
  | build => exact Laws.RoundTrip.build
  | bclr => exact Laws.RoundTrip.bclr
  | bput c => exact Laws.RoundTrip.bput c
  | decode => exact Laws.RoundTrip.decode
  | rdnk x => exact Laws.RoundTrip.rdnk x
  | rdnf x => exact Laws.RoundTrip.rdnf x
  | rdnl x => exact Laws.RoundTrip.rdnl x
  | rdnr x => exact Laws.RoundTrip.rdnr x
  | rdcs x => exact Laws.RoundTrip.rdcs x
  | rdcl x => exact Laws.RoundTrip.rdcl x
  | rdcb e k => exact Laws.RoundTrip.rdcb e k
  | lkup c => exact Laws.RoundTrip.lkup c
  | rdob x => exact Laws.RoundTrip.rdob x
  | rdtx x => exact Laws.RoundTrip.rdtx x

/-- Settles O6: the decoder bounds the operands, and the encoder gives the word back. -/
theorem encodeOfDecode : Obligations.EncodeOfDecode := fun _ _ h => ⟨decode_wellFormed h, encode_of_decode h⟩

/-! ### The masks of the opcode map, one per format (R71, R75)

Each mask asks for the opcode byte and for the bits that its format fixes at 0. -/

theorem maskZ_iff (w : Word) (op : BitVec 8) :
    w &&& 0xFFFFFFFF#32 = wordZ op ↔ opField w = op ∧ w.extractLsb' 0 24 = 0#24 := by
  rw [show (0xFFFFFFFF#32 : Word) = BitVec.allOnes 8 ++ BitVec.allOnes 24 from rfl, wordZ, masked_iff,
    BitVec.and_allOnes, BitVec.and_allOnes]

theorem maskX_iff (w : Word) (op : BitVec 8) : w &&& 0xFF000000#32 = wordZ op ↔ opField w = op := by
  rw [show (0xFF000000#32 : Word) = BitVec.allOnes 8 ++ 0#24 from rfl, wordZ, masked_iff, BitVec.and_allOnes,
    BitVec.and_zero, and_iff_left rfl]

/-- The upper byte of an operand field of format C decides whether the masked field is 0. -/
theorem upper_masked_iff (y : BitVec 8) (c : Symbol) :
    (y ++ c : BitVec 24) &&& (BitVec.allOnes 8 ++ 0#16 : BitVec 24) = 0#24 ↔ y = 0#8 := by
  rw [BitVec.and_append, BitVec.and_allOnes, BitVec.and_zero]
  exact BitVec.append_left_inj (s₂ := 0#8) 0#16

theorem maskC_iff (w : Word) (op : BitVec 8) :
    w &&& 0xFFFF0000#32 = wordZ op ↔ opField w = op ∧ w.extractLsb' 16 8 = 0#8 := by
  rw [show (0xFFFF0000#32 : Word) = BitVec.allOnes 8 ++ (BitVec.allOnes 8 ++ 0#16 : BitVec 24) from rfl, wordZ,
    masked_iff, BitVec.and_allOnes, operand_eq_c, upper_masked_iff]

/-! ### A command's word matches the command's row -/

theorem wordZ_masked (op : BitVec 8) : wordZ op &&& 0xFFFFFFFF#32 = wordZ op :=
  (maskZ_iff _ op).mpr ⟨opField_wordZ op, operand_append op _⟩

theorem wordC_masked (op : BitVec 8) (c : Symbol) : wordC op c &&& 0xFFFF0000#32 = wordZ op :=
  (maskC_iff _ op).mpr ⟨opField_wordC op c, upper_append op _ c⟩

theorem wordX_masked (op : BitVec 8) (x : Nat) : wordX op x &&& 0xFF000000#32 = wordZ op :=
  (maskX_iff _ op).mpr (opField_wordX op x)

theorem wordK_masked (op : BitVec 8) (e k : Nat) : wordK op e k &&& 0xFF000000#32 = wordZ op :=
  (maskX_iff _ op).mpr (opField_wordK op e k)

/-- Every command has a row of its mnemonic (R75), and its word matches that row. -/
theorem exists_row (i : Instr) :
    ∃ row ∈ opcodeMap, i.mnemonic = row.mnemonic ∧ encode i &&& row.mask = row.pat := by
  cases i with
  | nop => exact ⟨opcodeMap[0], List.getElem_mem _, rfl, wordZ_masked 0x00#8⟩
  | rdcr x => exact ⟨opcodeMap[1], List.getElem_mem _, rfl, wordX_masked 0x01#8 x⟩
  | pclr => exact ⟨opcodeMap[2], List.getElem_mem _, rfl, wordZ_masked 0x10#8⟩
  | pput c => exact ⟨opcodeMap[3], List.getElem_mem _, rfl, wordC_masked 0x11#8 c⟩
  | build => exact ⟨opcodeMap[4], List.getElem_mem _, rfl, wordZ_masked 0x12#8⟩
  | bclr => exact ⟨opcodeMap[5], List.getElem_mem _, rfl, wordZ_masked 0x20#8⟩
  | bput c => exact ⟨opcodeMap[6], List.getElem_mem _, rfl, wordC_masked 0x21#8 c⟩
  | decode => exact ⟨opcodeMap[7], List.getElem_mem _, rfl, wordZ_masked 0x22#8⟩
  | rdnk x => exact ⟨opcodeMap[8], List.getElem_mem _, rfl, wordX_masked 0x30#8 x⟩
  | rdnf x => exact ⟨opcodeMap[9], List.getElem_mem _, rfl, wordX_masked 0x31#8 x⟩
  | rdnl x => exact ⟨opcodeMap[10], List.getElem_mem _, rfl, wordX_masked 0x32#8 x⟩
  | rdnr x => exact ⟨opcodeMap[11], List.getElem_mem _, rfl, wordX_masked 0x33#8 x⟩
  | rdcs x => exact ⟨opcodeMap[12], List.getElem_mem _, rfl, wordX_masked 0x40#8 x⟩
  | rdcl x => exact ⟨opcodeMap[13], List.getElem_mem _, rfl, wordX_masked 0x41#8 x⟩
  | rdcb e k => exact ⟨opcodeMap[14], List.getElem_mem _, rfl, wordK_masked 0x42#8 e k⟩
  | lkup c => exact ⟨opcodeMap[15], List.getElem_mem _, rfl, wordC_masked 0x43#8 c⟩
  | rdob x => exact ⟨opcodeMap[16], List.getElem_mem _, rfl, wordX_masked 0x50#8 x⟩
  | rdtx x => exact ⟨opcodeMap[17], List.getElem_mem _, rfl, wordX_masked 0x51#8 x⟩

/-! ### A word that matches a row decodes to a command of that row -/

/-- `w` decodes to a command with the mnemonic of `row`. -/
def DecodesAs (w : Word) (row : OpcodeRow) : Prop := ∃ i, decode w = .command i ∧ i.mnemonic = row.mnemonic

/-- The word of a well-formed command decodes as the command's row. -/
theorem decodesAs_of_encode {w : Word} {row : OpcodeRow} {i : Instr} (he : w = encode i) (hwf : i.wellFormed = true)
    (hm : i.mnemonic = row.mnemonic) : DecodesAs w row := ⟨i, he ▸ decodeOfEncode i hwf, hm⟩

theorem decodesAs_of_maskZ {w : Word} {row : OpcodeRow} {op : BitVec 8} (j : Instr) (hj : encode j = wordZ op)
    (hwf : j.wellFormed = true) (hm : j.mnemonic = row.mnemonic) (h : w &&& 0xFFFFFFFF#32 = wordZ op) :
    DecodesAs w row := by
  obtain ⟨hop, hz⟩ := (maskZ_iff w op).mp h
  have hw : w = wordZ op := by rw [word_eq_append w, hop, hz, wordZ]
  exact decodesAs_of_encode (hw.trans hj.symm) hwf hm

theorem decodesAs_of_maskC {w : Word} {row : OpcodeRow} {op : BitVec 8} (f : Symbol → Instr)
    (hf : ∀ c, encode (f c) = wordC op c) (hwf : ∀ c, (f c).wellFormed = true)
    (hm : ∀ c, (f c).mnemonic = row.mnemonic) (h : w &&& 0xFFFF0000#32 = wordZ op) : DecodesAs w row := by
  obtain ⟨hop, hz⟩ := (maskC_iff w op).mp h
  have hw : w = wordC op (cField w) := by simpa using eq_wordC (congrArg BitVec.toNat hop) hz
  exact decodesAs_of_encode (hw.trans (hf _).symm) (hwf _) (hm _)

theorem decodesAs_of_maskX {w : Word} {row : OpcodeRow} {op : BitVec 8} (f : Nat → Instr)
    (hf : ∀ x, encode (f x) = wordX op x) (hwf : ∀ x, (f x).wellFormed = indexFits x)
    (hm : ∀ x, (f x).mnemonic = row.mnemonic) (h : w &&& 0xFF000000#32 = wordZ op) : DecodesAs w row := by
  have hw : w = wordX op (xField w) := by simpa using eq_wordX (congrArg BitVec.toNat ((maskX_iff w op).mp h))
  exact decodesAs_of_encode (hw.trans (hf _).symm) ((hwf _).trans (indexFits_xField w)) (hm _)

/-- The one row of format K is RDCB's. -/
theorem decodesAs_of_maskK {w : Word} (h : w &&& 0xFF000000#32 = wordZ 0x42#8) : DecodesAs w opcodeMap[14] := by
  have hw : w = wordK 0x42#8 (iField w) (kField w) := eq_wordK (congrArg BitVec.toNat ((maskX_iff w _).mp h))
  exact decodesAs_of_encode (i := .rdcb (iField w) (kField w)) hw
    (by rw [Instr.wellFormed, entryFits_iField, bitPosFits_kField]; rfl) rfl

/-- One case per row of the opcode map (R75), in its order. -/
theorem decodesAs_of_mask (w : Word) : ∀ row ∈ opcodeMap, w &&& row.mask = row.pat → DecodesAs w row := by
  refine List.forall_iff_forall_mem.mp ⟨?_, ?_, ?_, ?_, ?_, ?_, ?_, ?_, ?_, ?_, ?_, ?_, ?_, ?_, ?_, ?_, ?_, ?_⟩
  · exact decodesAs_of_maskZ .nop rfl rfl rfl
  · exact decodesAs_of_maskX .rdcr (fun _ => rfl) (fun _ => rfl) (fun _ => rfl)
  · exact decodesAs_of_maskZ .pclr rfl rfl rfl
  · exact decodesAs_of_maskC .pput (fun _ => rfl) (fun _ => rfl) (fun _ => rfl)
  · exact decodesAs_of_maskZ .build rfl rfl rfl
  · exact decodesAs_of_maskZ .bclr rfl rfl rfl
  · exact decodesAs_of_maskC .bput (fun _ => rfl) (fun _ => rfl) (fun _ => rfl)
  · exact decodesAs_of_maskZ .decode rfl rfl rfl
  · exact decodesAs_of_maskX .rdnk (fun _ => rfl) (fun _ => rfl) (fun _ => rfl)
  · exact decodesAs_of_maskX .rdnf (fun _ => rfl) (fun _ => rfl) (fun _ => rfl)
  · exact decodesAs_of_maskX .rdnl (fun _ => rfl) (fun _ => rfl) (fun _ => rfl)
  · exact decodesAs_of_maskX .rdnr (fun _ => rfl) (fun _ => rfl) (fun _ => rfl)
  · exact decodesAs_of_maskX .rdcs (fun _ => rfl) (fun _ => rfl) (fun _ => rfl)
  · exact decodesAs_of_maskX .rdcl (fun _ => rfl) (fun _ => rfl) (fun _ => rfl)
  · exact decodesAs_of_maskK
  · exact decodesAs_of_maskC .lkup (fun _ => rfl) (fun _ => rfl) (fun _ => rfl)
  · exact decodesAs_of_maskX .rdob (fun _ => rfl) (fun _ => rfl) (fun _ => rfl)
  · exact decodesAs_of_maskX .rdtx (fun _ => rfl) (fun _ => rfl) (fun _ => rfl)

/-- The rows of the opcode map have 18 mnemonics. -/
theorem opcodeMap_mnemonic_nodup : (opcodeMap.map OpcodeRow.mnemonic).Nodup := by decide

theorem eq_of_mnemonic_eq {row row' : OpcodeRow} (h : row ∈ opcodeMap) (h' : row' ∈ opcodeMap)
    (hm : row.mnemonic = row'.mnemonic) : row = row' := List.inj_on_of_nodup_map opcodeMap_mnemonic_nodup h h' hm

/-- Settles O4: the columns of a row say what its format says; back, a command's word matches its row, and no other row
has its mnemonic. -/
theorem opcodeMapSelectsTheCommand : Obligations.OpcodeMapSelectsTheCommand := by
  refine fun w row hrow => ⟨decodesAs_of_mask w row hrow, ?_⟩
  rintro ⟨i, hd, hm⟩
  obtain ⟨row', hrow', hm', hmask⟩ := exists_row i
  obtain rfl := eq_of_mnemonic_eq hrow hrow' (hm.symm.trans hm')
  rwa [encode_of_decode hd] at hmask

/-! ### Illegal words (R76) -/

theorem illegal_iff_no_command (w : Word) : (∃ r, decode w = .illegal r) ↔ ¬ ∃ i, decode w = .command i := by
  cases decode w <;> simp

/-- A word that decodes to no command matches no row, and one that matches no row decodes to no command. -/
theorem illegal_iff_no_row (w : Word) : (∃ r, decode w = .illegal r) ↔ ∀ row ∈ opcodeMap, w &&& row.mask ≠ row.pat := by
  rw [illegal_iff_no_command]
  constructor
  · intro h row hrow hmask
    obtain ⟨i, hd, -⟩ := decodesAs_of_mask w row hrow hmask
    exact h ⟨i, hd⟩
  · rintro h ⟨i, hd⟩
    obtain ⟨row, hrow, -, hmask⟩ := exists_row i
    exact h row hrow (encode_of_decode hd ▸ hmask)

/-- Two rows that a word matches have the mnemonic of the one command it decodes to. -/
theorem row_unique {w : Word} {row row' : OpcodeRow} (h : row ∈ opcodeMap) (h' : row' ∈ opcodeMap)
    (hm : w &&& row.mask = row.pat) (hm' : w &&& row'.mask = row'.pat) : row = row' := by
  obtain ⟨i, hd, hi⟩ := decodesAs_of_mask w row h hm
  obtain ⟨j, hd', hj⟩ := decodesAs_of_mask w row' h' hm'
  obtain rfl := Decoded.command.inj (hd.symm.trans hd')
  exact eq_of_mnemonic_eq h h' (hi.symm.trans hj)

/-- The opcodes of format Z (R75). -/
def zOpcodes : List Nat := [0x00, 0x10, 0x12, 0x20, 0x22]

/-- The opcodes of format C (R75). -/
def cOpcodes : List Nat := [0x11, 0x21, 0x43]

/-- The opcodes of format X and the one of format K (R75). -/
def xkOpcodes : List Nat := [0x01, 0x30, 0x31, 0x32, 0x33, 0x40, 0x41, 0x42, 0x50, 0x51]

/-- The 18 opcodes of R75, in its order. -/
def allOpcodes : List Nat :=
  [0x00, 0x01, 0x10, 0x11, 0x12, 0x20, 0x21, 0x22, 0x30, 0x31, 0x32, 0x33, 0x40, 0x41, 0x42, 0x43, 0x50, 0x51]

/-- What the decoder makes of `w`, by the format of its opcode: the format's check, or nothing where there is none. -/
inductive DecodedBy (w : Word) : Decoded → Prop where
  | z (j : Instr) : (opField w).toNat ∈ zOpcodes → DecodedBy w (formatZ w j)
  | c (f : Symbol → Instr) : (opField w).toNat ∈ cOpcodes → DecodedBy w (formatC w f)
  | xk (i : Instr) : (opField w).toNat ∈ xkOpcodes → DecodedBy w (.command i)
  | unknown : (opField w).toNat ∉ allOpcodes → DecodedBy w (.illegal .unknownOpcode)

/-- One case per row of the opcode map (R75), in its order. -/
theorem decodedBy_decode (w : Word) : DecodedBy w (decode w) := by
  unfold decode
  split
  next hn => exact .z .nop (by rw [hn]; decide)
  next hn => exact .xk (.rdcr _) (by rw [hn]; decide)
  next hn => exact .z .pclr (by rw [hn]; decide)
  next hn => exact .c .pput (by rw [hn]; decide)
  next hn => exact .z .build (by rw [hn]; decide)
  next hn => exact .z .bclr (by rw [hn]; decide)
  next hn => exact .c .bput (by rw [hn]; decide)
  next hn => exact .z .decode (by rw [hn]; decide)
  next hn => exact .xk (.rdnk _) (by rw [hn]; decide)
  next hn => exact .xk (.rdnf _) (by rw [hn]; decide)
  next hn => exact .xk (.rdnl _) (by rw [hn]; decide)
  next hn => exact .xk (.rdnr _) (by rw [hn]; decide)
  next hn => exact .xk (.rdcs _) (by rw [hn]; decide)
  next hn => exact .xk (.rdcl _) (by rw [hn]; decide)
  next hn => exact .xk (.rdcb _ _) (by rw [hn]; decide)
  next hn => exact .c .lkup (by rw [hn]; decide)
  next hn => exact .xk (.rdob _) (by rw [hn]; decide)
  next hn => exact .xk (.rdtx _) (by rw [hn]; decide)
  next => exact .unknown (by simp_all [allOpcodes])

theorem formatZ_illegal_iff (w : Word) (j : Instr) :
    (∃ r, formatZ w j = .illegal r) ↔ w.extractLsb' 0 24 ≠ 0#24 := by
  unfold formatZ
  split <;> simp [*]

theorem formatC_illegal_iff (w : Word) (f : Symbol → Instr) :
    (∃ r, formatC w f = .illegal r) ↔ w.extractLsb' 16 8 ≠ 0#8 := by
  unfold formatC
  split <;> simp [*]

/-! An opcode has one format. -/

theorem of_mem_zOpcodes : ∀ n ∈ zOpcodes, n ∈ allOpcodes ∧ n ∉ cOpcodes := by decide

theorem of_mem_cOpcodes : ∀ n ∈ cOpcodes, n ∈ allOpcodes ∧ n ∉ zOpcodes := by decide

theorem of_mem_xkOpcodes : ∀ n ∈ xkOpcodes, n ∈ allOpcodes ∧ n ∉ zOpcodes ∧ n ∉ cOpcodes := by decide

/-- The three cases of R76. -/
theorem DecodedBy.illegal_iff {w : Word} {d : Decoded} (h : DecodedBy w d) :
    (∃ r, d = .illegal r) ↔ (opField w).toNat ∉ allOpcodes ∨
      ((opField w).toNat ∈ zOpcodes ∧ w.extractLsb' 0 24 ≠ 0#24) ∨
      ((opField w).toNat ∈ cOpcodes ∧ w.extractLsb' 16 8 ≠ 0#8) := by
  cases h with
  | z j hz =>
    obtain ⟨hall, hc⟩ := of_mem_zOpcodes _ hz
    simp [formatZ_illegal_iff, hz, hall, hc]
  | c f hc =>
    obtain ⟨hall, hz⟩ := of_mem_cOpcodes _ hc
    simp [formatC_illegal_iff, hz, hall, hc]
  | xk i hxk =>
    obtain ⟨hall, hz, hc⟩ := of_mem_xkOpcodes _ hxk
    simp [hz, hall, hc]
  | unknown hall => simp [hall]

end Sys2Proof

namespace Sys2Proof.Machine

open Sys2Proof.Safety

/-- A step on an illegal word gives the response EILL without data, and nothing else changes (R76, R183). -/
theorem step_illegal_given {s : State} {w : Word} {rest : List HostEvent} {r : Illegal}
    (h : s.cmds = .command w :: rest) (hd : decode w = .illegal r) :
    step s = .next (given 0x70000000#32 { s with cmds := rest }) :=
  (step_illegal h hd).trans (fail_given .eill _)

/-- Settles O3: the three cases of R76, the rows of the opcode map, and the step on an illegal word. -/
theorem illegalWordsAnswerEill : Obligations.IllegalWordsAnswerEill :=
  ⟨fun w => (decodedBy_decode w).illegal_iff, illegal_iff_no_row, fun _ _ h _ h' => row_unique h h',
    fun _ _ _ _ => step_illegal_given⟩

/-! ### Responses (R73) -/

/-- A step on a command word, legal or not, takes the word off the stream and answers once, with no data on an error. -/
theorem step_answers {s : State} {w : Word} {rest : List HostEvent} (h : s.cmds = .command w :: rest) :
    ∃ st d u, step s = answer st d u ∧ u.cmds = rest ∧ u.rsps = s.rsps ∧ (st ≠ .ok → d = 0#28) := by
  cases hd : decode w with
  | command i =>
    obtain ⟨st, d, u, he, hz, hu⟩ := exec_effect i { s with cmds := rest }
    exact ⟨st, d, u, (step_command h hd).trans he, hu.cmds_eq, hu.rsps_eq, hz⟩
  | illegal r => exact ⟨.eill, 0#28, { s with cmds := rest }, step_illegal h hd, rfl, rfl, fun _ => rfl⟩

/-- Settles O7: the one response is a status code and its data. -/
theorem oneResponsePerCommand : Obligations.OneResponsePerCommand := by
  intro s w rest h
  obtain ⟨st, d, u, he, hcmds, hrsps, hz⟩ := step_answers h
  refine ⟨respond st d u, responseWord st d, he, hcmds, by rw [respond_rsps, hrsps], ?_, ?_⟩
  · rw [statusOf_responseWord]
    exact statusCode_le st
  · rw [statusOf_responseWord, dataOf_responseWord, statusCode_ne_zero]
    exact fun hst => by rw [hz hst, BitVec.toNat_zero]

end Sys2Proof.Machine
end

section
/-! PROOFS. The statements of 40_frequency_counter.md: PCLR empties the phrase buffer (R93), and PPUT appends one character
to it (R94).  The lemmas on command words serve every command: a command has one word, its encoding. -/

namespace Sys2Proof

/-! ### The one word of a command (30_encoding.md R71, R75) -/

theorem decode_eq_command_iff {w : Word} {i : Instr} (hi : i.wellFormed = true) : decode w = .command i ↔ w = encode i :=
  ⟨fun h => (encode_of_decode h).symm, fun h => h ▸ decodeOfEncode i hi⟩

/-- The word of a command of format C, as the number its opcode and its character make. -/
theorem decode_eq_command_iff_of_wordC {w : Word} {i : Instr} {op : BitVec 8} {c : Symbol} (hi : i.wellFormed = true)
    (he : encode i = wordC op c) : decode w = .command i ↔ w.toNat = op.toNat * 2 ^ 24 + c.toNat := by
  rw [decode_eq_command_iff hi, he, ← wordC_toNat, BitVec.toNat_inj]

end Sys2Proof

namespace Sys2Proof.Machine

open Sys2Proof.Safety

/-! ### PB after PCLR and PPUT (R93, R94) -/

theorem phraseOf_clearPb (s : State) : phraseOf (clearPb s) = [] := cells_self _ _ rfl

theorem pbAt_appendPb_plen (c : Symbol) (s : State) : pbAt (appendPb c s) s.plen = c := by
  simpa [pbAt] using cell_append_length (freeSymbol .pb) (phraseOf s) c

theorem pbAt_appendPb_of_lt (c : Symbol) {s : State} {j : Nat} (h : j < s.plen) : pbAt (appendPb c s) j = pbAt s j :=
  cell_append_cells _ _ _ _ h

/-! ### The statements -/

/-- Settles O14: the word of PPUT, then PPUT at the capacity and below it, each with the default capacity. -/
theorem pputAppendsOneCharacter : Obligations.PputAppendsOneCharacter := by
  refine ⟨fun w c => ?_, fun s c h => ?_, fun s c h => ?_⟩
  · exact decode_eq_command_iff_of_wordC (op := 0x11#8) rfl rfl
  · exact (phrasePut_full h c).trans (fail_given .ecap s)
  · exact ⟨_, phrasePut_given defaults_admissible h c, rfl, pbAt_appendPb_plen c s, fun _ => pbAt_appendPb_of_lt c⟩

/-- Settles O13: the word of PCLR, then its one update, which leaves no element of PB to read. -/
theorem pclrEmptiesThePhraseBuffer : Obligations.PclrEmptiesThePhraseBuffer :=
  ⟨fun _ => decode_eq_command_iff rfl, fun s => ⟨_, answer_given 0#28 (clearPb s), rfl, phraseOf_clearPb s⟩⟩

end Sys2Proof.Machine
end

section
/-! PROOFS. The statements of 41_tree_builder.md: the node reads (R112 to R115), the comparator (R102 to R105), and the
tree that BUILD leaves (R107, R108, R111).  What TB computes is under Sys2Proof/Laws/; a BUILD that answers OK is taken
apart once, in `built_of_ok`. -/

namespace Sys2Proof

/-- The words of a command of format X: its opcode, and an index that fits its field (30_encoding.md R71, R72). -/
theorem decode_eq_command_iff_of_wordX {f : Nat → Instr} {op : BitVec 8} (hf : ∀ x, (f x).wellFormed = indexFits x)
    (he : ∀ x, encode (f x) = wordX op x) (w : Word) (x : Nat) :
    decode w = .command (f x) ↔ x < 2 ^ 24 ∧ w.toNat = op.toNat * 2 ^ 24 + x := by
  have hfits : (f x).wellFormed = true ↔ x < 2 ^ 24 := by rw [hf, indexFits, decide_eq_true_iff]
  constructor
  · intro h
    have hx := hfits.1 (decode_wellFormed h)
    exact ⟨hx, by rw [← encode_of_decode h, he, wordX_toNat op hx]⟩
  · rintro ⟨hx, hw⟩
    rw [decode_eq_command_iff (hfits.2 hx), he, ← BitVec.toNat_inj, wordX_toNat op hx, hw]

end Sys2Proof

namespace Sys2Proof.Machine

open Sys2Proof.Safety

/-! ### A BUILD that answers OK (43_encoder.md R137, R138) -/

/-- A response with an error does not have the status OK. -/
theorem statusOf_ne_zero_of_error {s : State} {r : Word} {e : Status} {d : Data} (he : e ≠ .ok)
    (hr : (respond e d s).rsps = s.rsps ++ [r]) : statusOf r ≠ 0 := by
  obtain rfl : responseWord e d = r := by simpa using hr
  rw [statusOf_responseWord]
  exact statusCode_ne_zero.2 he

/-- A BUILD that answers OK committed what BUILD makes of the phrase. -/
theorem built_of_ok {P : Config.Params} (hP : P.Admissible) {s t : State} {r : Word} (hlen : s.plen ≤ P.pmax)
    (h : buildAndEncode P s = .next t) (hr : t.rsps = s.rsps ++ [r]) (h0 : statusOf r = 0) :
    ∃ b, BuildOf (phraseOf s) b ∧ t = respond .ok (dataOfNat b.bits.length) (commitBuild b s) := by
  obtain ⟨⟨-, hsym⟩, ⟨-, hmax⟩, -⟩ := hP
  obtain rfl | rfl | ⟨b, hb, -, -, ht⟩ := buildAndEncode_inv hsym (by omega) h
  · exact absurd h0 (statusOf_ne_zero_of_error (by decide) hr)
  · exact absurd h0 (statusOf_ne_zero_of_error (by decide) hr)
  · exact ⟨b, hb, ht⟩

/-- The same of the command BUILD, from a good state. -/
theorem exec_build_of_ok {s t : State} {r : Word} (hs : Inv Config.defaults s) (h : exec .build s = .next t)
    (hr : t.rsps = s.rsps ++ [r]) (h0 : statusOf r = 0) :
    ∃ b, BuildOf (phraseOf s) b ∧ t = respond .ok (dataOfNat b.bits.length) (commitBuild b s) :=
  built_of_ok defaults_admissible hs.plen_le h hr h0

/-- ROOT is a node of the tree that BUILD makes (R111 (b)). -/
theorem BuildOf.root_lt_nnode {p : List Symbol} {b : Built} (h : BuildOf p b) : b.root.toNat < 2 * b.n - 1 := by
  have hroot := h.root
  have hsize := h.size
  have hpos := h.n_pos
  omega

/-- The root of the tree that BUILD makes counts every character of the phrase (R111 (c)). -/
theorem BuildOf.freq_at_root {s : State} {b : Built} (h : BuildOf (phraseOf s) b) :
    (nodeOf b.nodes b.root.toNat).freq.toNat = s.plen := by
  rw [h.root, h.root_freq, phraseOf_length]

/-! ### The node reads (R112 to R115) -/

/-- The outcomes of a node read whose data, as a number, is `g` of the node. -/
theorem readNode_outcomes {f : Node → Data} {g : Node → Nat} (hg : ∀ v, (f v).toNat = g v) :
    (∀ (s : State) (x : Nat), s.tvalid = false → readNode x f s = .next (given 0x20000000#32 s)) ∧
    (∀ (s : State) (x : Nat), s.tvalid = true → s.nnode ≤ x → readNode x f s = .next (given 0x60000000#32 s)) ∧
    (∀ (s : State) (x : Nat), s.tvalid = true → x < s.nnode →
      readNode x f s = .next (given (BitVec.ofNat 32 (g (nodeAt s x))) s)) := by
  refine ⟨fun s x ht => ?_, fun s x ht hx => ?_, fun s x ht hx => ?_⟩
  · exact (readNode_noTree ht x f).trans (fail_given .enotree s)
  · exact (readNode_ge ht hx f).trans (fail_given .eidx s)
  · rw [readNode_lt ht hx, answer_given, hg]

/-- The Leaves of a held tree are among its nodes (R36 (a)). -/
theorem lt_nnode_of_lt_nsym {P : Config.Params} {s : State} (h : TreeInv P s) {x : Nat} (hx : x < s.nsym) : x < s.nnode := by
  have hn := h.nnode_eq
  omega

/-! ### The comparator (R102 to R105) -/

theorem keyOf_of_leaf {a : List Node} {i : Nat} (h : (nodeOf a i).kind = .leaf) :
    keyOf a i = ⟨(nodeOf a i).freq.toNat, if (nodeOf a i).sym = Config.space then 0 else 1, (nodeOf a i).sym.toNat⟩ := by
  simp only [keyOf, h]

theorem keyOf_of_internal {a : List Node} {i : Nat} (h : (nodeOf a i).kind = .internal) :
    keyOf a i = ⟨(nodeOf a i).freq.toNat, 2, i⟩ := by
  simp only [keyOf, h]

theorem keyOf_freq (a : List Node) (i : Nat) : (keyOf a i).freq = (nodeOf a i).freq.toNat := by
  cases h : (nodeOf a i).kind
  · rw [keyOf_of_leaf h]
  · rw [keyOf_of_internal h]

/-- A node that is not the space Leaf is in category 1 or 2 (R102). -/
theorem keyOf_cat_pos {a : List Node} {i : Nat} (h : (nodeOf a i).kind = .internal ∨ (nodeOf a i).sym ≠ Config.space) :
    0 < (keyOf a i).cat := by
  cases hk : (nodeOf a i).kind
  · have hs : (nodeOf a i).sym ≠ Config.space := h.resolve_left (by rw [hk]; decide)
    simp [keyOf_of_leaf hk, hs]
  · simp [keyOf_of_internal hk]

/-- Where one node comes first, the other order does not hold. -/
theorem higherPriority_only {a : List Node} {x y : Nat} (h : higherPriority a x y = true) :
    higherPriority a x y = true ∧ higherPriority a y x = false :=
  ⟨h, Bool.eq_false_iff.2 fun h' => higherPriority_asymm h h'⟩

/-- Rule 1 of R103: the lower frequency first. -/
theorem higherPriority_of_freq_lt {a : List Node} {x y : Nat} (h : (nodeOf a x).freq.toNat < (nodeOf a y).freq.toNat) :
    higherPriority a x y = true := by
  rw [higherPriority, keyLt_iff, keyOf_freq, keyOf_freq]
  exact Or.inl h

/-- On equal frequency the category decides, and the tie within one category (R102). -/
theorem higherPriority_of_freq_eq {a : List Node} {x y : Nat} (hf : (nodeOf a x).freq = (nodeOf a y).freq)
    (h : (keyOf a x).cat < (keyOf a y).cat ∨ ((keyOf a x).cat = (keyOf a y).cat ∧ (keyOf a x).tie < (keyOf a y).tie)) :
    higherPriority a x y = true := by
  rw [higherPriority, keyLt_iff, keyOf_freq, keyOf_freq, hf]
  exact Or.inr ⟨rfl, h⟩

/-! ### Trees that the merge loop makes (R107, R111) -/

/-- At every merge the first-removed node has higher priority than the second (R107). -/
theorem left_higherPriority_right {n : Nat} {a : List Node} (h : MergesOf n a) {i : Nat} (hi : n ≤ i) (hl : i < a.length) :
    higherPriority a (nodeOf a i).left.toNat (nodeOf a i).right.toNat = true := by
  have hne : (nodeOf a i).right.toNat ≠ (nodeOf a i).left.toNat := fun he =>
    h.apart i hi hl (BitVec.eq_of_toNat_eq he).symm
  exact h.first i hi hl _ (h.queued i hi hl).2 hne

theorem TreeShape.leaf_iff {n : Nat} {a : List Node} (h : TreeShape n a) {i : Nat} (hi : i < a.length) :
    (nodeOf a i).kind = .leaf ↔ i < n := by
  refine ⟨fun hk => ?_, h.leaf i⟩
  by_contra hn
  rw [h.internal i (by omega) hi] at hk
  cases hk

/-- Each Leaf is reached from the root by exactly one path, which has at most n − 1 steps (R111 (g)). -/
theorem TreeShape.exists_unique_path {n : Nat} {a : List Node} (h : TreeShape n a) {i : Nat} (hi : i < n) :
    ∃ p, follow a (a.length - 1) p = some i ∧ p.length ≤ n - 1 ∧ ∀ q, follow a (a.length - 1) q = some i → q = p := by
  have hn := h.n_le
  have hf := h.pathTo_follow a.length i (by omega) (by omega)
  exact ⟨_, hf, h.pathTo_length_leaf a.length i hi, fun q hq => h.follow_unique q _ i hq hf⟩

/-! ### BUILD and the phrase (R21, R108) -/

/-- BUILD leaves PB and PLEN as they are, whatever it answers (R21). -/
theorem buildAndEncode_keeps_phrase {P : Config.Params} {s t : State} (h : buildAndEncode P s = .next t) :
    t.pb = s.pb ∧ t.plen = s.plen := by
  obtain ⟨e, -, he, -⟩ | ⟨b, he, -⟩ := buildAndEncode_congr P (s := s) (t := s) rfl rfl <;>
    obtain rfl := Host.Outcome.next.inj (he.symm.trans h)
  · exact ⟨rfl, rfl⟩
  · exact ⟨rfl, rfl⟩

/-! ### The statements -/

/-- Settles O18: the outcomes of a node read, and what R36 (b) says of the two kinds of nodes. -/
theorem rdnkReadsKindAndSymbol : Obligations.RdnkReadsKindAndSymbol := by
  obtain ⟨hnone, hge, hlt⟩ := readNode_outcomes kindSymData_toNat
  refine ⟨decode_eq_command_iff_of_wordX (f := .rdnk) (op := 0x30#8) (fun _ => rfl) (fun _ => rfl), hnone, hge, hlt,
    fun s x hs ht hi hx => ?_, fun s x hs ht hx => ?_⟩
  · obtain ⟨hk, hsym⟩ := (hs.tree ht).internal x hi hx
    exact (hlt s x ht hx).trans (by rw [hk, hsym]; rfl)
  · obtain ⟨hk, -⟩ := (hs.tree ht).leaf x hx
    have hread := hlt s x ht (lt_nnode_of_lt_nsym (hs.tree ht) hx)
    rwa [hk, kindNat, Nat.zero_mul, Nat.zero_add] at hread

/-- Settles O19: the outcomes of a node read; right after a BUILD the root's frequency is that of `BuildOf.freq_at_root`. -/
theorem rdnfReadsTheFrequency : Obligations.RdnfReadsTheFrequency := by
  obtain ⟨hnone, hge, hlt⟩ := readNode_outcomes (f := fun v => v.freq.setWidth 28) fun _ =>
    BitVec.toNat_setWidth_of_le (by decide)
  refine ⟨decode_eq_command_iff_of_wordX (f := .rdnf) (op := 0x31#8) (fun _ => rfl) (fun _ => rfl), hnone, hge, hlt,
    fun s t r hs h hr h0 => ?_⟩
  obtain ⟨b, hb, rfl⟩ := exec_build_of_ok hs h hr h0
  rw [← hb.freq_at_root]
  exact hlt (respond _ _ (commitBuild b s)) b.root.toNat rfl hb.root_lt_nnode

/-- Settles O20: the outcomes of a node read, and the filler of a Leaf (R25). -/
theorem rdnlReadsTheLeftChild : Obligations.RdnlReadsTheLeftChild := by
  obtain ⟨hnone, hge, hlt⟩ := readNode_outcomes (f := fun v => v.left.setWidth 28) fun _ =>
    BitVec.toNat_setWidth_of_le (by decide)
  refine ⟨decode_eq_command_iff_of_wordX (f := .rdnl) (op := 0x32#8) (fun _ => rfl) (fun _ => rfl), hnone, hge, hlt,
    fun s x hs ht hx => ?_⟩
  obtain ⟨-, hleft, -⟩ := (hs.tree ht).leaf x hx
  exact (hlt s x ht (lt_nnode_of_lt_nsym (hs.tree ht) hx)).trans (by rw [hleft]; rfl)

/-- Settles O21: the outcomes of a node read, and the filler of a Leaf (R25). -/
theorem rdnrReadsTheRightChild : Obligations.RdnrReadsTheRightChild := by
  obtain ⟨hnone, hge, hlt⟩ := readNode_outcomes (f := fun v => v.right.setWidth 28) fun _ =>
    BitVec.toNat_setWidth_of_le (by decide)
  refine ⟨decode_eq_command_iff_of_wordX (f := .rdnr) (op := 0x33#8) (fun _ => rfl) (fun _ => rfl), hnone, hge, hlt,
    fun s x hs ht hx => ?_⟩
  obtain ⟨-, -, hright⟩ := (hs.tree ht).leaf x hx
  exact (hlt s x ht (lt_nnode_of_lt_nsym (hs.tree ht) hx)).trans (by rw [hright]; rfl)

/-- Settles O22, rule by rule: the component of the key that decides. -/
theorem comparatorRules : Obligations.ComparatorRules := by
  refine fun a x y => ⟨fun hf => ?_, fun hf hx hxs hy => ?_, fun hf hx hy hxs hys hlt => ?_, fun hf hx hy => ?_,
    fun hf hx hy hlt => ?_⟩ <;> apply higherPriority_only
  · exact higherPriority_of_freq_lt hf
  · have hcat : (keyOf a x).cat = 0 := by rw [keyOf_of_leaf hx, if_pos hxs]
    exact higherPriority_of_freq_eq hf (Or.inl (hcat ▸ keyOf_cat_pos hy))
  · apply higherPriority_of_freq_eq hf
    rw [keyOf_of_leaf hx, keyOf_of_leaf hy, if_neg hxs, if_neg hys]
    exact Or.inr ⟨rfl, hlt⟩
  · apply higherPriority_of_freq_eq hf
    rw [keyOf_of_leaf hx, keyOf_of_internal hy]
    left
    dsimp only
    split <;> decide
  · apply higherPriority_of_freq_eq hf
    rw [keyOf_of_internal hx, keyOf_of_internal hy]
    exact Or.inr ⟨rfl, hlt⟩

/-- Settles O23: keys are ordered strictly and totally, and different nodes have different keys (`keyOf_ne`). -/
theorem comparatorIsAStrictTotalOrder : Obligations.ComparatorIsAStrictTotalOrder := by
  refine fun a n hleaf hint hsym => ⟨fun x _ => keyLt_irrefl _, fun x hx y hy hne => ?_,
    fun _ _ _ _ _ _ hxy hyz => keyLt_trans hxy hyz⟩
  exact (keyLt_total (keyOf_ne hleaf hint hsym hx hy hne)).imp higherPriority_only higherPriority_only

/-- Settles O34: the merge that made the node removed its left child first. -/
theorem leftChildHasHigherPriority : Obligations.LeftChildHasHigherPriority := by
  intro s t r hs h hr h0 i hi hl
  obtain ⟨b, hb, rfl⟩ := exec_build_of_ok hs h hr h0
  have hfirst := left_higherPriority_right hb.merge.merges hi (hb.size ▸ hl)
  exact ⟨hfirst, freq_le_of_higherPriority hfirst⟩

/-- Settles O35: R111 (a) to (g), from the shape of the tree that BUILD commits and the order of its merges. -/
theorem theBuiltTree : Obligations.TheBuiltTree := by
  intro P hP s t r hlen h hr h0
  obtain ⟨b, hb, rfl⟩ := built_of_ok hP hlen h hr h0
  have hshape := hb.shape
  have hsize := hb.size
  have hroot := hb.root
  have hin : ∀ {i}, i < 2 * b.n - 1 → i < b.nodes.length := fun hi => by omega
  refine ⟨hb.n_eq, rfl, hsize, fun i hi => hshape.leaf_iff (hin hi), ?_, hb.freq_at_root,
    fun i hi hl => hshape.child_lt i hi (hin hl), fun v hv => ?_,
    fun i hi hl => freq_mono hb.merge.merges hshape hi (Nat.lt_succ_self i) (hin hl), fun i hi => ?_⟩
  · show b.root.toNat = 2 * b.n - 2
    omega
  · show (childList b.nodes).count v = if v = b.root.toNat then 0 else 1
    rw [hroot]
    exact hshape.owned v (hin hv)
  · show ∃ p, follow b.nodes b.root.toNat p = some i ∧ p.length ≤ b.n - 1 ∧
      ∀ q, follow b.nodes b.root.toNat q = some i → q = p
    rw [hroot]
    exact hshape.exists_unique_path hi

/-- Settles O37: the first BUILD left the phrase as it was, and what BUILD commits depends on the phrase alone. -/
theorem buildTwiceGivesTheSame : Obligations.BuildTwiceGivesTheSame := by
  intro s t h
  obtain ⟨hpb, hplen⟩ := buildAndEncode_keeps_phrase h
  obtain ⟨e, -, hs, ht⟩ | ⟨b, hs, ht⟩ := buildAndEncode_congr Config.defaults hpb hplen
  · exact ⟨_, ht, rfl, rfl, rfl, rfl, rfl, rfl, rfl, rfl⟩
  · obtain rfl := Host.Outcome.next.inj (hs.symm.trans h)
    exact ⟨_, ht, rfl, rfl, rfl, rfl, rfl, rfl, rfl, rfl⟩

/-- Settles O38: both BUILDs commit a Huffman code, and `BuildOf.codes_perm` compares the two. -/
theorem codesDependOnTheCountsAlone : Obligations.CodesDependOnTheCountsAlone := by
  rintro s₁ s₂ t₁ t₂ hs₁ hs₂ hperm h₁ h₂ ⟨r₁, hr₁, h0₁⟩ ⟨r₂, hr₂, h0₂⟩ i hi
  obtain ⟨x, hx, rfl⟩ := exec_build_of_ok hs₁ h₁ hr₁ h0₁
  obtain ⟨y, hy, rfl⟩ := exec_build_of_ok hs₂ h₂ hr₂ h0₂
  obtain ⟨j, hj, hsym, hbits⟩ := hx.codes_perm hy hperm i hi
  refine ⟨j, hj, hsym, ?_⟩
  show codeBits j (cell freeCode y.codes j) = codeBits i (cell freeCode x.codes i)
  rw [hy.codeBits_eq hj, hx.codeBits_eq hi, hbits]

end Sys2Proof.Machine
end

section
/-! PROOFS. The statements of 42_code_table_generator.md: the reads of code entries (R125 to R127), the lookup of a symbol
(R128), and the codes that BUILD leaves (R123).  The lengths of codes are shown once for every good tree of the shape of
R36, and serve both the reads of a good state and the table of a BUILD. -/

namespace Sys2Proof

/-- The words of a command of format K: its opcode, an entry index and a bit position that fit their fields
(30_encoding.md R71, R72). -/
theorem decode_eq_command_iff_of_wordK {f : Nat → Nat → Instr} {op : BitVec 8}
    (hf : ∀ e k, (f e k).wellFormed = (entryFits e && bitPosFits k)) (he : ∀ e k, encode (f e k) = wordK op e k)
    (w : Word) (e k : Nat) : decode w = .command (f e k) ↔
      e < 2 ^ 12 ∧ k < 2 ^ 12 ∧ w.toNat = op.toNat * 2 ^ 24 + e * 2 ^ 12 + k := by
  have hfits : (f e k).wellFormed = true ↔ e < 2 ^ 12 ∧ k < 2 ^ 12 := by
    rw [hf, entryFits, bitPosFits, Bool.and_eq_true, decide_eq_true_iff, decide_eq_true_iff]
  constructor
  · intro h
    obtain ⟨hel, hkl⟩ := hfits.1 (decode_wellFormed h)
    exact ⟨hel, hkl, by rw [← encode_of_decode h, he, wordK_toNat op hel hkl]⟩
  · rintro ⟨hel, hkl, hw⟩
    rw [decode_eq_command_iff (hfits.2 ⟨hel, hkl⟩), he, ← BitVec.toNat_inj, wordK_toNat op hel hkl, hw]

end Sys2Proof

namespace Sys2Proof.Machine

open Sys2Proof.Safety

/-! ### The reads of an entry (R125 to R127) -/

/-- The outcomes of an entry read whose data, as a number, is `g` of the entry. -/
theorem readEntry_outcomes {f : Code → Data} {g : Code → Nat} (hg : ∀ r, (f r).toNat = g r) :
    (∀ (s : State) (x : Nat), s.tvalid = false → readEntry x f s = .next (given 0x20000000#32 s)) ∧
    (∀ (s : State) (x : Nat), s.tvalid = true → s.nsym ≤ x → readEntry x f s = .next (given 0x60000000#32 s)) ∧
    (∀ (s : State) (x : Nat), s.tvalid = true → x < s.nsym →
      readEntry x f s = .next (given (BitVec.ofNat 32 (g (ctAt s x))) s)) := by
  refine ⟨fun s x ht => ?_, fun s x ht hx => ?_, fun s x ht hx => ?_⟩
  · exact (readEntry_noTree ht x f).trans (fail_given .enotree s)
  · exact (readEntry_ge ht hx f).trans (fail_given .eidx s)
  · rw [readEntry_lt ht hx, answer_given, hg]

theorem execRdcb_noTree {s : State} (h : s.tvalid = false) (e k : Nat) : execRdcb e k s = fail .enotree s :=
  withTree_none h _

theorem execRdcb_outside {s : State} {e k : Nat} (h : s.tvalid = true) (hek : s.nsym ≤ e ∨ (ctAt s e).len.toNat ≤ k) :
    execRdcb e k s = fail .eidx s := by
  rw [execRdcb, withTree_held h]
  rcases Nat.lt_or_ge e s.nsym with he | he
  · rw [withIndex_lt he, withIndex_ge (hek.resolve_left (Nat.not_le.2 he))]
  · rw [withIndex_ge he]

theorem execRdcb_inside {s : State} {e k : Nat} (h : s.tvalid = true) (he : e < s.nsym) (hk : k < (ctAt s e).len.toNat) :
    execRdcb e k s = answer .ok (dataOfNat (bitNat (codeBit e (ctAt s e) k))) s := by
  rw [execRdcb, withTree_held h, withIndex_lt he, withIndex_lt hk]

@[simp] theorem codeAt_length (s : State) (i : Nat) : (codeAt s i).length = (ctAt s i).len.toNat := cells_length _ _ _

/-- Bit `k` of an entry is bit `k` of the code that the entry holds (R26). -/
theorem codeAt_getElem? {s : State} {e k : Nat} (hk : k < (ctAt s e).len.toNat) :
    (codeAt s e)[k]? = some (codeBit e (ctAt s e) k) :=
  List.getElem?_eq_some_iff.2 ⟨by rwa [codeAt_length], cells_getElem (freeCodeBit e) (ctAt s e).bits hk⟩

/-! ### Looking a symbol up (R128) -/

theorem entryOf_eq_none {s : State} {c : Symbol} (h : ∀ i < s.nsym, (ctAt s i).sym ≠ c) : entryOf s c = none := by
  refine entryFrom_none.2 fun r hr => ?_
  obtain ⟨i, hi, rfl⟩ := List.getElem_of_mem hr
  rw [cells_length] at hi
  rw [cells_getElem freeCode s.ct hi]
  exact h i hi

/-- Different entries of a good tree have different symbols (R36 (c), (h)). -/
theorem treeInv_entry_unique {P : Config.Params} {s : State} (h : TreeInv P s) {i j : Nat} (hi : i < s.nsym)
    (hj : j < s.nsym) (he : (ctAt s i).sym = (ctAt s j).sym) : i = j := by
  rw [h.code_sym i hi, h.code_sym j hj] at he
  rcases Nat.lt_trichotomy i j with hlt | heq | hlt
  · exact absurd he (h.sym_ne i j hlt hj)
  · exact heq
  · exact absurd he.symm (h.sym_ne j i hlt hi)

theorem entryOf_ctAt {P : Config.Params} {s : State} (h : TreeInv P s) {i : Nat} (hi : i < s.nsym) :
    entryOf s (ctAt s i).sym = some i := by
  have hcell : ∀ {j} (hj : j < (cells freeCode s.ct s.nsym).length),
      j < s.nsym ∧ (cells freeCode s.ct s.nsym)[j] = ctAt s j := fun hj =>
    have hjn := by rwa [cells_length] at hj
    ⟨hjn, cells_getElem freeCode s.ct hjn⟩
  have hil : i < (cells freeCode s.ct s.nsym).length := by rwa [cells_length]
  rw [← (hcell hil).2]
  refine entryFrom_eq (fun j k hj hk he => ?_) hil
  rw [(hcell hj).2, (hcell hk).2] at he
  exact treeInv_entry_unique h (hcell hj).1 (hcell hk).1 he

theorem execLkup_of_some {s : State} {c : Symbol} {i : Nat} (h : s.tvalid = true) (hi : entryOf s c = some i) :
    execLkup c s = answer .ok (dataOfNat i) s := by
  rw [execLkup, withTree_held h, hi]

theorem execLkup_of_none {s : State} {c : Symbol} (h : s.tvalid = true) (hc : entryOf s c = none) :
    execLkup c s = fail .enosym s := by
  rw [execLkup, withTree_held h, hc]

/-! ### The lengths of codes (R123) -/

/-- In a tree with at least two Leaves the path to a Leaf is not empty and has at most n − 1 steps. -/
theorem TreeShape.path_length_bounds {n : Nat} {a : List Node} (h : TreeShape n a) (hn : n ≠ 1) {i : Nat} (hi : i < n)
    {p : List Bit} (hp : follow a (a.length - 1) p = some i) : 1 ≤ p.length ∧ p.length ≤ n - 1 := by
  obtain ⟨q, -, hq, huniq⟩ := h.exists_unique_path hi
  refine ⟨List.length_pos_iff.2 ?_, huniq p hp ▸ hq⟩
  rintro rfl
  have hroot : a.length - 1 = i := Option.some.inj hp
  have hsize := h.size
  omega

section
variable {P : Config.Params} {s : State}

/-- The code of an entry leads from the last node, the root, to the entry's Leaf (R36 (a), (h)). -/
theorem treeInv_code_path (h : TreeInv P s) (hs : TreeShape s.nsym s.node) (hn : s.nsym ≠ 1) {i : Nat} (hi : i < s.nsym) :
    follow s.node (s.node.length - 1) (codeAt s i) = some i := by
  rw [hs.size, ← h.nnode_eq, ← h.root_eq]
  exact h.code_path hn i hi

/-- Every code has at least one bit and at most max(1, n − 1) (R123 (a), (b)). -/
theorem treeInv_code_length (h : TreeInv P s) (hs : TreeShape s.nsym s.node) {i : Nat} (hi : i < s.nsym) :
    1 ≤ (ctAt s i).len.toNat ∧ (ctAt s i).len.toNat ≤ max 1 (s.nsym - 1) := by
  rw [← codeAt_length]
  by_cases hn : s.nsym = 1
  · obtain rfl : i = 0 := by omega
    rw [h.code_single hn]
    exact ⟨le_rfl, le_max_left _ _⟩
  · obtain ⟨hpos, hle⟩ := hs.path_length_bounds hn hi (treeInv_code_path h hs hn hi)
    exact ⟨hpos, le_max_of_le_right hle⟩

/-- With at least two symbols the length of a code is the depth of its Leaf. -/
theorem treeInv_code_depth (h : TreeInv P s) (hs : TreeShape s.nsym s.node) (hn : s.nsym ≠ 1) {i : Nat} (hi : i < s.nsym) :
    (ctAt s i).len.toNat = depthOf s.node i := by
  have hle := hs.n_le
  have hpath := hs.pathTo_follow s.node.length i (by omega) (by omega)
  rw [← codeAt_length, hs.follow_unique _ _ _ (treeInv_code_path h hs hn hi) hpath, depthOf]

/-- The code of two or more symbols is complete (R123 (d)). -/
theorem treeInv_kraft (h : TreeInv P s) (hs : TreeShape s.nsym s.node) (hn : s.nsym ≠ 1) :
    ((List.range s.nsym).map (fun i => (1 / 2 : ℚ) ^ (ctAt s i).len.toNat)).sum = 1 := by
  refine (congrArg List.sum (List.map_congr_left fun i hi => ?_)).trans hs.kraft
  rw [treeInv_code_depth h hs hn (List.mem_range.1 hi)]

/-- Where the merge loop made the tree, a more frequent symbol has no longer a code (R123 (e)). -/
theorem treeInv_code_mono (h : TreeInv P s) (hs : TreeShape s.nsym s.node) (hm : MergesOf s.nsym s.node) {i j : Nat}
    (hi : i < s.nsym) (hj : j < s.nsym) (hf : (nodeAt s j).freq.toNat < (nodeAt s i).freq.toNat) :
    (ctAt s i).len.toNat ≤ (ctAt s j).len.toNat := by
  have hn : s.nsym ≠ 1 := by
    intro h1
    obtain rfl : i = j := by omega
    exact Nat.lt_irrefl _ hf
  rw [← codeAt_length, ← codeAt_length]
  exact length_le_of_freq_lt hm hs hn hi hj (treeInv_code_path h hs hn hi) (treeInv_code_path h hs hn hj) hf

end

/-- A BUILD that answers OK leaves a good tree, of the shape of R111 and made by merges (43_encoder.md R137). -/
theorem goodTree_of_ok {P : Config.Params} (hP : P.Admissible) {s t : State} {r : Word} (hlen : s.plen ≤ P.pmax)
    (h : buildAndEncode P s = .next t) (hr : t.rsps = s.rsps ++ [r]) (h0 : statusOf r = 0) :
    TreeInv P t ∧ TreeShape t.nsym t.node ∧ MergesOf t.nsym t.node := by
  obtain ⟨⟨-, hsym⟩, ⟨-, hmax⟩, -⟩ := hP
  obtain rfl | rfl | ⟨b, hb, hn, -, rfl⟩ := buildAndEncode_inv hsym (by omega) h
  · exact absurd h0 (statusOf_ne_zero_of_error (by decide) hr)
  · exact absurd h0 (statusOf_ne_zero_of_error (by decide) hr)
  · exact ⟨treeInv_congr (hb.treeInv (s := s) hn) rfl rfl rfl rfl rfl rfl, hb.shape, hb.merge.merges⟩

/-! ### The statements -/

/-- Settles O24: the outcomes of an entry read, and that entry and Leaf have the same symbol (R36 (h)). -/
theorem rdcsReadsTheSymbol : Obligations.RdcsReadsTheSymbol := by
  obtain ⟨hnone, hge, hlt⟩ := readEntry_outcomes (f := fun r => r.sym.setWidth 28) fun _ =>
    BitVec.toNat_setWidth_of_le (by decide)
  refine ⟨decode_eq_command_iff_of_wordX (f := .rdcs) (op := 0x40#8) (fun _ => rfl) (fun _ => rfl), hnone, hge, hlt,
    fun s x hs ht hx => ?_⟩
  rw [← (hs.tree ht).code_sym x hx]
  exact hlt s x ht hx

/-- Settles O25: the outcomes of an entry read, and the bounds of `treeInv_code_length`, which meet for one symbol. -/
theorem rdclReadsTheLength : Obligations.RdclReadsTheLength := by
  obtain ⟨hnone, hge, hlt⟩ := readEntry_outcomes (f := fun r => r.len.setWidth 28) fun _ =>
    BitVec.toNat_setWidth_of_le (by decide)
  have hlen : ∀ (s : State) (x : Nat), Inv Config.defaults s → s.tvalid = true → x < s.nsym →
      1 ≤ (ctAt s x).len.toNat ∧ (ctAt s x).len.toNat ≤ max 1 (s.nsym - 1) := fun s x hs ht hx =>
    treeInv_code_length (hs.tree ht) (treeInv_shape (hs.tree ht) hs.wf) hx
  refine ⟨decode_eq_command_iff_of_wordX (f := .rdcl) (op := 0x41#8) (fun _ => rfl) (fun _ => rfl), hnone, hge, hlt,
    hlen, fun s hs ht h1 => ?_⟩
  have hx : 0 < s.nsym := by omega
  have hone : (ctAt s 0).len.toNat = 1 := by
    have hbounds := hlen s 0 hs ht hx
    omega
  exact (hlt s 0 ht hx).trans (by rw [hone])

/-- Settles O26: the checks of RDCB in their order, then the bit of the code. -/
theorem rdcbReadsOneBitOfACode : Obligations.RdcbReadsOneBitOfACode := by
  refine ⟨decode_eq_command_iff_of_wordK (f := .rdcb) (op := 0x42#8) (fun _ _ => rfl) (fun _ _ => rfl),
    fun s e k ht => ?_, fun s e k ht hek => ?_, fun s e k ht he hk => ⟨_, codeAt_getElem? hk, ?_⟩⟩
  · exact (execRdcb_noTree ht e k).trans (fail_given .enotree s)
  · exact (execRdcb_outside ht hek).trans (fail_given .eidx s)
  · have hbit : bitNat (codeBit e (ctAt s e) k) < 2 ^ 28 := by unfold bitNat; split <;> decide
    exact (execRdcb_inside ht he hk).trans (answer_nat hbit s)

/-- Settles O27: what the lookup finds, where no entry has the symbol and where one of a good tree has it. -/
theorem lkupFindsTheEntry : Obligations.LkupFindsTheEntry := by
  refine ⟨fun w c => ?_, fun s c ht => ?_, fun s c ht hc => ?_, ?_⟩
  · exact decode_eq_command_iff_of_wordC (op := 0x43#8) rfl rfl
  · exact (withTree_none ht _).trans (fail_given .enotree s)
  · exact (execLkup_of_none ht (entryOf_eq_none hc)).trans (fail_given .enosym s)
  · rintro s _ i hs ht hi rfl
    have htree := hs.tree ht
    have hmax : s.nsym ≤ 256 := htree.nsym_le
    exact ⟨(execLkup_of_some ht (entryOf_ctAt htree hi)).trans (answer_nat (by omega) s),
      fun j hj he => treeInv_entry_unique htree hj hi he⟩

/-- Settles O36: R123 (a) to (e) of the good tree that BUILD leaves. -/
theorem theBuiltCodeTable : Obligations.TheBuiltCodeTable := by
  intro P hP s t r hlen h hr h0
  obtain ⟨htree, hshape, hmerges⟩ := goodTree_of_ok hP hlen h hr h0
  have hbounds : ∀ i < t.nsym, 1 ≤ (ctAt t i).len.toNat ∧ (ctAt t i).len.toNat ≤ max 1 (t.nsym - 1) := fun _ =>
    treeInv_code_length htree hshape
  refine ⟨fun i hi => ?_, htree.code_free, fun h2 => treeInv_kraft htree hshape (by omega), fun h1 => ?_,
    fun i hi j hj => treeInv_code_mono htree hshape hmerges hi hj⟩
  · obtain ⟨hpos, hle⟩ := hbounds i hi
    have hmax := htree.nsym_le
    refine ⟨codeAt_length t i, hpos, ?_, fun _ => by omega, fun _ => by omega⟩
    unfold Config.Params.codeMax
    omega
  · have hone : (ctAt t 0).len.toNat = 1 := by
      have hzero := hbounds 0 (by omega)
      omega
    rw [h1, List.range_one, List.map_singleton, List.sum_singleton, hone, pow_one]

end Sys2Proof.Machine
end

section
/-! PROOFS. The statements of 43_encoder.md: what BUILD writes and answers (R135 to R139), and the read of one bit of the
encoded output (R140).  What ENC and BUILD compute is under Sys2Proof/Laws/; the outcomes of a BUILD that the statements
share are said once here, with the response word written out. -/

namespace Sys2Proof.Machine

open Sys2Proof.Safety

/-! ### Blank phrases, character by character (R137 step 1) -/

theorem phraseOf_getElem {s : State} {j : Nat} (h : j < s.plen) :
    (phraseOf s)[j]'(by rwa [phraseOf_length]) = pbAt s j := cells_getElem _ _ h

theorem forall_mem_phraseOf (s : State) (p : Symbol → Prop) : (∀ c ∈ phraseOf s, p c) ↔ ∀ j < s.plen, p (pbAt s j) := by
  simp only [List.forall_mem_iff_forall_getElem, phraseOf_length]
  exact forall₂_congr fun j hj => by rw [phraseOf_getElem hj]

theorem blankPhrase_iff_pbAt (P : Config.Params) (s : State) :
    blankPhrase P s = true ↔ s.plen = 0 ∨ ∀ j < s.plen, P.ws (pbAt s j) = true := by
  rw [blankPhrase_iff, forall_mem_phraseOf s (P.ws · = true)]

/-- One character that is not whitespace makes a phrase that BUILD does not refuse. -/
theorem blankPhrase_eq_false {P : Config.Params} {s : State} (h : ∃ j < s.plen, P.ws (pbAt s j) = false) :
    blankPhrase P s = false := by
  obtain ⟨j, hj, hws⟩ := h
  refine Bool.eq_false_iff.2 fun hb => ?_
  obtain h0 | hall := (blankPhrase_iff_pbAt P s).1 hb
  · omega
  · exact Bool.false_ne_true (hws.symm.trans (hall j hj))

/-! ### The outcomes of BUILD, in the order of its checks (R139) -/

section
variable {P : Config.Params} {s : State}

theorem buildAndEncode_of_blank (h : s.plen = 0 ∨ ∀ j < s.plen, P.ws (pbAt s j) = true) :
    buildAndEncode P s = .next (given 0x10000000#32 s) :=
  (if_pos ((blankPhrase_iff_pbAt P s).2 h)).trans (fail_given .eempty s)

theorem buildAndEncode_of_many_symbols (hb : blankPhrase P s = false) (hd : P.nsymMax < (phraseOf s).dedup.length) :
    buildAndEncode P s = .next (given 0x50000000#32 s) := by
  obtain ⟨hb', -⟩ | ⟨-, -, he⟩ | ⟨-, ft, bits, hc, hl, -⟩ := buildAndEncode_cases P s
  · exact absurd (hb.symm.trans hb') Bool.false_ne_true
  · exact he.trans (fail_given .ecap s)
  · rw [hc.length] at hl
    omega

/-- With few enough symbols, the length of the encoding decides between ECAP and the commit. -/
theorem buildAndEncode_of_few_symbols (hP : P.Admissible) (hlen : s.plen ≤ P.pmax) (hb : blankPhrase P s = false)
    (hd : (phraseOf s).dedup.length ≤ P.nsymMax) :
    ∃ b, BuildOf (phraseOf s) b ∧
      (P.omax < b.bits.length → buildAndEncode P s = .next (given 0x50000000#32 s)) ∧
      (b.bits.length ≤ P.omax →
        buildAndEncode P s = .next (given (BitVec.ofNat 32 b.bits.length) (commitBuild b s))) := by
  obtain ⟨⟨-, hsym⟩, ⟨-, hpmax⟩, -, ⟨-, homax⟩, -⟩ := hP
  obtain ⟨b, hbuild, ⟨hlong, he⟩ | ⟨hfits, he⟩⟩ := buildAndEncode_spec hsym (by omega) hb hd
  · exact ⟨b, hbuild, fun _ => he.trans (fail_given .ecap s), fun hfits => absurd hlong (Nat.not_lt.2 hfits)⟩
  · exact ⟨b, hbuild, fun hlong => absurd hlong (Nat.not_lt.2 hfits), fun _ => he.trans (answer_nat (by omega) _)⟩

/-- A phrase within the bounds of R139 is never too long once encoded. -/
theorem buildAndEncode_of_bounds (hP : P.Admissible) (hlen : s.plen ≤ P.pmax) (hb : blankPhrase P s = false)
    (hd : (phraseOf s).dedup.length ≤ P.nsymMax) (ho : s.plen * max 1 ((phraseOf s).dedup.length - 1) ≤ P.omax) :
    ∃ b, BuildOf (phraseOf s) b ∧ b.bits.length ≤ P.omax ∧
      buildAndEncode P s = .next (given (BitVec.ofNat 32 b.bits.length) (commitBuild b s)) := by
  obtain ⟨b, hbuild, -, hcommit⟩ := buildAndEncode_of_few_symbols hP hlen hb hd
  have hfits : b.bits.length ≤ P.omax := by
    have hmax := hbuild.bits_length.2
    rw [phraseOf_length, hbuild.n_eq] at hmax
    exact hmax.trans ho
  exact ⟨b, hbuild, hfits, hcommit hfits⟩

end

/-! ### What a successful BUILD commits -/

/-- ROOT is the last of the 2n − 1 nodes (R24), and fits its 13 bits. -/
theorem BuildOf.root_eq {p : List Symbol} {b : Built} (h : BuildOf p b) : b.root = BitVec.ofNat 13 (2 * b.n - 2) := by
  have hroot := h.root
  have hsize := h.size
  have hmax := h.n_max
  apply BitVec.eq_of_toNat_eq
  rw [BitVec.toNat_ofNat, Nat.mod_eq_of_lt (by omega)]
  omega

/-- One distinct symbol is encoded in one bit a character (R137). -/
theorem BuildOf.bits_length_of_single {p : List Symbol} {b : Built} (h : BuildOf p b) (h1 : p.dedup.length = 1) :
    b.bits.length = p.length := by
  obtain ⟨hmin, hmax⟩ := h.bits_length
  rw [h.n_eq, h1, Nat.sub_self, Nat.max_zero, Nat.mul_one] at hmax
  exact Nat.le_antisymm hmax hmin

/-- The data of a short enough OK response leave its status 0 (30_encoding.md R73). -/
theorem statusOf_ofNat {n : Nat} (h : n < 2 ^ 28) : statusOf (BitVec.ofNat 32 n) = 0 := by
  rw [statusOf, BitVec.toNat_ofNat]
  omega

/-- A phrase has no more distinct symbols than characters. -/
theorem dedup_phraseOf_length_le (s : State) : (phraseOf s).dedup.length ≤ s.plen :=
  (List.dedup_sublist _).length_le.trans_eq (phraseOf_length s)

/-- A bit fits the data field of a response. -/
theorem bitNat_lt (b : Bit) : bitNat b < 2 ^ 28 := by cases b <;> decide

/-! ### The statements -/

/-- Settles O29: the outcomes of BUILD in their order; `BuildOf` describes what it commits. -/
theorem buildWritesTheHuffmanCode : Obligations.BuildWritesTheHuffmanCode := by
  refine ⟨fun _ => decode_eq_command_iff rfl, fun _ => rfl, fun P hP s hlen => ⟨buildAndEncode_of_blank,
    fun hws => buildAndEncode_of_many_symbols (blankPhrase_eq_false hws), fun hws hd => ?_⟩⟩
  obtain ⟨b, hb, hlong, hcommit⟩ := buildAndEncode_of_few_symbols hP hlen (blankPhrase_eq_false hws) hd
  refine ⟨b.nodes, b.codes, b.bits, hb.huffman, ?_, fun h1 => ?_, hlong, fun hfits => ?_⟩
  · exact phraseOf_length s ▸ hb.bits_length.1
  · exact (hb.bits_length_of_single h1).trans (phraseOf_length s)
  · rw [hcommit hfits, ← hb.n_eq, ← hb.root_eq]
    rfl

/-- Settles O30: the outcomes of BUILD in any state, of which only the commit writes more than the response. -/
theorem buildIsAllOrNothing : Obligations.BuildIsAllOrNothing := by
  intro s
  show ∃ t r, buildAndEncode Config.defaults s = .next t ∧ _
  obtain ⟨-, he⟩ | ⟨-, -, he⟩ | ⟨-, ft, bits, -, -, -, ⟨-, he⟩ | ⟨-, he⟩⟩ := buildAndEncode_cases Config.defaults s
  · exact ⟨_, _, he, rfl, Or.inl ⟨Or.inl rfl, rfl⟩⟩
  · exact ⟨_, _, he, rfl, Or.inl ⟨Or.inr rfl, rfl⟩⟩
  · exact ⟨_, _, he, rfl, Or.inl ⟨Or.inr rfl, rfl⟩⟩
  · exact ⟨_, _, he, rfl, Or.inr ⟨statusOf_responseWord .ok (dataOfNat bits.length), rfl, rfl⟩⟩

/-- Settles O31: the outcomes of BUILD in their order, and the bounds of R139 on the encoding. -/
theorem buildCapacityBounds : Obligations.BuildCapacityBounds := by
  refine fun P hP s hlen => ⟨buildAndEncode_of_blank, fun hws => ?_⟩
  have hb := blankPhrase_eq_false hws
  refine ⟨dedup_phraseOf_length_le s, buildAndEncode_of_many_symbols hb, fun hd => ?_, fun hsym ho => ?_⟩
  · obtain ⟨b, hbuild, hlong, hcommit⟩ := buildAndEncode_of_few_symbols hP hlen hb hd
    refine ⟨b.nodes, b.codes, b.bits, hbuild.huffman, ?_, hlong, fun hfits => ⟨_, hcommit hfits, rfl⟩⟩
    rw [← hbuild.n_eq, ← phraseOf_length s]
    exact hbuild.bits_length.2
  · obtain ⟨b, -, hfits, he⟩ := buildAndEncode_of_bounds hP hlen hb ((dedup_phraseOf_length_le s).trans hsym) ho
    obtain ⟨-, -, -, ⟨-, homax⟩, -⟩ := hP
    exact ⟨_, _, he, rfl, statusOf_ofNat (by omega)⟩

/-- Settles O32: within the bounds of R139 BUILD commits, and `BuildOf` describes the tree that it leaves. -/
theorem buildCompletes : Obligations.BuildCompletes := by
  intro s hs hws hd ho
  obtain ⟨b, hb, -, he⟩ :=
    buildAndEncode_of_bounds defaults_admissible hs.plen_le (blankPhrase_eq_false (P := Config.defaults) hws) hd ho
  refine ⟨_, he, rfl, rfl, hb.huffman, hb.n_eq, rfl, ?_, hb.freq_at_root, ?_⟩
  · exact hb.root.trans (congrArg (· - 1) hb.size)
  · exact phraseOf_length s ▸ hb.bits_length.1

/-- Settles O33: BUILD ends in a next state, since every character of the phrase has an entry (`codeTable_covers`). -/
theorem encoderAlwaysFindsAnEntry : Obligations.EncoderAlwaysFindsAnEntry := by
  intro P s
  obtain ⟨t, ht⟩ := buildAndEncode_next P s
  exact ⟨ht ▸ nofun, t, ht⟩

/-- Settles O39: the one check of RDOB, which with no tree always fails, then the bit. -/
theorem rdobReadsOneBitOfTheOutput : Obligations.RdobReadsOneBitOfTheOutput := by
  have hge : ∀ (s : State) (x : Nat), s.olen ≤ x → exec (.rdob x) s = .next (given 0x60000000#32 s) :=
    fun s x hx => (withIndex_ge hx s _).trans (fail_given .eidx s)
  refine ⟨decode_eq_command_iff_of_wordX (f := .rdob) (op := 0x50#8) (fun _ => rfl) (fun _ => rfl), hge,
    fun s x hx => ?_, fun s x hs ht => hge s x ?_⟩
  · exact (withIndex_lt hx s _).trans (answer_nat (bitNat_lt _) s)
  · obtain ⟨-, -, -, holen, -⟩ := hs.noTree ht
    omega

end Sys2Proof.Machine
end

section
/-! PROOFS. The statements of 44_decoder.md: the decode input buffer (R159, R160), DECODE (R150 to R158, R161), the
round trip of BUILD and DECODE (R163), and the read of one decoded character (R162).  What the walk computes is under
Sys2Proof/Laws/. -/

namespace Sys2Proof.Machine

open Sys2Proof.Safety

/-! ### IB after BCLR and BPUT (R159, R160) -/

theorem inputOf_clearIb (s : State) : inputOf (clearIb s) = [] := cells_self _ _ rfl

theorem ibAt_appendIb_ilen (c : Symbol) (s : State) : ibAt (appendIb c s) s.ilen = c := by
  simpa [ibAt] using cell_append_length (freeSymbol .ib) (inputOf s) c

theorem ibAt_appendIb_of_lt (c : Symbol) {s : State} {j : Nat} (h : j < s.ilen) : ibAt (appendIb c s) j = ibAt s j :=
  cell_append_cells _ _ _ _ h

/-! ### The validation of the input, character by character (R152) -/

theorem inputOf_getElem {s : State} {j : Nat} (h : j < s.ilen) :
    (inputOf s)[j]'(by rwa [inputOf_length]) = ibAt s j := cells_getElem _ _ h

theorem forall_mem_inputOf (s : State) (p : Symbol → Prop) : (∀ c ∈ inputOf s, p c) ↔ ∀ j < s.ilen, p (ibAt s j) := by
  simp only [List.forall_mem_iff_forall_getElem, inputOf_length]
  exact forall₂_congr fun j hj => by rw [inputOf_getElem hj]

theorem inputOf_valid_iff (s : State) :
    (inputOf s).all validBitChar = true ↔ ∀ j < s.ilen, ibAt s j = Config.ch0 ∨ ibAt s j = Config.ch1 := by
  rw [List.all_eq_true, forall_mem_inputOf s (validBitChar · = true)]
  simp only [validBitChar_iff]

theorem inputOf_invalid {s : State} (h : ∃ j < s.ilen, ibAt s j ≠ Config.ch0 ∧ ibAt s j ≠ Config.ch1) :
    (inputOf s).all validBitChar = false := by
  obtain ⟨j, hj, h0, h1⟩ := h
  exact Bool.eq_false_iff.2 fun hv => ((inputOf_valid_iff s).1 hv j hj).elim h0 h1

/-- The bit of a valid character says whether it is CH1 (R152). -/
theorem bitOf_eq_decide {c : Symbol} (h : validBitChar c = true) : bitOf c = decide (c = Config.ch1) := by
  obtain rfl | rfl := (validBitChar_iff c).1 h <;> rfl

/-! ### The outcomes of DECODE on valid input, with the response word written out (R161) -/

theorem answerDecoded_given {t : List Symbol} (h : t.length < 2 ^ 28) (v : Bool) (s : State) :
    answerDecoded t v s = .next (given (BitVec.ofNat 32 t.length) (setDecoded t v s)) := answer_nat h _

section
variable {s : State}

/-- A single Leaf: one copy of its symbol for every character of the input (R153). -/
theorem execDecode_leaf_given (ht : s.tvalid = true) (hl : s.ilen ≤ Config.defaults.imax)
    (hv : (inputOf s).all validBitChar = true) (hk : (nodeAt s s.root.toNat).kind = .leaf) :
    execDecode s = .next (given (BitVec.ofNat 32 s.ilen)
      (setDecoded (List.replicate s.ilen (nodeAt s s.root.toNat).sym) false s)) := by
  have hlen : (List.replicate s.ilen (nodeAt s s.root.toNat).sym).length < 2 ^ 28 := by
    rw [List.length_replicate]
    exact hl.trans_lt (by decide)
  rw [execDecode_leaf ht hv hk, answerDecoded_given hlen, List.length_replicate]

/-- An Internal root: the text of the walk (R154). -/
theorem execDecode_walk_given {t : List Symbol} {cur : NodeIdx} (ht : s.tvalid = true) (hl : s.ilen ≤ Config.defaults.imax)
    (hv : (inputOf s).all validBitChar = true) (hk : (nodeAt s s.root.toNat).kind = .internal)
    (hw : walk s.node s.root s.root (inputOf s) = some (t, cur)) :
    execDecode s = .next (given (BitVec.ofNat 32 t.length) (setDecoded t (decide (cur ≠ s.root)) s)) := by
  have hle : t.length ≤ s.ilen := inputOf_length s ▸ walk_length_le _ _ _ _ hw
  rw [execDecode_some ht hv hk hw, answerDecoded_given ((hle.trans hl).trans_lt (by decide))]

/-- Of an empty input nothing is decoded, whatever the tree (R155). -/
theorem execDecode_empty (ht : s.tvalid = true) (h0 : s.ilen = 0) :
    execDecode s = .next (given 0x00000000#32 (setDecoded [] false s)) := by
  have hin : inputOf s = [] := List.eq_nil_of_length_eq_zero ((inputOf_length s).trans h0)
  have hv : (inputOf s).all validBitChar = true := by rw [hin]; rfl
  cases hk : (nodeAt s s.root.toNat).kind with
  | leaf =>
    rw [execDecode_leaf ht hv hk, h0, List.replicate_zero]
    exact answerDecoded_given (by decide) false s
  | internal =>
    have hw : walk s.node s.root s.root (inputOf s) = some ([], s.root) := by rw [hin]; rfl
    rw [execDecode_some ht hv hk hw, decide_eq_false (not_not_intro rfl)]
    exact answerDecoded_given (by decide) false s

end

/-- A DECODE that fails from a good state leaves no decoded text (R158). -/
theorem tlen_of_failed_decode {s t : State} {r : Word} (hs : Inv Config.defaults s) (h : exec .decode s = .next t)
    (hr : t.rsps = s.rsps ++ [r]) (hne : statusOf r ≠ 0) : t.tlen = 0 := by
  obtain ⟨ht, he⟩ | ⟨-, he | he⟩ | ⟨-, u, v, -, he⟩ := execDecode_cases s <;>
    obtain rfl := Host.Outcome.next.inj (he.symm.trans h)
  · obtain ⟨-, -, -, -, htlen, -⟩ := hs.noTree ht
    exact htlen
  · rfl
  · rfl
  · obtain rfl : responseWord .ok (dataOfNat u.length) = r := by simpa using hr
    exact absurd (statusOf_responseWord .ok _) hne

/-! ### The codes of a good tree (R154, R156) -/

section
variable {P : Config.Params} {s : State}

/-- The code that the table of a good tree gives the symbol of an entry is the entry's. -/
theorem codeIn_ctAt (h : TreeInv P s) (hw : Memory.wf s = true) {i : Nat} (hi : i < s.nsym) :
    codeIn s.ct (ctAt s i).sym = codeAt s i := by
  obtain ⟨-, -, -, hct, -⟩ := (memory_wf_iff s).1 hw
  have hent : entryFrom (ctAt s i).sym 0 s.ct = some i := by
    rw [← entryOf_ctAt h hi, entryOf, cells_self _ _ hct]
  rw [codeIn, hent]
  rfl

/-- The walk from the root of a good tree with at least two Leaves (R154, R156): the input is the codes of the text, and
then bits that lead to the Internal node where the walk ends, none exactly when that is the root. -/
theorem treeInv_walk (h : TreeInv P s) (hw : Memory.wf s = true) (hn : 2 ≤ s.nsym) (cs : List Symbol) :
    ∃ t cur rest, walk s.node s.root s.root cs = some (t, cur) ∧ (∀ c ∈ t, ∃ i < s.nsym, (ctAt s i).sym = c) ∧
      cs.map bitOf = t.flatMap (codeIn s.ct) ++ rest ∧ follow s.node s.root.toNat rest = some cur.toNat ∧
      (nodeAt s cur.toNat).kind = .internal ∧ (cur = s.root ↔ rest = []) := by
  have hshape := treeInv_shape h hw
  have hroot := treeInv_root h hw
  have hsize := hshape.size
  have hcode : ∀ i < s.nsym, follow s.node s.root.toNat (codeIn s.ct (nodeOf s.node i).sym) = some i := fun i hi => by
    rw [show (nodeOf s.node i).sym = (ctAt s i).sym from (h.code_sym i hi).symm, codeIn_ctAt h hw hi]
    exact h.code_path (by omega) i hi
  obtain ⟨t, cur, rest, hwalk, ht, hbits, hf, hcur⟩ :=
    walk_spec hshape hroot hn hcode cs s.root [] rfl (by omega)
  refine ⟨t, cur, rest, hwalk, fun c hc => ?_, hbits, hf, ?_, fun he => ?_, fun he => ?_⟩
  · obtain ⟨i, hi, rfl⟩ := ht c hc
    exact ⟨i, hi, h.code_sym i hi⟩
  · exact hshape.internal _ hcur (hshape.follow_lt rest _ _ (by omega) hf)
  · rw [he, hroot] at hf
    exact hshape.follow_unique rest [] _ hf rfl
  · rw [he] at hf
    exact (BitVec.eq_of_toNat_eq (Option.some.inj hf)).symm

end

/-! ### DECODE on the encoding that BUILD made (R163) -/

/-- With at least two symbols the walk over the encoding gives the phrase back and ends at the root. -/
theorem BuildOf.walk_bits {p : List Symbol} {b : Built} (h : BuildOf p b) (hn : b.n ≠ 1) :
    walk b.nodes b.root b.root (b.bits.map chr) = some (p, b.root) := by
  obtain ⟨code, hcode, he⟩ := h.huffman.encoding
  have hleaves : LeavesOf p b.n b.nodes := h.codes ▸ h.huffman.leaves
  have hcodes : CodesOf b.n b.nodes b.codes := h.codes ▸ h.huffman.codes
  rw [he]
  refine walk_codes p fun c hc => ?_
  obtain ⟨i, hi, rfl⟩ := leaves_exist hleaves hc
  rw [← hcodes.sym i hi, hcode i (h.codes.symm ▸ hi)]
  refine ⟨List.ne_nil_of_length_pos (h.code_length hi).1, i, (hleaves.leaf i hi).1, (hcodes.sym i hi).symm, ?_⟩
  rw [h.root]
  exact hcodes.path hn i hi

/-- With one symbol the root is a Leaf, and the phrase is copies of its symbol. -/
theorem BuildOf.single {p : List Symbol} {b : Built} (h : BuildOf p b) (hn : b.n = 1) :
    (nodeOf b.nodes b.root.toNat).kind = .leaf ∧ List.replicate p.length (nodeOf b.nodes b.root.toNat).sym = p := by
  have hleaves : LeavesOf p b.n b.nodes := h.codes ▸ h.huffman.leaves
  have hroot : b.root.toNat < b.n := by
    have := h.root_lt_nnode
    omega
  have hcount : p.count (nodeOf b.nodes b.root.toNat).sym = p.length := by
    rw [← hleaves.count _ hroot, h.root, h.root_freq]
  exact ⟨(hleaves.leaf _ hroot).1, hcount ▸ List.replicate_count_eq_of_count_eq_length hcount⟩

/-- DECODE on the encoding that BUILD made of a phrase, with the tree still held, gives the phrase back. -/
theorem execDecode_encoding {p : List Symbol} {b : Built} {s u : State} (h : BuildOf p b)
    (hs : SameRetained (commitBuild b u) s) (hin : inputOf s = b.bits.map chr) (hl : s.ilen ≤ Config.defaults.imax) :
    execDecode s = .next (given (BitVec.ofNat 32 p.length) (setDecoded p false s)) := by
  obtain ⟨ht, -, -, hroot, hnode, -⟩ := hs
  have hv : (inputOf s).all validBitChar = true := by
    rw [hin, List.all_map, List.all_eq_true]
    exact fun b _ => validBitChar_chr b
  have hnodeAt : nodeAt s s.root.toNat = nodeOf b.nodes b.root.toNat := by rw [nodeAt, hnode, hroot]; rfl
  by_cases hn : b.n = 1
  · obtain ⟨hk, hp⟩ := h.single hn
    have hlen : s.ilen = p.length := by
      rw [← inputOf_length, hin, List.length_map, h.bits_length_of_single (h.n_eq.symm.trans hn)]
    rw [execDecode_leaf_given ht hl hv (hnodeAt ▸ hk), hnodeAt, hlen, hp]
  · have hk : (nodeAt s s.root.toNat).kind = .internal := by
      rw [hnodeAt, h.root]
      have hsize := h.size
      have hpos := h.n_pos
      exact h.shape.internal _ (by omega) (by omega)
    have hw : walk s.node s.root s.root (inputOf s) = some (p, s.root) := by
      rw [hin, hnode, hroot]
      exact h.walk_bits hn
    rw [execDecode_walk_given ht hl hv hk hw, decide_eq_false (not_not_intro rfl)]

/-! ### Sequences of commands -/

theorem execAll_cons {i : Instr} {is : List Instr} {s t : State} (h : exec i s = .next t) :
    execAll (i :: is) s = execAll is t := by rw [execAll, h]

theorem execAll_append {is js : List Instr} {s t : State} (h : execAll is s = some t) :
    execAll (is ++ js) s = execAll js t := by
  induction is generalizing s with
  | nil => rw [← Option.some.inj h]; rfl
  | cons i is ih =>
    cases he : exec i s with
    | next u =>
      rw [execAll_cons he] at h
      rw [List.cons_append, execAll_cons he, ih h]
    | fault r => simp [execAll, he] at h
    | refused r => simp [execAll, he] at h

theorem SameRetained.trans {s t u : State} (h : SameRetained s t) (h' : SameRetained t u) : SameRetained s u := by
  obtain ⟨h1, h2, h3, h4, h5, h6, h7, h8⟩ := h
  obtain ⟨g1, g2, g3, g4, g5, g6, g7, g8⟩ := h'
  exact ⟨g1.trans h1, g2.trans h2, g3.trans h3, g4.trans h4, g5.trans h5, g6.trans h6, g7.trans h7, g8.trans h8⟩

/-! ### Loading a buffer, character by character (R94, R160) -/

/-- Below the capacity, `put c` appends `c` to the buffer and leaves the retained state as it was. -/
def Appends (put : Symbol → Instr) (buf : State → List Symbol) (cap : Nat) : Prop :=
  ∀ (c : Symbol) (s : State), (buf s).length < cap →
    ∃ t, exec (put c) s = .next t ∧ buf t = buf s ++ [c] ∧ SameRetained s t

theorem appends_pput : Appends .pput phraseOf Config.defaults.pmax := fun c s hs =>
  ⟨_, phrasePut_given defaults_admissible (phraseOf_length s ▸ hs) c, phraseOf_appendPb c s, .refl s⟩

theorem appends_bput : Appends .bput inputOf Config.defaults.imax := fun c s hs =>
  ⟨_, inputPut_given defaults_admissible (inputOf_length s ▸ hs) c, inputOf_appendIb c s, .refl s⟩

theorem exec_pclr (s : State) : exec .pclr s = .next (given 0x00000000#32 (clearPb s)) := answer_given 0#28 (clearPb s)

theorem exec_bclr (s : State) : exec .bclr s = .next (given 0x00000000#32 (clearIb s)) := answer_given 0#28 (clearIb s)

section
variable {put : Symbol → Instr} {buf : State → List Symbol} {cap : Nat}

theorem Appends.execAll_map (h : Appends put buf cap) {cs : List Symbol} {s : State}
    (hlen : (buf s).length + cs.length ≤ cap) :
    ∃ t, execAll (cs.map put) s = some t ∧ buf t = buf s ++ cs ∧ SameRetained s t := by
  induction cs generalizing s with
  | nil => exact ⟨s, rfl, (List.append_nil _).symm, .refl s⟩
  | cons c cs ih =>
    rw [List.length_cons] at hlen
    obtain ⟨t, he, hbuf, hst⟩ := h c s (by omega)
    obtain ⟨u, hrun, hbuf', htu⟩ := ih (s := t) (by rw [hbuf, List.length_append, List.length_singleton]; omega)
    refine ⟨u, (execAll_cons he).trans hrun, ?_, hst.trans htu⟩
    rw [hbuf', hbuf, List.append_assoc, List.singleton_append]

/-- Clearing the buffer and then one `put` a character load a text that fits. -/
theorem Appends.execAll_load (h : Appends put buf cap) {clr : Instr} {s u : State} (hclr : exec clr s = .next u)
    (hempty : buf u = []) {cs : List Symbol} (hcs : cs.length ≤ cap) :
    ∃ t, execAll (clr :: cs.map put) s = some t ∧ buf t = cs ∧ SameRetained u t := by
  obtain ⟨t, hrun, hbuf, hut⟩ := h.execAll_map (cs := cs) (s := u) (by rwa [hempty, List.length_nil, Nat.zero_add])
  exact ⟨t, (execAll_cons hclr).trans hrun, by rw [hbuf, hempty, List.nil_append], hut⟩

end

/-! ### BUILD, and then DECODE on its output (R163) -/

/-- BUILD of a phrase that is not whitespace-only answers ECAP, or commits and answers OLEN (R137). -/
theorem exec_build_of_text {s : State} (hlen : s.plen ≤ Config.defaults.pmax)
    (hws : ∃ c ∈ phraseOf s, Config.defaultWs c = false) :
    exec .build s = .next (given 0x50000000#32 s) ∨
    ∃ b, BuildOf (phraseOf s) b ∧ b.bits.length ≤ Config.defaults.omax ∧
      exec .build s = .next (given (BitVec.ofNat 32 b.bits.length) (commitBuild b s)) := by
  have hb : blankPhrase Config.defaults s = false := by
    obtain ⟨c, hc, hcws⟩ := hws
    obtain ⟨j, hj, rfl⟩ := List.getElem_of_mem hc
    rw [phraseOf_length] at hj
    exact blankPhrase_eq_false ⟨j, hj, phraseOf_getElem hj ▸ hcws⟩
  by_cases hd : (phraseOf s).dedup.length ≤ Config.defaults.nsymMax
  · obtain ⟨b, hbuild, hlong, hcommit⟩ := buildAndEncode_of_few_symbols defaults_admissible hlen hb hd
    rcases Nat.lt_or_ge Config.defaults.omax b.bits.length with ho | ho
    · exact Or.inl (hlong ho)
    · exact Or.inr ⟨b, hbuild, ho, hcommit ho⟩
  · exact Or.inl (buildAndEncode_of_many_symbols hb (Nat.lt_of_not_le hd))

/-- The data of a short enough OK response (30_encoding.md R73). -/
theorem dataOf_ofNat {n : Nat} (h : n < 2 ^ 28) : dataOf (BitVec.ofNat 32 n) = n := by
  rw [dataOf, BitVec.toNat_ofNat]
  omega

/-- While the tree is held, loading the encoding that BUILD made of a phrase, and DECODE, give the phrase back. -/
theorem execAll_decode_encoding {p : List Symbol} {b : Built} {s u : State} (h : BuildOf p b)
    (hs : SameRetained (commitBuild b u) s) (hl : b.bits.length ≤ Config.defaults.imax) :
    ∃ v, execAll (.bclr :: b.bits.map (fun b => .bput (chr b)) ++ [.decode]) s =
      some (given (BitVec.ofNat 32 p.length) (setDecoded p false v)) := by
  obtain ⟨v, hrun, hin, hret⟩ := appends_bput.execAll_load (exec_bclr s) (inputOf_clearIb s) (cs := b.bits.map chr)
    (by rwa [List.length_map])
  rw [List.map_map] at hrun
  have hilen : v.ilen ≤ Config.defaults.imax := by rwa [← inputOf_length, hin, List.length_map]
  have hdec : exec .decode v = .next (given (BitVec.ofNat 32 p.length) (setDecoded p false v)) :=
    execDecode_encoding h (hs.trans hret) hin hilen
  exact ⟨v, (execAll_append hrun).trans (execAll_cons hdec)⟩

/-! ### The statements -/

/-- Settles O15: the word of BCLR, then its one update, which leaves no element of IB to read. -/
theorem bclrEmptiesTheInputBuffer : Obligations.BclrEmptiesTheInputBuffer :=
  ⟨fun _ => decode_eq_command_iff rfl, fun s => ⟨_, exec_bclr s, rfl, inputOf_clearIb s⟩⟩

/-- Settles O16: the word of BPUT, then BPUT at the capacity and below it, each with the default capacity. -/
theorem bputAppendsOneCharacter : Obligations.BputAppendsOneCharacter := by
  refine ⟨fun w c => ?_, fun s c h => ?_, fun s c h => ?_⟩
  · exact decode_eq_command_iff_of_wordC (op := 0x21#8) rfl rfl
  · exact (inputPut_full h c).trans (fail_given .ecap s)
  · exact ⟨_, inputPut_given defaults_admissible h c, rfl, ibAt_appendIb_ilen c s, fun _ => ibAt_appendIb_of_lt c⟩

/-- Settles O41: the outcome of DECODE on a single Leaf. -/
theorem decodeOnASingleLeaf : Obligations.DecodeOnASingleLeaf := by
  intro s ht hl hv hk
  have he := execDecode_leaf_given ht hl ((inputOf_valid_iff s).2 hv) hk
  rwa [setDecoded, List.length_replicate] at he

/-- Settles O40, one outcome of DECODE after another. -/
theorem decodeChecksInOrder : Obligations.DecodeChecksInOrder := by
  refine ⟨fun s ht => ?_, fun s hs ht => ?_, fun s ht hbad => ?_, fun s ht hv hk hw => ?_, fun s t cur ht hl hv hk hw => ?_,
    decodeOnASingleLeaf⟩
  · exact (execDecode_noTree ht).trans (fail_given .enotree s)
  · obtain ⟨-, -, -, -, htlen, htrunc⟩ := hs.noTree ht
    exact ⟨htlen, htrunc⟩
  · exact ⟨_, (execDecode_invalid ht (inputOf_invalid hbad)).trans (fail_given .einvbin _), rfl⟩
  · exact ⟨_, (execDecode_none ht ((inputOf_valid_iff s).2 hv) hk hw).trans (fail_given .enomatch _), rfl⟩
  · exact execDecode_walk_given ht hl ((inputOf_valid_iff s).2 hv) hk hw

/-- Settles O43: the outcome of DECODE on an empty input, and ENOTREE without a tree. -/
theorem decodeOfEmptyInput : Obligations.DecodeOfEmptyInput :=
  ⟨fun _ ht h0 => ⟨_, execDecode_empty ht h0, rfl⟩,
    fun s ht _ => (execDecode_noTree ht).trans (fail_given .enotree s)⟩

/-- Settles O42: DECODE walks the tree, and `treeInv_walk` takes the input apart. -/
theorem decodeWalksTheTree : Obligations.DecodeWalksTheTree := by
  intro s hs ht hn hv
  have htree := hs.tree ht
  have hvalid := (inputOf_valid_iff s).2 hv
  have hk : (nodeAt s s.root.toNat).kind = .internal := by
    have hroot := htree.root_eq
    have hnnode := htree.nnode_eq
    exact (htree.internal _ (by omega) (by omega)).1
  have hbit : (inputOf s).map (fun ch => decide (ch = Config.ch1)) = (inputOf s).map bitOf :=
    List.map_congr_left fun c hc => (bitOf_eq_decide (List.all_eq_true.1 hvalid c hc)).symm
  obtain ⟨t, cur, rest, hw, hsyms, hbits, hf, hcur, hend⟩ := treeInv_walk htree hs.wf hn (inputOf s)
  refine ⟨t, rest, codeIn s.ct, fun i => codeIn_ctAt htree hs.wf, hsyms, hbit.trans hbits, ⟨_, hf, hcur⟩, ?_⟩
  have htrunc : decide (cur ≠ s.root) = decide (rest ≠ []) := decide_eq_decide.2 (not_congr hend)
  exact htrunc ▸ execDecode_walk_given ht hs.ilen_le hvalid hk hw

/-- Settles O45: the word of DECODE, then its outcomes in any state, of which only the text gives status OK. -/
theorem decodeFrame : Obligations.DecodeFrame := by
  refine ⟨fun _ => decode_eq_command_iff rfl, fun s => ?_⟩
  show ∃ t r, execDecode s = .next t ∧ _
  obtain ⟨-, he⟩ | ⟨-, he | he⟩ | ⟨-, t, v, hle, he⟩ := execDecode_cases s
  · exact ⟨_, _, he, rfl, fun h => absurd h (by decide)⟩
  · exact ⟨_, _, he, rfl, fun h => absurd h (by decide)⟩
  · exact ⟨_, _, he, rfl, fun h => absurd h (by decide)⟩
  · refine ⟨_, _, he, rfl, fun _ => ⟨hle, rfl, fun hl => ?_⟩⟩
    rw [dataOf_responseWord, BitVec.toNat_ofNat]
    exact Nat.mod_eq_of_lt ((hle.trans hl).trans_lt (by decide))

/-- Settles O46: the phrase is loaded, BUILD commits what `BuildOf` describes, and its output is loaded and decoded. -/
theorem roundTripLaw : Obligations.RoundTripLaw := by
  intro s p _ _ hlen hws
  obtain ⟨u, hload, rfl, -⟩ := appends_pput.execAll_load (exec_pclr s) (phraseOf_clearPb s) hlen
  have hplen : u.plen ≤ Config.defaults.pmax := phraseOf_length u ▸ hlen
  obtain he | ⟨b, hb, ho, he⟩ := exec_build_of_text hplen hws
  · exact ⟨_, _, (execAll_append hload).trans (execAll_cons he), List.getLast?_concat, fun hne => absurd rfl hne⟩
  · have hbits : b.bits.length < 2 ^ 28 := ho.trans_lt (by decide)
    refine ⟨_, _, (execAll_append hload).trans (execAll_cons he), List.getLast?_concat, fun _ =>
      ⟨statusOf_ofNat hbits, dataOf_ofNat hbits, fun hl => ?_⟩⟩
    have hheld : SameRetained (commitBuild b u) (given (BitVec.ofNat 32 b.bits.length) (commitBuild b u)) := .refl _
    obtain ⟨v, hv⟩ := execAll_decode_encoding hb hheld hl
    exact ⟨_, hv, List.getLast?_concat, rfl, rfl, rfl⟩

/-- Settles O47: the one check of RDTX, then the character; a failed DECODE leaves TLEN 0, and BUILD does not reach TB. -/
theorem rdtxReadsOneDecodedCharacter : Obligations.RdtxReadsOneDecodedCharacter := by
  have hge : ∀ (s : State) (x : Nat), s.tlen ≤ x → exec (.rdtx x) s = .next (given 0x60000000#32 s) :=
    fun s x hx => (withIndex_ge hx s _).trans (fail_given .eidx s)
  refine ⟨decode_eq_command_iff_of_wordX (f := .rdtx) (op := 0x51#8) (fun _ => rfl) (fun _ => rfl), hge,
    fun s x hx => ?_, fun s t r hs h hr hne x => hge t x ?_, fun s t h => ?_⟩
  · have hdata : ((tbAt s x).setWidth 28).toNat = (tbAt s x).toNat := BitVec.toNat_setWidth_of_le (by decide)
    exact hdata ▸ (withIndex_lt hx s _).trans (answer_given _ s)
  · rw [tlen_of_failed_decode hs h hr hne]
    exact Nat.zero_le x
  · obtain ⟨e, -, he, -⟩ | ⟨b, he, -⟩ := buildAndEncode_congr Config.defaults (s := s) (t := s) rfl rfl <;>
      obtain rfl := Host.Outcome.next.inj (he.symm.trans h)
    · exact ⟨rfl, fun _ => rfl⟩
    · exact ⟨rfl, fun _ => rfl⟩

end Sys2Proof.Machine
end

section
/-! PROOFS. The statements of 45_system.md: NOP (R170) and the read of one control register (R171). -/

namespace Sys2Proof.Safety

open Sys2Proof.Machine

/-! ### The capacities bound NSYM and NNODE, with a tree and without one (R9, R36) -/

theorem Inv.nsym_le {P : Config.Params} {s : State} (h : Inv P s) : s.nsym ≤ P.nsymMax := by
  cases ht : s.tvalid with
  | true => exact (h.tree ht).nsym_le
  | false =>
    obtain ⟨hnsym, -⟩ := h.noTree ht
    omega

theorem Inv.nnode_le {P : Config.Params} {s : State} (h : Inv P s) : s.nnode ≤ P.nnodeMax := by
  cases ht : s.tvalid with
  | true =>
    have hnnode := (h.tree ht).nnode_eq
    have hnsym := h.nsym_le
    unfold Config.Params.nnodeMax
    omega
  | false =>
    obtain ⟨-, hnnode, -⟩ := h.noTree ht
    omega

end Sys2Proof.Safety

namespace Sys2Proof.Machine

open Sys2Proof.Safety

/-! ### RDCR, when the register exists and when it does not (R171) -/

theorem controlRegister_of_gt {x : Nat} (h : 7 < x) (s : State) : controlRegister s x = none := by
  obtain ⟨k, rfl⟩ := Nat.exists_eq_add_of_le' h
  rfl

theorem exec_rdcr_none {s : State} {x : Nat} (h : controlRegister s x = none) :
    exec (.rdcr x) s = .next (given 0x60000000#32 s) := by
  show execRdcr x s = _
  unfold execRdcr
  rw [h]
  exact fail_given .eidx s

theorem exec_rdcr_some {s : State} {x : Nat} {v : Data} (h : controlRegister s x = some v) :
    exec (.rdcr x) s = .next (given (BitVec.ofNat 32 v.toNat) s) := by
  show execRdcr x s = _
  unfold execRdcr
  rw [h]
  exact answer_given v s

/-- A number that fits the data field is read as it is (R73). -/
theorem exec_rdcr_nat {s : State} {x n : Nat} (h : controlRegister s x = some (dataOfNat n)) (hn : n < 2 ^ 28) :
    exec (.rdcr x) s = .next (given (BitVec.ofNat 32 n) s) :=
  (exec_rdcr_some h).trans ((answer_given _ s).symm.trans (answer_nat hn s))

theorem exec_rdcr_status (s : State) :
    exec (.rdcr 0) s = .next (given (BitVec.ofNat 32 (bitNat s.dtrunc * 2 + bitNat s.tvalid)) s) :=
  statusData_toNat s ▸ exec_rdcr_some rfl

theorem exec_rdcr_root (s : State) : exec (.rdcr 5) s = .next (given (BitVec.ofNat 32 s.root.toNat) s) := by
  have hroot : (s.root.setWidth 28).toNat = s.root.toNat := BitVec.toNat_setWidth_of_le (by decide)
  exact hroot ▸ exec_rdcr_some rfl

/-- In a good state each length and each count is within its capacity, so the data field holds it. -/
theorem exec_rdcr_counts {s : State} (h : Inv Config.defaults s) :
    exec (.rdcr 1) s = .next (given (BitVec.ofNat 32 s.plen) s) ∧
    exec (.rdcr 2) s = .next (given (BitVec.ofNat 32 s.ilen) s) ∧
    exec (.rdcr 3) s = .next (given (BitVec.ofNat 32 s.nsym) s) ∧
    exec (.rdcr 4) s = .next (given (BitVec.ofNat 32 s.nnode) s) ∧
    exec (.rdcr 6) s = .next (given (BitVec.ofNat 32 s.olen) s) ∧
    exec (.rdcr 7) s = .next (given (BitVec.ofNat 32 s.tlen) s) :=
  ⟨exec_rdcr_nat rfl (h.plen_le.trans_lt (by decide)), exec_rdcr_nat rfl (h.ilen_le.trans_lt (by decide)),
    exec_rdcr_nat rfl (h.nsym_le.trans_lt (by decide)), exec_rdcr_nat rfl (h.nnode_le.trans_lt (by decide)),
    exec_rdcr_nat rfl (h.olen_le.trans_lt (by decide)), exec_rdcr_nat rfl (h.tlen_le.trans_lt (by decide))⟩

/-! ### The statements -/

/-- Settles O12: the word of RDCR, the missing registers, the eight registers of a good state, and the zeros that four
of them hold with no tree (`NoTree`). -/
theorem rdcrReadsTheControlRegister : Obligations.RdcrReadsTheControlRegister := by
  refine ⟨decode_eq_command_iff_of_wordX (f := .rdcr) (op := 0x01#8) (fun _ => rfl) (fun _ => rfl),
    fun s x hx => exec_rdcr_none (controlRegister_of_gt hx s), fun s hs => ?_, fun s hs ht => ?_⟩
  · obtain ⟨hplen, hilen, hnsym, hnnode, holen, htlen⟩ := exec_rdcr_counts hs
    exact ⟨exec_rdcr_status s, hplen, hilen, hnsym, hnnode, exec_rdcr_root s, holen, htlen⟩
  · obtain ⟨-, -, hnsym, hnnode, holen, -⟩ := exec_rdcr_counts hs
    obtain ⟨hnsym0, hnnode0, hroot0, holen0, -⟩ := hs.noTree ht
    have hroot := exec_rdcr_root s
    rw [hnsym0] at hnsym
    rw [hnnode0] at hnnode
    rw [hroot0] at hroot
    rw [holen0] at holen
    exact ⟨hnsym, hnnode, hroot, holen⟩

/-- Settles O11: NOP has one word, its encoding, and its answer makes no update. -/
theorem nopDoesNothing : Obligations.NopDoesNothing := ⟨fun _ => decode_eq_command_iff rfl, answer_given 0#28⟩

end Sys2Proof.Machine
end

section
/-! PROOFS. The statements of 60_exceptions.md: no error stops the core (R175), which command raises which error and what
the error writes (R176, R185), EEMPTY (R177), and ENOMATCH, which no good state gives (R180). -/

namespace Sys2Proof.Machine

open Sys2Proof.Safety

/-! ### The response of a command tells its status (30_encoding.md R73) -/

theorem statusOf_eq_iff {st e : Status} {d : Data} : statusOf (responseWord st d) = (statusCode e).toNat ↔ st = e := by
  rw [statusOf_responseWord, BitVec.toNat_inj]
  exact ⟨statusCode_inj, congrArg statusCode⟩

/-- Where a command answers in a state with the responses of `s`, the one response added to those is the answer's. -/
theorem eq_responseWord {s u t : State} {st : Status} {d : Data} {r : Word} (h : answer st d u = .next t)
    (hu : u.rsps = s.rsps) (hr : t.rsps = s.rsps ++ [r]) : r = responseWord st d := by
  obtain rfl := Host.Outcome.next.inj h
  rw [respond_rsps, hu] at hr
  exact (List.singleton_inj.1 (List.append_cancel_left hr)).symm

/-- The result `k` of a command in `s` is one answer, of another status than `e`. -/
def AnswersOtherThan (e : Status) (s : State) (k : Result) : Prop :=
  ∃ st d u, k = answer st d u ∧ u.rsps = s.rsps ∧ st ≠ e

theorem AnswersOtherThan.statusOf_ne {e : Status} {s t : State} {k : Result} {r : Word} (h : AnswersOtherThan e s k)
    (hk : k = .next t) (hr : t.rsps = s.rsps ++ [r]) : statusOf r ≠ (statusCode e).toNat := by
  obtain ⟨st, d, u, he, hrsps, hne⟩ := h
  obtain rfl := eq_responseWord (he.symm.trans hk) hrsps hr
  exact mt statusOf_eq_iff.1 hne

/-! ### Every command and every step ends in a next state (R175) -/

theorem exec_next (i : Instr) (s : State) : ∃ t, exec i s = .next t := by
  obtain ⟨st, d, u, he, -⟩ := exec_effect i s
  exact ⟨respond st d u, he⟩

theorem step_next (s : State) : ∃ t, step s = .next t := by
  obtain ⟨-, he⟩ | ⟨rest, -, he⟩ | ⟨-, -, -, st, d, u, -, he, -⟩ := step_effect s
  · exact ⟨s, he⟩
  · exact ⟨_, he⟩
  · exact ⟨respond st d u, he⟩

/-! ### The table of the errors (R176, R185) -/

/-- The mnemonics of the commands that raise an error, the column "raised by" of R176; OK is no error. -/
@[simp] def raisedBy : Status → List String
  | .ok => []
  | .eempty => ["BUILD"]
  | .enotree => ["DECODE", "RDNK", "RDNF", "RDNL", "RDNR", "RDCS", "RDCL", "RDCB", "LKUP"]
  | .einvbin => ["DECODE"]
  | .enomatch => ["DECODE"]
  | .ecap => ["PPUT", "BPUT", "BUILD"]
  | .eidx => ["RDCR", "RDNK", "RDNF", "RDNL", "RDNR", "RDCS", "RDCL", "RDCB", "RDOB", "RDTX"]
  | .eill => []
  | .enosym => ["LKUP"]

/-- The state in which an error is answered (R185): only the two errors that abort a decode write. -/
def errorState (e : Status) (s : State) : State :=
  match e with
  | .einvbin | .enomatch => clearDecoded s
  | _ => s

@[simp] theorem errorState_rsps (e : Status) (s : State) : (errorState e s).rsps = s.rsps := by cases e <;> rfl

theorem errorState_of_abort {e : Status} (h : e = .einvbin ∨ e = .enomatch) (s : State) : errorState e s = clearDecoded s := by
  obtain rfl | rfl := h <;> rfl

theorem errorState_of_not_abort {e : Status} (h : ¬(e = .einvbin ∨ e = .enomatch)) (s : State) : errorState e s = s := by
  cases e with
  | einvbin => exact absurd (Or.inl rfl) h
  | enomatch => exact absurd (Or.inr rfl) h
  | _ => rfl

theorem raisedBy_of_abort {e : Status} (h : e = .einvbin ∨ e = .enomatch) : raisedBy e = ["DECODE"] := by
  obtain rfl | rfl := h <;> rfl

theorem eq_decode_of_mnemonic {i : Instr} (h : i.mnemonic = "DECODE") : i = .decode := by
  cases i with
  | decode => rfl
  | _ => simp [Instr.mnemonic] at h

/-- The result `k` of a command with mnemonic `m` in `s` is one answer, and an error only as R176 and R185 list it. -/
def AnswersAsListed (m : String) (s : State) (k : Result) : Prop :=
  ∃ st d u, k = answer st d u ∧ u.rsps = s.rsps ∧ (st ≠ .ok → m ∈ raisedBy st ∧ u = errorState st s)

section
variable {m : String} {s : State} {k : Result}

theorem listed_ok (d : Data) {u : State} (hu : u.rsps = s.rsps := by rfl) : AnswersAsListed m s (answer .ok d u) :=
  ⟨.ok, d, u, rfl, hu, fun h => absurd rfl h⟩

theorem listed_fail {e : Status} (hm : m ∈ raisedBy e) : AnswersAsListed m s (fail e (errorState e s)) :=
  ⟨e, 0#28, errorState e s, rfl, errorState_rsps e s, fun _ => ⟨hm, rfl⟩⟩

theorem listed_withTree (hm : m ∈ raisedBy .enotree) (h : AnswersAsListed m s k) : AnswersAsListed m s (withTree s k) := by
  cases ht : s.tvalid with
  | true => rwa [withTree_held ht]
  | false => exact withTree_none ht k ▸ listed_fail hm

theorem listed_withIndex {x b : Nat} (hm : m ∈ raisedBy .eidx) (h : AnswersAsListed m s k) :
    AnswersAsListed m s (withIndex x b s k) := by
  rcases Nat.lt_or_ge x b with hx | hx
  · rwa [withIndex_lt hx]
  · exact withIndex_ge hx s k ▸ listed_fail hm

theorem listed_readNode (x : Nat) (f : Node → Data) (hm : m ∈ raisedBy .enotree ∧ m ∈ raisedBy .eidx) :
    AnswersAsListed m s (readNode x f s) := listed_withTree hm.1 (listed_withIndex hm.2 (listed_ok _))

theorem listed_readEntry (x : Nat) (f : Code → Data) (hm : m ∈ raisedBy .enotree ∧ m ∈ raisedBy .eidx) :
    AnswersAsListed m s (readEntry x f s) := listed_withTree hm.1 (listed_withIndex hm.2 (listed_ok _))

theorem listed_rdcr (x : Nat) : AnswersAsListed "RDCR" s (exec (.rdcr x) s) := by
  cases hv : controlRegister s x with
  | some v => exact ((exec_rdcr_some hv).trans (answer_given v s).symm) ▸ listed_ok v
  | none => exact ((exec_rdcr_none hv).trans (fail_given .eidx s).symm) ▸ listed_fail (e := .eidx) (by simp)

theorem listed_pput (P : Config.Params) (c : Symbol) : AnswersAsListed "PPUT" s (phrasePut P c s) := by
  by_cases h : s.plen = P.pmax
  · exact phrasePut_full h c ▸ listed_fail (e := .ecap) (by simp)
  · exact phrasePut_room h c ▸ listed_ok _

theorem listed_bput (P : Config.Params) (c : Symbol) : AnswersAsListed "BPUT" s (inputPut P c s) := by
  by_cases h : s.ilen = P.imax
  · exact inputPut_full h c ▸ listed_fail (e := .ecap) (by simp)
  · exact inputPut_room h c ▸ listed_ok _

theorem listed_build (P : Config.Params) : AnswersAsListed "BUILD" s (buildAndEncode P s) := by
  obtain ⟨-, he⟩ | ⟨-, -, he⟩ | ⟨-, ft, bits, -, -, -, ⟨-, he⟩ | ⟨-, he⟩⟩ := buildAndEncode_cases P s <;> rw [he]
  · exact listed_fail (e := .eempty) (by simp)
  · exact listed_fail (e := .ecap) (by simp)
  · exact listed_fail (e := .ecap) (by simp)
  · exact listed_ok _

theorem listed_decode : AnswersAsListed "DECODE" s (execDecode s) := by
  obtain ⟨-, he⟩ | ⟨-, he | he⟩ | ⟨-, t, v, -, he⟩ := execDecode_cases s <;> rw [he]
  · exact listed_fail (e := .enotree) (by simp)
  · exact listed_fail (e := .einvbin) (by simp)
  · exact listed_fail (e := .enomatch) (by simp)
  · exact listed_ok _

theorem listed_rdcb (e k : Nat) : AnswersAsListed "RDCB" s (execRdcb e k s) :=
  have hidx : "RDCB" ∈ raisedBy .eidx := by simp
  listed_withTree (by simp) (listed_withIndex hidx (listed_withIndex hidx (listed_ok _)))

theorem listed_lkup (c : Symbol) : AnswersAsListed "LKUP" s (execLkup c s) := by
  refine listed_withTree (by simp) ?_
  cases entryOf s c with
  | some i => exact listed_ok _
  | none => exact listed_fail (e := .enosym) (by simp)

end

/-- Every command answers once, and an error only as the tables of R176 and R185 list it. -/
theorem exec_listed (i : Instr) (s : State) : AnswersAsListed i.mnemonic s (exec i s) := by
  cases i with
  | nop => exact listed_ok _
  | rdcr x => exact listed_rdcr x
  | pclr => exact listed_ok _
  | pput c => exact listed_pput Config.defaults c
  | build => exact listed_build Config.defaults
  | bclr => exact listed_ok _
  | bput c => exact listed_bput Config.defaults c
  | decode => exact listed_decode
  | rdnk x => exact listed_readNode (m := "RDNK") x kindSymData (by simp)
  | rdnf x => exact listed_readNode (m := "RDNF") x (fun v => v.freq.setWidth 28) (by simp)
  | rdnl x => exact listed_readNode (m := "RDNL") x (fun v => v.left.setWidth 28) (by simp)
  | rdnr x => exact listed_readNode (m := "RDNR") x (fun v => v.right.setWidth 28) (by simp)
  | rdcs x => exact listed_readEntry (m := "RDCS") x (fun r => r.sym.setWidth 28) (by simp)
  | rdcl x => exact listed_readEntry (m := "RDCL") x (fun r => r.len.setWidth 28) (by simp)
  | rdcb e k => exact listed_rdcb e k
  | lkup c => exact listed_lkup c
  | rdob x => exact listed_withIndex (m := "RDOB") (by simp) (listed_ok _)
  | rdtx x => exact listed_withIndex (m := "RDTX") (by simp) (listed_ok _)

/-! ### The phrases that BUILD does not answer with EEMPTY (R177) -/

theorem build_otherThan_eempty {P : Config.Params} {s : State} (hb : blankPhrase P s = false) :
    AnswersOtherThan .eempty s (buildAndEncode P s) := by
  obtain ⟨hb', -⟩ | ⟨-, -, he⟩ | ⟨-, ft, bits, -, -, -, ⟨-, he⟩ | ⟨-, he⟩⟩ := buildAndEncode_cases P s
  · exact absurd (hb.symm.trans hb') Bool.false_ne_true
  · exact ⟨.ecap, _, _, he, rfl, by decide⟩
  · exact ⟨.ecap, _, _, he, rfl, by decide⟩
  · exact ⟨.ok, _, _, he, rfl, by decide⟩

/-! ### DECODE from a good state (R180) -/

/-- On a good tree the walk meets no missing child (`treeInv_walk`). -/
theorem decode_otherThan_enomatch {P : Config.Params} {s : State} (hs : Inv P s) :
    AnswersOtherThan .enomatch s (execDecode s) := by
  cases ht : s.tvalid with
  | false => exact ⟨.enotree, _, _, execDecode_noTree ht, rfl, by decide⟩
  | true =>
    cases hv : (inputOf s).all validBitChar with
    | false => exact ⟨.einvbin, _, _, execDecode_invalid ht hv, rfl, by decide⟩
    | true =>
      cases hk : (nodeAt s s.root.toNat).kind with
      | leaf => exact ⟨.ok, _, _, execDecode_leaf ht hv hk, rfl, by decide⟩
      | internal =>
        have htree := hs.tree ht
        have hpos := htree.nsym_pos
        have hne : s.nsym ≠ 1 := fun h1 => nomatch hk.symm.trans ((treeInv_root_kind htree).2 h1)
        obtain ⟨t, cur, -, hw, -⟩ := treeInv_walk htree hs.wf (by omega) (inputOf s)
        exact ⟨.ok, _, _, execDecode_some ht hv hk hw, rfl, by decide⟩

/-! ### The statements -/

/-- Settles O8: a step and a command each end in one of the outcomes that `step_effect` and `exec_effect` list. -/
theorem nothingStopsTheCore : Obligations.NothingStopsTheCore := ⟨step_next, exec_next⟩

/-- Settles O9: the state is `errorState`, and only DECODE raises the two errors that write. -/
theorem errorsWriteOnlyWhatIsListed : Obligations.ErrorsWriteOnlyWhatIsListed := by
  refine ⟨fun i s => ?_, fun _ _ _ _ => step_illegal_given⟩
  obtain ⟨st, d, u, he, hrsps, herr⟩ := exec_listed i s
  have habort : st = .einvbin ∨ st = .enomatch ↔ statusOf (responseWord st d) = 3 ∨ statusOf (responseWord st d) = 4 :=
    or_congr (statusOf_eq_iff (e := .einvbin)).symm (statusOf_eq_iff (e := .enomatch)).symm
  refine ⟨respond st d u, responseWord st d, he, by rw [respond_rsps, hrsps], fun h0 hno => ?_, fun _ h34 => ?_⟩
  · obtain ⟨hraised, rfl⟩ := herr fun hok => h0 (statusOf_eq_iff.2 hok)
    have hnot : ¬(st = .einvbin ∨ st = .enomatch) := fun hab => by
      rw [raisedBy_of_abort hab, List.mem_singleton] at hraised
      exact hno ⟨eq_decode_of_mnemonic hraised, habort.1 hab⟩
    rw [errorState_of_not_abort hnot]
    rfl
  · have hab := habort.2 h34
    obtain ⟨-, rfl⟩ := herr (by rintro rfl; simp at hab)
    rw [errorState_of_abort hab]
    rfl

/-- Settles O10: the column "raised by", read off `raisedBy` for the status that the response tells. -/
theorem errorsAreRaisedByTheirCommands : Obligations.ErrorsAreRaisedByTheirCommands := by
  intro i s t r h hr
  obtain ⟨st, d, u, he, hrsps, herr⟩ := exec_listed i s
  obtain rfl := eq_responseWord (he.symm.trans h) hrsps hr
  have hrow : ∀ {e : Status}, e ≠ .ok → statusOf (responseWord st d) = (statusCode e).toNat → i.mnemonic ∈ raisedBy e :=
    fun hne hst => by
      obtain rfl := statusOf_eq_iff.1 hst
      exact (herr hne).1
  refine ⟨fun h => ?_, hrow (e := .enotree) (by decide), fun h => ?_, fun h => ?_, hrow (e := .ecap) (by decide),
    hrow (e := .eidx) (by decide), fun h => ?_, fun h => ?_⟩
  · exact List.mem_singleton.1 (hrow (e := .eempty) (by decide) h)
  · exact List.mem_singleton.1 (hrow (e := .einvbin) (by decide) h)
  · exact List.mem_singleton.1 (hrow (e := .enomatch) (by decide) h)
  · exact List.not_mem_nil (hrow (e := .eill) (by decide) h)
  · exact List.mem_singleton.1 (hrow (e := .enosym) (by decide) h)

/-- Settles O28: a blank phrase answers EEMPTY, and any other phrase another status. -/
theorem buildRefusesBlankPhrases : Obligations.BuildRefusesBlankPhrases := by
  refine fun P s => ⟨fun h => (blankPhrase_iff_pbAt P s).1 ?_, buildAndEncode_of_blank⟩
  cases hb : blankPhrase P s with
  | true => rfl
  | false => exact absurd rfl ((build_otherThan_eempty hb).statusOf_ne h rfl)

/-- Settles O44: the response tells the status of the answer. -/
theorem noUnmatchedPathOnGoodStates : Obligations.NoUnmatchedPathOnGoodStates :=
  fun _ _ _ hs => (decode_otherThan_enomatch hs).statusOf_ne

end Sys2Proof.Machine
end

section
/-! PROOFS. The statements of 70_reset_and_hazards.md: what reset leaves, as the commands show it (R195, R196), and the
responses of a run (R207). -/

namespace Sys2Proof.Machine

open Sys2Proof.Safety

/-! ### After reset (R195, R196) -/

/-- A tree check without a tree is ENOTREE's response word, whatever the command would do after it (R178). -/
theorem withTree_none_given {s : State} (h : s.tvalid = false) (k : Result) :
    withTree s k = .next (given 0x20000000#32 s) := (withTree_none h k).trans (fail_given .enotree s)

/-- No index is below the bound 0, so an index check against it is EIDX's response word (R182). -/
theorem withIndex_zero_given {b : Nat} (hb : b = 0) (x : Nat) (s : State) (k : Result) :
    withIndex x b s k = .next (given 0x60000000#32 s) :=
  (withIndex_ge (hb ▸ Nat.zero_le x) s k).trans (fail_given .eidx s)

/-! ### Runs (R207) -/

/-- A run whose first step ends in a next state goes on from there. -/
theorem run_succ {M : Host.Core} {s t : M.State} (h : M.step s = .next t) (k : Nat) : M.run (k + 1) s = M.run k t := by
  rw [Host.Core.run, h]

/-! ### The statements -/

/-- Settles O55, by induction on the words: the first has one response, and the rest are a run from the state after it. -/
theorem runsAnswerEveryCommand : Obligations.RunsAnswerEveryCommand := by
  intro ws
  induction ws with
  | nil => exact fun s hc => ⟨s, rfl, hc, [], (List.append_nil _).symm, rfl⟩
  | cons w ws ih =>
    intro s hc
    obtain ⟨u, r, hstep, hcmds, hr, -, -⟩ := oneResponsePerCommand s w _ hc
    obtain ⟨t, hrun, hdone, rs, hrs, hlen⟩ := ih u hcmds
    refine ⟨t, (run_succ (M := Sys2Proof.core) hstep ws.length).trans hrun, hdone, r :: rs, ?_, congrArg (· + 1) hlen⟩
    rw [hrs, hr, List.append_assoc, List.singleton_append]

/-- Settles O51: TVALID 0 refuses what needs a tree, PLEN 0 makes the phrase blank, and OLEN 0 and TLEN 0 admit no index. -/
theorem resetClearsEverything : Obligations.ResetClearsEverything := by
  intro s rest hc
  refine ⟨_, step_reset hc, rfl, rfl, rfl, rfl, rfl, rfl, rfl, rfl, rfl, rfl, rfl, ?_⟩
  generalize ht : applyReset { s with cmds := rest } = t
  have htree : ∀ k, withTree t k = .next (given 0x20000000#32 t) := withTree_none_given (ht ▸ rfl)
  have hplen : t.plen = 0 := ht ▸ rfl
  have holen : t.olen = 0 := ht ▸ rfl
  have htlen : t.tlen = 0 := ht ▸ rfl
  exact ⟨buildAndEncode_of_blank (.inl hplen), htree _, fun c => htree _, fun x => ⟨htree _, htree _, htree _, htree _,
    htree _, htree _, fun k => htree _, withIndex_zero_given holen x t _, withIndex_zero_given htlen x t _⟩⟩

end Sys2Proof.Machine
end
